-- ==== Sys2Proof/Word.lean ====
section
/-! DEFINITION. The bit-vector types of the core and the register numbers. -/

namespace Sys2Proof

/-- One byte: the smallest addressable unit of data memory (R60) and one pixel channel (R11). -/
abbrev Byte := BitVec 8

/-- A 16-bit lane or coefficient (R11, R17). -/
abbrev Half := BitVec 16

/-- A 32-bit command word, register of the window, or lane (R17, R36, R90). -/
abbrev Word := BitVec 32

/-- The contents of one vector register: VLEN = 128 bits (R11, R45). -/
abbrev V128 := BitVec 128

/-- A vector register number 0..7 naming V0..V7 (R45, R93). -/
abbrev VReg := Fin 8

end Sys2Proof
end

