-- ==== Sys2Proof/Syntax.lean ====
section
/-! DEFINITION. The thirteen commands of the core (R94) with their operands (R93, R96). -/

namespace Sys2Proof

/-- One constructor per row of the opcode map (R94). Register operands are numbers of V0..V7, address and count operands
full 32-bit words used unchanged (R93), in the order of R96. No value of the type is ill-formed: the legality rule of the
spec (R98) is about words, see WellFormed.lean. -/
inductive Instr where
  /-- END (R126). -/
  | endStream
  /-- NOP (R125). -/
  | nop
  /-- VLD (R141). -/
  | vld (vd : VReg) (addr : Word)
  /-- VST (R142). -/
  | vst (vs1 : VReg) (addr : Word)
  /-- VWIDEN (R144). -/
  | vwiden (vd vs1 : VReg)
  /-- VNARROW16 (R145). -/
  | vnarrow16 (vd vs1 vs2 : VReg)
  /-- VPACK8 (R146). -/
  | vpack8 (vd vs1 vs2 : VReg)
  /-- VMULLO (R147). -/
  | vmullo (vd vs1 vs2 : VReg)
  /-- CM4X4 (R176). -/
  | cm4x4 (dst src coef count : Word)
  /-- CM3X3 (R177). -/
  | cm3x3 (dst src coef count : Word)
  /-- CMDOT (R178). -/
  | cmdot (dst src coef count : Word)
  /-- CONV3X3 (R204). -/
  | conv3x3 (dst row0 row1 row2 coef count : Word)
  /-- CONV5X5 (R205). -/
  | conv5x5 (dst row0 row1 row2 row3 row4 coef count : Word)
deriving DecidableEq, Repr

/-- A command as it stands in memory: its first word and the operand words that follow it (R19, R90). -/
structure Command where
  first : Word
  operands : List Word
deriving DecidableEq, Repr

end Sys2Proof
end

