-- ==== Sys2Proof/WellFormed.lean ====
section
/-! DEFINITION. When the words of a command are well formed: the legality rule R98 and the length rule R95, written from
the prose of those rules and not from the match and mask columns that the decoder uses, so that the two check each other. -/

namespace Sys2Proof

/-- Which fields of the first word a legal word of this opcode may use (R94, "fields used"), and its length in words. -/
structure Shape where
  vd : Bool
  vs1 : Bool
  vs2 : Bool
  length : Nat
deriving DecidableEq, Repr

/-- The shape of each assigned opcode; none for an unassigned one (R94, R98). -/
def shapeOf (op : BitVec 8) : Option Shape :=
  if op = 0x01#8 ∨ op = 0x02#8 then some ⟨false, false, false, 1⟩
  else if op = 0x10#8 then some ⟨true, false, false, 2⟩
  else if op = 0x11#8 then some ⟨false, true, false, 2⟩
  else if op = 0x20#8 then some ⟨true, true, false, 1⟩
  else if op = 0x21#8 ∨ op = 0x22#8 ∨ op = 0x23#8 then some ⟨true, true, true, 1⟩
  else if op = 0x30#8 ∨ op = 0x31#8 ∨ op = 0x32#8 then some ⟨false, false, false, 5⟩
  else if op = 0x40#8 then some ⟨false, false, false, 7⟩
  else if op = 0x41#8 then some ⟨false, false, false, 9⟩
  else none

/-- A first word is legal when its OP is assigned and every must-be-zero field is zero (R98). -/
def legalFirst (w : Word) : Bool :=
  match shapeOf (w.extractLsb' 0 8) with
  | none => false
  | some sh =>
    (sh.vd || w.extractLsb' 8 3 == 0#3) && (sh.vs1 || w.extractLsb' 11 3 == 0#3) &&
      (sh.vs2 || w.extractLsb' 14 3 == 0#3) && w.extractLsb' 17 15 == 0#15

/-- The number of words of a command, from bits 7:0 of its first word alone (R95). -/
def lengthOf (w : Word) : Option Nat := (shapeOf (w.extractLsb' 0 8)).map (·.length)

/-- A command is well formed when its first word is legal and it has exactly the operand words of its length. -/
def Command.wellFormed (c : Command) : Bool :=
  legalFirst c.first && lengthOf c.first == some (c.operands.length + 1)

end Sys2Proof
end

