-- ==== Sys2Proof/Decode.lean ====
section
/-! DEFINITION. The decoder, total on any bytes and rejecting by name, the encoder, and the assembler syntax. -/

namespace Sys2Proof

/-- The operations of the opcode map, without operands (R94). -/
inductive Opcode where
  | endStream | nop | vld | vst | vwiden | vnarrow16 | vpack8 | vmullo | cm4x4 | cm3x3 | cmdot | conv3x3 | conv5x5
deriving DecidableEq, Repr

/-- A row of the opcode map of R94. -/
structure OpRow where
  opcode : Opcode
  length : Nat
  pattern : Word
  mask : Word
deriving DecidableEq, Repr

/-- The opcode map (R94): operation, length in words, match, mask. -/
def opTable : List OpRow :=
  [ ⟨.endStream, 1, 0x00000001#32, 0xFFFFFFFF#32⟩,
    ⟨.nop,       1, 0x00000002#32, 0xFFFFFFFF#32⟩,
    ⟨.vld,       2, 0x00000010#32, 0xFFFFF8FF#32⟩,
    ⟨.vst,       2, 0x00000011#32, 0xFFFFC7FF#32⟩,
    ⟨.vwiden,    1, 0x00000020#32, 0xFFFFC0FF#32⟩,
    ⟨.vnarrow16, 1, 0x00000021#32, 0xFFFE00FF#32⟩,
    ⟨.vpack8,    1, 0x00000022#32, 0xFFFE00FF#32⟩,
    ⟨.vmullo,    1, 0x00000023#32, 0xFFFE00FF#32⟩,
    ⟨.cm4x4,     5, 0x00000030#32, 0xFFFFFFFF#32⟩,
    ⟨.cm3x3,     5, 0x00000031#32, 0xFFFFFFFF#32⟩,
    ⟨.cmdot,     5, 0x00000032#32, 0xFFFFFFFF#32⟩,
    ⟨.conv3x3,   7, 0x00000040#32, 0xFFFFFFFF#32⟩,
    ⟨.conv5x5,   9, 0x00000041#32, 0xFFFFFFFF#32⟩ ]

/-- A first word selects a row exactly when its masked bits are the row's match (R94). -/
def OpRow.selects (r : OpRow) (w : Word) : Bool := w &&& r.mask == r.pattern

/-- The row a first word selects; none for an illegal first word (R94, R98, R99). -/
def rowOf (w : Word) : Option OpRow := opTable.find? (fun r => r.selects w)

/-- A three-bit register field whose lowest bit is `lo`, as a register number (R91, R93). -/
def regField (w : Word) (lo : Nat) : VReg := (w.extractLsb' lo 3).toFin

/-- VD, bits 10:8 (R91). -/
def fieldVd (w : Word) : VReg := regField w 8

/-- VS1, bits 13:11 (R91). -/
def fieldVs1 (w : Word) : VReg := regField w 11

/-- VS2, bits 16:14 (R91). -/
def fieldVs2 (w : Word) : VReg := regField w 14

/-- The instruction of an operation with this first word and these operand words (R92, R96); none when the number of
operand words is not the operation's. -/
def assemble (op : Opcode) (w : Word) (ops : List Word) : Option Instr :=
  match op, ops with
  | .endStream, [] => some .endStream
  | .nop, [] => some .nop
  | .vld, [addr] => some (.vld (fieldVd w) addr)
  | .vst, [addr] => some (.vst (fieldVs1 w) addr)
  | .vwiden, [] => some (.vwiden (fieldVd w) (fieldVs1 w))
  | .vnarrow16, [] => some (.vnarrow16 (fieldVd w) (fieldVs1 w) (fieldVs2 w))
  | .vpack8, [] => some (.vpack8 (fieldVd w) (fieldVs1 w) (fieldVs2 w))
  | .vmullo, [] => some (.vmullo (fieldVd w) (fieldVs1 w) (fieldVs2 w))
  | .cm4x4, [dst, src, coef, count] => some (.cm4x4 dst src coef count)
  | .cm3x3, [dst, src, coef, count] => some (.cm3x3 dst src coef count)
  | .cmdot, [dst, src, coef, count] => some (.cmdot dst src coef count)
  | .conv3x3, [dst, r0, r1, r2, coef, count] => some (.conv3x3 dst r0 r1 r2 coef count)
  | .conv5x5, [dst, r0, r1, r2, r3, r4, coef, count] => some (.conv5x5 dst r0 r1 r2 r3 r4 coef count)
  | _, _ => none

/-- The instruction a command's words stand for; none when the first word is illegal or the words do not match its
length (R95, R98). -/
def decodeCommand (c : Command) : Option Instr :=
  match rowOf c.first with
  | none => none
  | some r => assemble r.opcode c.first c.operands

/-- Why bytes are no command. -/
inductive DecodeError where
  /-- The first word is illegal (R98). -/
  | illegalFirst (w : Word)
  /-- There are fewer bytes than the command's words need (R95). -/
  | truncated
deriving DecidableEq, Repr

/-- A 32-bit word from its four bytes, lowest address first (R63, R90). -/
def wordOfBytes (b0 b1 b2 b3 : Byte) : Word := b3 ++ b2 ++ b1 ++ b0

/-- The first `n` words of a byte list, little-endian, and the bytes after them. -/
def takeWords : Nat → List Byte → Option (List Word × List Byte)
  | 0, bs => some ([], bs)
  | n + 1, b0 :: b1 :: b2 :: b3 :: bs =>
    match takeWords n bs with
    | some (ws, rest) => some (wordOfBytes b0 b1 b2 b3 :: ws, rest)
    | none => none
  | _ + 1, _ => none

/-- Decode the command at the head of a byte list: its instruction and the bytes after it. The first word is judged before
any operand word is looked at (R98, R122). -/
def decode (bs : List Byte) : Except DecodeError (Instr × List Byte) :=
  match takeWords 1 bs with
  | some ([w], rest) =>
    match rowOf w with
    | none => .error (.illegalFirst w)
    | some r =>
      match takeWords (r.length - 1) rest with
      | none => .error .truncated
      | some (ops, rest') =>
        match assemble r.opcode w ops with
        | some i => .ok (i, rest')
        | none => .error .truncated
  | _ => .error .truncated

/-- A first word from its fields (R97): OP | VD << 8 | VS1 << 11 | VS2 << 14. -/
def firstWord (op : Nat) (vd vs1 vs2 : VReg) : Word :=
  BitVec.ofNat 32 op ||| (BitVec.ofNat 32 vd.val <<< 8) ||| (BitVec.ofNat 32 vs1.val <<< 11) |||
    (BitVec.ofNat 32 vs2.val <<< 14)

/-- The words of an instruction (R96, R97, R103), unused fields zero. -/
def encode : Instr → Command
  | .endStream => ⟨firstWord 0x01 0 0 0, []⟩
  | .nop => ⟨firstWord 0x02 0 0 0, []⟩
  | .vld vd addr => ⟨firstWord 0x10 vd 0 0, [addr]⟩
  | .vst vs1 addr => ⟨firstWord 0x11 0 vs1 0, [addr]⟩
  | .vwiden vd vs1 => ⟨firstWord 0x20 vd vs1 0, []⟩
  | .vnarrow16 vd vs1 vs2 => ⟨firstWord 0x21 vd vs1 vs2, []⟩
  | .vpack8 vd vs1 vs2 => ⟨firstWord 0x22 vd vs1 vs2, []⟩
  | .vmullo vd vs1 vs2 => ⟨firstWord 0x23 vd vs1 vs2, []⟩
  | .cm4x4 dst src coef count => ⟨firstWord 0x30 0 0 0, [dst, src, coef, count]⟩
  | .cm3x3 dst src coef count => ⟨firstWord 0x31 0 0 0, [dst, src, coef, count]⟩
  | .cmdot dst src coef count => ⟨firstWord 0x32 0 0 0, [dst, src, coef, count]⟩
  | .conv3x3 dst r0 r1 r2 coef count => ⟨firstWord 0x40 0 0 0, [dst, r0, r1, r2, coef, count]⟩
  | .conv5x5 dst r0 r1 r2 r3 r4 coef count => ⟨firstWord 0x41 0 0 0, [dst, r0, r1, r2, r3, r4, coef, count]⟩

/-- The four bytes of a word, lowest address first (R63). -/
def bytesOfWord (w : Word) : List Byte :=
  [w.extractLsb' 0 8, w.extractLsb' 8 8, w.extractLsb' 16 8, w.extractLsb' 24 8]

/-- The bytes of an instruction as they lie in data memory (R63, R90). -/
def encodeBytes (i : Instr) : List Byte :=
  bytesOfWord (encode i).first ++ (encode i).operands.flatMap bytesOfWord

/-- The number of words L of an instruction (R94, R95). -/
def Instr.words (i : Instr) : Nat := (encode i).operands.length + 1

/-- The bytes `k`, `k + 1`, … (`n` of them) of a number, least significant first. -/
def bytesOfNat (w : Nat) : Nat → List Byte
  | 0 => []
  | n + 1 => BitVec.ofNat 8 w :: bytesOfNat (w / 256) n

/-- The longest command, CONV5X5, has nine words (R90). -/
def longestBytes : Nat := 36

/-- The instruction the decoder reads from bits numbered as the opcode table numbers them: the low `nbits` bits of `w`,
every bit above them zero, laid out little-endian from the lowest address. -/
def decodeTableWord (nbits w : Nat) : Option Instr :=
  match decode (bytesOfNat (w % 2 ^ nbits) longestBytes) with
  | .ok (i, _) => some i
  | .error _ => none

/-- The name of a vector register in the assembler syntax (R102). -/
def regName (r : VReg) : String := "v" ++ toString r.val

/-- A command line of the assembler: mnemonic, then operands separated by commas, numbers in decimal (R102, R103). -/
def asmLine (mnemonic : String) (operands : List String) : String :=
  if operands.isEmpty then mnemonic else mnemonic ++ " " ++ String.intercalate ", " operands

/-- An address or count operand as an unsigned decimal literal (R102). -/
def asmWord (w : Word) : String := toString w.toNat

/-- The assembler line of an instruction (R103). -/
def assembly : Instr → String
  | .endStream => asmLine "end" []
  | .nop => asmLine "nop" []
  | .vld vd addr => asmLine "vld" [regName vd, asmWord addr]
  | .vst vs1 addr => asmLine "vst" [regName vs1, asmWord addr]
  | .vwiden vd vs1 => asmLine "vwiden" [regName vd, regName vs1]
  | .vnarrow16 vd vs1 vs2 => asmLine "vnarrow16" [regName vd, regName vs1, regName vs2]
  | .vpack8 vd vs1 vs2 => asmLine "vpack8" [regName vd, regName vs1, regName vs2]
  | .vmullo vd vs1 vs2 => asmLine "vmullo" [regName vd, regName vs1, regName vs2]
  | .cm4x4 dst src coef count => asmLine "cm4x4" ([dst, src, coef, count].map asmWord)
  | .cm3x3 dst src coef count => asmLine "cm3x3" ([dst, src, coef, count].map asmWord)
  | .cmdot dst src coef count => asmLine "cmdot" ([dst, src, coef, count].map asmWord)
  | .conv3x3 dst r0 r1 r2 coef count => asmLine "conv3x3" ([dst, r0, r1, r2, coef, count].map asmWord)
  | .conv5x5 dst r0 r1 r2 r3 r4 coef count =>
    asmLine "conv5x5" ([dst, r0, r1, r2, r3, r4, coef, count].map asmWord)

end Sys2Proof
end

