-- ==== Sys2Proof/Config.lean ====
section
/-! DEFINITION. What a platform fixes (R50): BASE_MMIO, MemValid and the other cores' windows, as plain data; and the free
values. -/

namespace Sys2Proof

/-- A run of valid bytes of data memory, `base` to `base + size - 1` (R62, MemValid). -/
structure Region where
  base : Nat
  size : Nat
deriving DecidableEq, Repr

/-- The open parameters of the platform (R50, R62, R70), which no step changes.
DESIGN CHOICE: they stand in State as plain data, so that a statement about every state is a statement about every
platform (log entry 1). -/
structure Platform where
  /-- BASE_MMIO of this core, a multiple of 16 (R70). -/
  baseMmio : Word
  /-- BASE_MMIO of every other core of the platform: an engine access into any core's window is a violation (R61, R62). -/
  otherMmio : List Word
  /-- The bytes that exist and are memory: the parameter MemValid of R62 (log entry 2). -/
  valid : List Region
deriving DecidableEq, Repr

/-- The platform of State.reset: one core, every address valid, the window at 0x80000000.
DESIGN CHOICE (log entry 1), unsafe: the spec leaves all three open. -/
def Platform.default : Platform :=
  { baseMmio := 0x80000000#32, otherMmio := [], valid := [{ base := 0, size := 2 ^ 32 }] }

/-- What stands behind the n-th host read of another core's window: a free value, since that core's state is not in the
model (log entry 23). -/
opaque Config.otherCoreWord : Nat → Word

end Sys2Proof
end

