-- ==== Sys2Proof/Machine/State.lean ====
section
/-! DEFINITION. The state of the core and of its platform, as plain data, and the state after reset. -/

namespace Sys2Proof.Machine

/-- Data memory as (address, byte) pairs in one canonical form: addresses strictly rising and no entry equal to what an
unlisted address reads as (R60; see `Mem.wf`). -/
abbrev Mem := List Host.Cell

/-- One access to data memory: `n` bytes from `addr`, a write or a read (R66). -/
structure Access where
  write : Bool
  addr : Nat
  n : Nat
deriving DecidableEq, Repr

/-- The widths a host access can have; only the 32-bit one is defined for the register window (R40). -/
inductive Width where
  | byte | half | word
deriving DecidableEq, Repr

/-- What the host can do to the core and its memory (R30, R40, R41, R260). -/
inductive HostOp where
  /-- Read at a byte address: the register window or data memory. -/
  | read (addr : Word) (width : Width)
  /-- Write the low bytes of `data` at a byte address: the register window or data memory. -/
  | write (addr : Word) (width : Width) (data : Word)
  /-- Reset the core (R260, R261). -/
  | reset
deriving DecidableEq, Repr

/-- Whose turn it is (R236: host actions and engine steps are ordered, never at the same instant). -/
inductive Turn where
  | engine
  | host (op : HostOp)
deriving DecidableEq, Repr

/-- Which caller duty a contract violation breaks (R234). -/
inductive Violation where
  /-- R234 item 1: the access check of R62 fails. -/
  | access
  /-- R234 item 2: a forbidden overlap of the destination with a source (R171, R202). -/
  | overlap
  /-- R234 item 3: the host touched bytes the running stream uses (R74). -/
  | hostInterference
deriving DecidableEq, Repr

/-- The model faults of R230. Both stand for undefined behaviour or an unspecified value; the fault ends the run and says
nothing of the state afterwards (R234, R235), which is safe: nothing can be proved of a run past it. -/
inductive Fault where
  /-- Raised by every engine access that fails the check of R62, by the kernel commands on a forbidden overlap (R171, R202)
  and by a host or engine access that breaks R74; `addr` and `n` are the access. Safe. -/
  | contractViolation (cause : Violation) (addr n : Nat)
  /-- Raised by VST, VWIDEN, VNARROW16, VPACK8 and VMULLO when a source register has not been written since reset: "the
  source calls the condition undefined behaviour, and a model stops with a fault that is never final" (R18, R47, R235).
  Safe. -/
  | unwrittenRegister (r : VReg)
deriving DecidableEq, Repr

/-- The refusals. All are safe: the machine stops where the spec says a model refuses or says nothing. -/
inductive Refusal where
  /-- An instruction that has no meaning yet; raised only by a refused arm of exec. Safe. -/
  | notModelled (mnemonic : String)
  /-- Raised by a host reset while STATUS.BUSY = 1: not defined by the spec, "a model refuses it" (R261, I8). Safe. -/
  | resetWhileBusy
  /-- Raised by a host access to a register window, this core's or another's, that is not an aligned 32-bit one: "a model
  refuses it" (R40, I9). Safe. -/
  | windowAccess (addr n : Nat)
  /-- Raised by a host access to addresses that are no valid data memory: the spec does not say what is there (log entry
  10). Safe. -/
  | hostOutsideMemory (addr n : Nat)
deriving DecidableEq, Repr

/-- Everything the spec gives the machine (R30 to R51, R60), the platform's parameters (R50) and the host's side of the
interface. -/
structure State where
  /-- CMDPTR, the program counter; bits 1:0 hard-wired 0 (R32, R39). -/
  cmdptr : Word
  /-- CTRL.IE (R37). CTRL.START has no storage: it reads 0 always. -/
  ie : Bool
  /-- STATUS.BUSY (R38). -/
  busy : Bool
  /-- STATUS.DONE (R38). -/
  done : Bool
  /-- STATUS.ERR (R38). -/
  err : Bool
  /-- STATUS.ERRCODE (R38, R232). -/
  errcode : BitVec 4
  /-- V0..V7 (R45). -/
  v : Vector V128 8
  /-- The written mark of each vector register: a command has written it since reset (R47, R49). -/
  written : Vector Bool 8
  /-- The coefficient latch (R48). -/
  latch : List Half
  /-- Data memory (R60). -/
  mem : Mem
  /-- The platform's parameters, which no step changes (R50). -/
  platform : Platform
  /-- The model's own: whose turn comes next, oldest first; when empty, every turn is the engine's (log entry 6). -/
  turns : List Turn
  /-- The model's own: what the host's last read returned (log entry 8). -/
  hostData : Word
  /-- The model's own: the engine's accesses since the host last read STATUS with BUSY = 0 (R74, log entry 9). -/
  used : List Access
  /-- The model's own: the host's data-memory accesses while the running stream ran (R74, log entry 9). -/
  touched : List Access
  /-- The model's own: how many free values the host's reads have taken (log entry 23). -/
  draws : Nat
deriving DecidableEq, Repr

/-- The state after reset (R51, R260). DESIGN CHOICE where the spec gives no value: the contents of V0..V7, which no
command can read before writing (log entry 4), the latch (log entry 5), the platform (log entry 1) and the model's own
fields (log entries 6, 8, 9, 23). -/
def State.reset : State :=
  { cmdptr := 0#32
    ie := false
    busy := false
    done := false
    err := false
    errcode := 0#4
    v := Vector.replicate 8 0#128
    written := Vector.replicate 8 false
    latch := []
    mem := []
    platform := Platform.default
    turns := []
    hostData := 0#32
    used := []
    touched := []
    draws := 0 }

end Sys2Proof.Machine
end

