-- ==== Sys2Proof/Machine/Ops.lean ====
section
/-! DEFINITION. The named operations over memory and registers: bytes and little-endian values, the access check, the
vector registers and their written marks, the advance of CMDPTR, the illegal-command stop and the start that follows it. -/

namespace Sys2Proof.Machine

/-- What a byte of data memory that nothing has written reads as. DESIGN CHOICE, unsafe (log entry 3). -/
def Mem.unlisted : Byte := 0#8

/-- The byte at an address. -/
def Mem.read (m : Mem) (a : Nat) : Byte :=
  match m with
  | [] => Mem.unlisted
  | c :: m' => if c.1 = a then c.2 else Mem.read m' a

/-- Drop every entry of an address. -/
def Mem.erase (m : Mem) (a : Nat) : Mem :=
  match m with
  | [] => []
  | c :: m' => if c.1 = a then Mem.erase m' a else c :: Mem.erase m' a

/-- Put an entry before the first entry of a higher address. -/
def Mem.insert (m : Mem) (a : Nat) (b : Byte) : Mem :=
  match m with
  | [] => [(a, b)]
  | c :: m' => if a < c.1 then (a, b) :: c :: m' else c :: Mem.insert m' a b

/-- Store one byte, keeping the canonical form: writing what an unlisted address reads as removes the entry. -/
def Mem.write (m : Mem) (a : Nat) (b : Byte) : Mem :=
  if b = Mem.unlisted then Mem.erase m a else Mem.insert (Mem.erase m a) a b

/-- The canonical form: addresses strictly rising, no entry equal to what an unlisted address reads as. -/
def Mem.wf (m : Mem) : Bool :=
  match m with
  | [] => true
  | c :: m' => c.2 != Mem.unlisted && m'.all (fun d => decide (c.1 < d.1)) && Mem.wf m'

/-- Every listed address is one of the 2^32 addresses of data memory (R60). -/
def Mem.inSpace (m : Mem) : Bool := m.all (fun c => decide (c.1 < 2 ^ 32))

/-- The `n`-byte value at `a`, the byte at `a` least significant (R16, R63). -/
def Mem.readLE (m : Mem) (a : Nat) : Nat → Nat
  | 0 => 0
  | n + 1 => (Mem.read m a).toNat + 256 * Mem.readLE m (a + 1) n

/-- Store the low `n` bytes of a value, least significant at `a` (R16, R63). -/
def Mem.writeLE (m : Mem) (a : Nat) : Nat → Nat → Mem
  | 0, _ => m
  | n + 1, x => Mem.writeLE (Mem.write m a (BitVec.ofNat 8 x)) (a + 1) n (x / 256)

/-- Two ranges of bytes have a byte in common. -/
def rangesMeet (a n b m : Nat) : Bool := decide (0 < n ∧ 0 < m ∧ a < b + m ∧ b < a + n)

/-- The byte at `a` exists and is memory (R62, MemValid). -/
def validByte (p : Platform) (a : Nat) : Bool :=
  p.valid.any (fun r => decide (r.base ≤ a ∧ a < r.base + r.size))

/-- MemValid(a, n): every byte of the range is valid (R62). DEDUCED: the predicate goes byte by byte (log entry 2). -/
def memValid (p : Platform) (a n : Nat) : Bool := (List.range n).all (fun j => validByte p (a + j))

/-- The range meets this core's register window (R36, R70). -/
def meetsOwnWindow (p : Platform) (a n : Nat) : Bool := rangesMeet a n p.baseMmio.toNat 16

/-- The range meets another core's register window (R61). -/
def meetsOtherWindow (p : Platform) (a n : Nat) : Bool :=
  p.otherMmio.any (fun b => rangesMeet a n b.toNat 16)

/-- Check(a, n) of R62 passes: no wrap past 2^32, valid memory, no register window. -/
def check (p : Platform) (a n : Nat) : Bool :=
  decide (a + n ≤ 2 ^ 32) && memValid p a n && !meetsOwnWindow p a n && !meetsOtherWindow p a n

/-- MemRead(a, n) (R16): the value, or ContractViolation when the check fails (R62). -/
def memRead (p : Platform) (m : Mem) (a n : Nat) : Except Fault Nat :=
  if check p a n then .ok (Mem.readLE m a n) else .error (.contractViolation .access a n)

/-- MemWrite(a, n, x) (R16): the memory after it, or ContractViolation when the check fails (R62). -/
def memWrite (p : Platform) (m : Mem) (a n x : Nat) : Except Fault Mem :=
  if check p a n then .ok (Mem.writeLE m a n x) else .error (.contractViolation .access a n)

/-- The contents of a vector register, or UnwrittenRegister when no command has written it since reset: the spec's own stop,
"`fault` on read (UnwrittenRegister); never `any value`" (R18, R47, R235, R142, R144 to R147; I4b and I14 of
`93_implementation_defined.md`, D20 of `92_eei_decisions.md`). -/
def readV (s : State) (r : VReg) : Except Fault V128 :=
  if s.written[r] then .ok s.v[r] else .error (.unwrittenRegister r)

/-- Write all 128 bits of a vector register and mark it written (R47). -/
def State.setV (s : State) (r : VReg) (x : V128) : State :=
  { s with v := s.v.set r x, written := s.written.set r true }

/-- CMDPTR <- CMDPTR + 4 L mod 2^32, at the end of a command of L words (R33, R120, R121). -/
def State.advance (s : State) (l : Nat) : State := { s with cmdptr := s.cmdptr + BitVec.ofNat 32 (4 * l) }

/-- Entry on IllegalCommand, as one action (R237): CMDPTR stays at the illegal word. -/
def State.takeIllegal (s : State) : State := { s with busy := false, err := true, errcode := 1#4 }

/-- The effect of END on STATUS (R126). -/
def State.endRun (s : State) : State := { s with busy := false, done := true }

/-- START with STATUS.BUSY = 0 (R42), also the return from an error (R238): DONE, ERR and ERRCODE are cleared and the
engine runs. No host access has yet touched the stream that starts (log entry 9). -/
def State.start (s : State) : State :=
  { s with done := false, err := false, errcode := 0#4, busy := true, touched := [] }

/-- A computation that may raise a model fault, as the outcome of a step. -/
def outcome (r : Except Fault State) : Host.Outcome State Fault Refusal :=
  match r with
  | .ok s => .next s
  | .error f => .fault f

end Sys2Proof.Machine
end

