-- ==== Sys2Proof/Machine/Operands.lean ====
section
/-! DEFINITION. Operand forms: lanes of a vector register, pixels and coefficients in memory, and the shared arithmetic
(arithmetic shift and saturation). -/

namespace Sys2Proof.Machine

/-- Lane `j` of width `w`: bits w j + w - 1 down to w j (R17). -/
def lane (w : Nat) (x : V128) (j : Nat) : BitVec w := x.extractLsb' (w * j) w

/-- The register whose lanes of width `w` are the list's elements, the first in lane 0 (R17). -/
def packLanes (w : Nat) (xs : List (BitVec w)) : V128 :=
  match xs with
  | [] => 0#128
  | y :: ys => (packLanes w ys <<< w) ||| y.setWidth 128

/-- asr8 (R14): the floor of s / 256. -/
def asr8 (s : Int) : Int := s.fdiv 256

/-- clamp_u8 (R15). -/
def clampU8 (s : Int) : Byte := if s < 0 then 0#8 else if 255 < s then 255#8 else BitVec.ofInt 8 s

/-- sat_u16 (R15). -/
def satU16 (s : Int) : Half := if s < 0 then 0#16 else if 65535 < s then 65535#16 else BitVec.ofInt 16 s

/-- An output channel from its own sum: shift by 8, then clamp (R174, R182, R203). -/
def descale (acc : Int) : Byte := clampU8 (asr8 acc)

/-- A pixel: four unsigned 8-bit channels, channel c at byte offset c (R11, R20, R21). -/
structure Pixel where
  c0 : Byte
  c1 : Byte
  c2 : Byte
  c3 : Byte
deriving DecidableEq, Repr

/-- Pix(base, i, c) for the four channels, unchecked: what memory holds at pixel i of the row at base (R16). -/
def pixelAt (m : Mem) (base i : Nat) : Pixel :=
  { c0 := Mem.read m (base + 4 * i)
    c1 := Mem.read m (base + 4 * i + 1)
    c2 := Mem.read m (base + 4 * i + 2)
    c3 := Mem.read m (base + 4 * i + 3) }

/-- One checked channel: Pix(base, i, c) (R16). -/
def readChannel (p : Platform) (m : Mem) (base i c : Nat) : Except Fault Byte :=
  match memRead p m (base + 4 * i + c) 1 with
  | .ok x => .ok (BitVec.ofNat 8 x)
  | .error f => .error f

/-- The four checked reads of pixel i, channel order 0..3 (R173). -/
def readPixel (p : Platform) (m : Mem) (base i : Nat) : Except Fault Pixel := do
  let c0 ← readChannel p m base i 0
  let c1 ← readChannel p m base i 1
  let c2 ← readChannel p m base i 2
  let c3 ← readChannel p m base i 3
  .ok { c0 := c0, c1 := c1, c2 := c2, c3 := c3 }

/-- The four checked writes of pixel i, channel order 0..3: PutPix (R16, R173). -/
def writePixel (p : Platform) (m : Mem) (base i : Nat) (x : Pixel) : Except Fault Mem := do
  let m0 ← memWrite p m (base + 4 * i) 1 x.c0.toNat
  let m1 ← memWrite p m0 (base + 4 * i + 1) 1 x.c1.toNat
  let m2 ← memWrite p m1 (base + 4 * i + 2) 1 x.c2.toNat
  memWrite p m2 (base + 4 * i + 3) 1 x.c3.toNat

/-- What memory holds as coefficients k, k + 1, … (`n` of them) of the array at base, unchecked: Coef(base, k) (R16). -/
def coefsAt (m : Mem) (base : Nat) : Nat → Nat → List Half
  | 0, _ => []
  | n + 1, k => BitVec.ofNat 16 (Mem.readLE m (base + 2 * k) 2) :: coefsAt m base n (k + 1)

/-- The checked reads of coefficients k, k + 1, … (`n` of them), in order: the latch's new contents (R48, R170, R200). -/
def readCoefs (p : Platform) (m : Mem) (base : Nat) : Nat → Nat → Except Fault (List Half)
  | 0, _ => .ok []
  | n + 1, k => do
    let x ← memRead p m (base + 2 * k) 2
    let rest ← readCoefs p m base n (k + 1)
    .ok (BitVec.ofNat 16 x :: rest)

/-- Latched coefficient k, as the signed number it is (R11, R16). -/
def coef (latch : List Half) (k : Nat) : Int := (latch.getD k 0#16).toInt

/-- The pixel loop shared by the kernel commands: output pixels i, i + 1, … (`n` of them), each computed by `f` from the
memory left by the ones before it, then stored at dst (R73, R173, R203). -/
def pixelLoop (p : Platform) (dst : Nat) (f : Mem → Nat → Except Fault Pixel) : Nat → Nat → Mem → Except Fault Mem
  | 0, _, m => .ok m
  | n + 1, i, m => do
    let x ← f m i
    let m' ← writePixel p m dst i x
    pixelLoop p dst f n (i + 1) m'

/-- The shared body of a kernel command (R48, R73): latch the coefficients, refuse a forbidden overlap before any pixel
access, run the pixel loop, and advance CMDPTR by the command's length. -/
def runKernel (s : State) (coefBase nCoefs dst count l : Nat) (overlaps : Bool)
    (f : List Half → Mem → Nat → Except Fault Pixel) : Except Fault State := do
  let c ← readCoefs s.platform s.mem coefBase nCoefs 0
  if overlaps then .error (.contractViolation .overlap dst (4 * count))
  else do
    let m ← pixelLoop s.platform dst (f c) count 0 s.mem
    .ok (State.advance { s with latch := c, mem := m } l)

end Sys2Proof.Machine
end

