-- ==== Sys2Proof/Machine/ColourMatrix.lean ====
section
/-! DEFINITION. The meanings of the colour-matrix commands (`42_color_matrix.md`). -/

namespace Sys2Proof.Machine

/-- The sum of row r over input channels 0..2: acc(r, K) with K = 0, 1, 2 (R174). -/
def acc3 (c : List Half) (r : Nat) (x : Pixel) : Int :=
  coef c (4 * r) * x.c0.toNat + coef c (4 * r + 1) * x.c1.toNat + coef c (4 * r + 2) * x.c2.toNat

/-- The sum of row r over all four input channels: acc(r, K) with K = 0, 1, 2, 3 (R174). The sum is exact: it fits in
signed 32 bits (R175). -/
def acc4 (c : List Half) (r : Nat) (x : Pixel) : Int := acc3 c r x + coef c (4 * r + 3) * x.c3.toNat

/-- F4x4 (R176): every output channel from its own row. -/
def f4x4 (c : List Half) (x : Pixel) : Pixel :=
  { c0 := descale (acc4 c 0 x), c1 := descale (acc4 c 1 x), c2 := descale (acc4 c 2 x), c3 := descale (acc4 c 3 x) }

/-- F3x3 (R177): rows 0..2 over channels 0..2, channel 3 copied. -/
def f3x3 (c : List Half) (x : Pixel) : Pixel :=
  { c0 := descale (acc3 c 0 x), c1 := descale (acc3 c 1 x), c2 := descale (acc3 c 2 x), c3 := x.c3 }

/-- FDot (R178): row 0 over channels 0..2, broadcast to channels 0..2, channel 3 copied. -/
def fDot (c : List Half) (x : Pixel) : Pixel :=
  { c0 := descale (acc3 c 0 x), c1 := descale (acc3 c 0 x), c2 := descale (acc3 c 0 x), c3 := x.c3 }

/-- The source and destination ranges of `count` pixels overlap, other than being the same (R171). -/
def matrixOverlap (dst src count : Nat) : Bool := !decide (dst = src) && rangesMeet dst (4 * count) src (4 * count)

/-- The shared body of the colour-matrix commands (R170, R171, R173), of five words. -/
def colourMatrix (f : List Half → Pixel → Pixel) (dst src coefBase count : Word) (s : State) : Except Fault State :=
  runKernel s coefBase.toNat 16 dst.toNat count.toNat 5 (matrixOverlap dst.toNat src.toNat count.toNat) fun c m i => do
    let x ← readPixel s.platform m src.toNat i
    .ok (f c x)

/-- CM4X4 (R176). -/
def execCm4x4 (dst src coefBase count : Word) (s : State) : Host.Outcome State Fault Refusal :=
  outcome (colourMatrix f4x4 dst src coefBase count s)

/-- CM3X3 (R177). -/
def execCm3x3 (dst src coefBase count : Word) (s : State) : Host.Outcome State Fault Refusal :=
  outcome (colourMatrix f3x3 dst src coefBase count s)

/-- CMDOT (R178). -/
def execCmdot (dst src coefBase count : Word) (s : State) : Host.Outcome State Fault Refusal :=
  outcome (colourMatrix fDot dst src coefBase count s)

end Sys2Proof.Machine
end

