-- ==== Sys2Proof/Machine/Convolution.lean ====
section
/-! DEFINITION. The meanings of the convolution commands (`43_convolution.md`). -/

namespace Sys2Proof.Machine

/-- The checked reads of pixels i, i + 1, … (`n` of them) of one row. -/
def readRow (p : Platform) (m : Mem) (row : Nat) : Nat → Nat → Except Fault (List Pixel)
  | 0, _ => .ok []
  | n + 1, i => do
    let x ← readPixel p m row i
    let rest ← readRow p m row n (i + 1)
    .ok (x :: rest)

/-- The K pixels from x of every row, in order dy, then dx, then channel (R201, R203). -/
def readWindow (p : Platform) (m : Mem) (k x : Nat) : List Nat → Except Fault (List Pixel)
  | [] => .ok []
  | row :: rows => do
    let ps ← readRow p m row k x
    let rest ← readWindow p m k x rows
    .ok (ps ++ rest)

/-- The weighted sum of one channel over the window: W[j] times the j-th pixel of the window, j counted from `j` on
(R203). The sum is exact: it fits in signed 32 bits (R206). -/
def weightedSum (w : List Half) (channel : Pixel → Byte) : Nat → List Pixel → Int
  | _, [] => 0
  | j, x :: xs => coef w j * (channel x).toNat + weightedSum w channel (j + 1) xs

/-- The output pixel of a window: each channel from its own sum (R203). -/
def convolve (w : List Half) (window : List Pixel) : Pixel :=
  { c0 := descale (weightedSum w Pixel.c0 0 window)
    c1 := descale (weightedSum w Pixel.c1 0 window)
    c2 := descale (weightedSum w Pixel.c2 0 window)
    c3 := descale (weightedSum w Pixel.c3 0 window) }

/-- The bytes of a row that a convolution of `count` pixels with kernel size k reads (R201). -/
def rowBytes (k count : Nat) : Nat := if count = 0 then 0 else 4 * (count + (k - 1))

/-- The destination meets some row's window (R202). -/
def convolutionOverlap (k dst count : Nat) (rows : List Nat) : Bool :=
  rows.any fun row => rangesMeet dst (4 * count) row (rowBytes k count)

/-- The shared body of the convolution commands (R200, R202, R203): kernel size k, one row operand per kernel row, `l`
words. -/
def convolution (k l : Nat) (dst : Word) (rows : List Word) (coefBase count : Word) (s : State) : Except Fault State :=
  runKernel s coefBase.toNat (k * k) dst.toNat count.toNat l
    (convolutionOverlap k dst.toNat count.toNat (rows.map (·.toNat))) fun w m x => do
      let window ← readWindow s.platform m k x (rows.map (·.toNat))
      .ok (convolve w window)

/-- CONV3X3 (R204). -/
def execConv3x3 (dst row0 row1 row2 coefBase count : Word) (s : State) : Host.Outcome State Fault Refusal :=
  outcome (convolution 3 7 dst [row0, row1, row2] coefBase count s)

/-- CONV5X5 (R205). -/
def execConv5x5 (dst row0 row1 row2 row3 row4 coefBase count : Word) (s : State) : Host.Outcome State Fault Refusal :=
  outcome (convolution 5 9 dst [row0, row1, row2, row3, row4] coefBase count s)

end Sys2Proof.Machine
end

