-- ==== Sys2Proof/Machine/Lanes.lean ====
section
/-! DEFINITION. The meanings of the fixed-point lane primitives (`41_lane_primitives.md`). -/

namespace Sys2Proof.Machine

/-- The low four 16-bit lanes sign-extended to 32 bits (R144). -/
def widen (x : V128) : V128 := packLanes 32 ((List.range 4).map fun j => (lane 16 x j).signExtend 32)

/-- The saturating narrow of the eight 32-bit lanes of lo and hi, read as signed (R145). -/
def narrow16 (lo hi : V128) : V128 :=
  packLanes 16 (((List.range 4).map fun j => satU16 (lane 32 lo j).toInt) ++
    (List.range 4).map fun j => satU16 (lane 32 hi j).toInt)

/-- The saturating pack of the sixteen 16-bit lanes of lo and hi, read as unsigned (R146). -/
def narrow8 (lo hi : V128) : V128 :=
  packLanes 8 (((List.range 8).map fun j => clampU8 ((lane 16 lo j).toNat : Int)) ++
    (List.range 8).map fun j => clampU8 ((lane 16 hi j).toNat : Int))

/-- The low 32 bits of the exact product of each pair of lanes (R147). -/
def mulLow (a b : V128) : V128 :=
  packLanes 32 ((List.range 4).map fun j => BitVec.ofInt 32 ((lane 32 a j).toInt * (lane 32 b j).toInt))

/-- A one-source register command: source checked and read before the destination is written (R128). -/
def unaryV (f : V128 → V128) (vd vs1 : VReg) (s : State) : Except Fault State := do
  let x ← readV s vs1
  .ok (State.advance (State.setV s vd (f x)) 1)

/-- A two-source register command: VS1 checked before VS2, both read before the destination is written (R122, R128). -/
def binaryV (f : V128 → V128 → V128) (vd vs1 vs2 : VReg) (s : State) : Except Fault State := do
  let x ← readV s vs1
  let y ← readV s vs2
  .ok (State.advance (State.setV s vd (f x y)) 1)

/-- VLD (R141). -/
def execVld (vd : VReg) (addr : Word) (s : State) : Host.Outcome State Fault Refusal :=
  outcome do
    let x ← memRead s.platform s.mem addr.toNat 16
    .ok (State.advance (State.setV s vd (BitVec.ofNat 128 x)) 2)

/-- VST (R142): the unwritten-register check comes before the access check. -/
def execVst (vs1 : VReg) (addr : Word) (s : State) : Host.Outcome State Fault Refusal :=
  outcome do
    let x ← readV s vs1
    let m ← memWrite s.platform s.mem addr.toNat 16 x.toNat
    .ok (State.advance { s with mem := m } 2)

/-- VWIDEN (R144). -/
def execVwiden (vd vs1 : VReg) (s : State) : Host.Outcome State Fault Refusal := outcome (unaryV widen vd vs1 s)

/-- VNARROW16 (R145). -/
def execVnarrow16 (vd vs1 vs2 : VReg) (s : State) : Host.Outcome State Fault Refusal :=
  outcome (binaryV narrow16 vd vs1 vs2 s)

/-- VPACK8 (R146). -/
def execVpack8 (vd vs1 vs2 : VReg) (s : State) : Host.Outcome State Fault Refusal :=
  outcome (binaryV narrow8 vd vs1 vs2 s)

/-- VMULLO (R147). -/
def execVmullo (vd vs1 vs2 : VReg) (s : State) : Host.Outcome State Fault Refusal :=
  outcome (binaryV mulLow vd vs1 vs2 s)

end Sys2Proof.Machine
end

