-- ==== Sys2Proof/Machine/Sequencing.lean ====
section
/-! DEFINITION. The meanings of END and NOP (`40_sequencing.md`). -/

namespace Sys2Proof.Machine

/-- END (R126, R120): CMDPTR past the END word, BUSY <- 0, DONE <- 1. -/
def execEndStream (s : State) : Host.Outcome State Fault Refusal := .next (State.endRun (State.advance s 1))

/-- NOP (R125): CMDPTR only. -/
def execNop (s : State) : Host.Outcome State Fault Refusal := .next (State.advance s 1)

end Sys2Proof.Machine
end

