-- ==== Sys2Proof/Machine/Dispatch.lean ====
section
/-! DEFINITION. The meaning of each command: one arm per constructor of Instr. -/

namespace Sys2Proof.Machine

def exec (i : Instr) (s : State) : Host.Outcome State Fault Refusal :=
  match i with
  | .endStream => Sys2Proof.Machine.execEndStream s
  | .nop => Sys2Proof.Machine.execNop s
  | .vld vd addr => Sys2Proof.Machine.execVld vd addr s
  | .vst vs1 addr => Sys2Proof.Machine.execVst vs1 addr s
  | .vwiden vd vs1 => Sys2Proof.Machine.execVwiden vd vs1 s
  | .vnarrow16 vd vs1 vs2 => Sys2Proof.Machine.execVnarrow16 vd vs1 vs2 s
  | .vpack8 vd vs1 vs2 => Sys2Proof.Machine.execVpack8 vd vs1 vs2 s
  | .vmullo vd vs1 vs2 => Sys2Proof.Machine.execVmullo vd vs1 vs2 s
  | .cm4x4 dst src coef count => Sys2Proof.Machine.execCm4x4 dst src coef count s
  | .cm3x3 dst src coef count => Sys2Proof.Machine.execCm3x3 dst src coef count s
  | .cmdot dst src coef count => Sys2Proof.Machine.execCmdot dst src coef count s
  | .conv3x3 dst row0 row1 row2 coef count => Sys2Proof.Machine.execConv3x3 dst row0 row1 row2 coef count s
  | .conv5x5 dst row0 row1 row2 row3 row4 coef count => Sys2Proof.Machine.execConv5x5 dst row0 row1 row2 row3 row4 coef count s

end Sys2Proof.Machine
end

