-- ==== Sys2Proof/Machine/Fetch.lean ====
section
/-! DEFINITION. Fetching a command at CMDPTR, the accesses each command makes, and the check of those accesses against
the host's (R74). -/

namespace Sys2Proof.Machine

/-- What stands at CMDPTR: an illegal first word, or a command. -/
inductive Fetched where
  | illegal (w : Word)
  | command (i : Instr)
deriving DecidableEq, Repr

/-- The address of word k of a command at `a`: (a + 4 k) mod 2^32 (R33, R90). -/
def wordAddr (a : Word) (k : Nat) : Nat := (a + BitVec.ofNat 32 (4 * k)).toNat

/-- The checked fetches of words k, k + 1, … (`n` of them) of the command at `a`, in order (R120, R122). -/
def readWords (p : Platform) (m : Mem) (a : Word) : Nat → Nat → Except Fault (List Word)
  | 0, _ => .ok []
  | n + 1, k => do
    let x ← memRead p m (wordAddr a k) 4
    let rest ← readWords p m a n (k + 1)
    .ok (BitVec.ofNat 32 x :: rest)

/-- The fetch of R120: the first word, its legality, then the operand words; an illegal first word stops the fetch before
any operand word (R98, R122). -/
def fetch (p : Platform) (m : Mem) (a : Word) : Except Fault Fetched := do
  let x ← memRead p m (wordAddr a 0) 4
  let w := BitVec.ofNat 32 x
  match rowOf w with
  | none => .ok (.illegal w)
  | some r =>
    let ops ← readWords p m a (r.length - 1) 1
    match decodeCommand { first := w, operands := ops } with
    | some i => .ok (.command i)
    | none => .ok (.illegal w)

/-- The reads of words k, k + 1, … (`n` of them) of the command at `a` (R66, first row). -/
def wordAccesses (a : Word) : Nat → Nat → List Access
  | 0, _ => []
  | n + 1, k => { write := false, addr := wordAddr a k, n := 4 } :: wordAccesses a n (k + 1)

/-- The accesses of a colour-matrix command (R66). -/
def matrixAccesses (dst src coefBase count : Word) : List Access :=
  [ { write := false, addr := coefBase.toNat, n := 32 },
    { write := false, addr := src.toNat, n := 4 * count.toNat },
    { write := true, addr := dst.toNat, n := 4 * count.toNat } ]

/-- The accesses of a convolution with kernel size k (R66, R201): no row byte when count is 0. -/
def convolutionAccesses (k : Nat) (dst : Word) (rows : List Word) (coefBase count : Word) : List Access :=
  { write := false, addr := coefBase.toNat, n := 2 * (k * k) } ::
  { write := true, addr := dst.toNat, n := 4 * count.toNat } ::
  rows.map fun row =>
    { write := false, addr := row.toNat, n := if count = 0#32 then 0 else 4 * (count.toNat + (k - 1)) }

/-- The data accesses of each command (R66). -/
def dataAccesses : Instr → List Access
  | .endStream => []
  | .nop => []
  | .vld _ addr => [{ write := false, addr := addr.toNat, n := 16 }]
  | .vst _ addr => [{ write := true, addr := addr.toNat, n := 16 }]
  | .vwiden _ _ => []
  | .vnarrow16 _ _ _ => []
  | .vpack8 _ _ _ => []
  | .vmullo _ _ _ => []
  | .cm4x4 dst src coefBase count => matrixAccesses dst src coefBase count
  | .cm3x3 dst src coefBase count => matrixAccesses dst src coefBase count
  | .cmdot dst src coefBase count => matrixAccesses dst src coefBase count
  | .conv3x3 dst r0 r1 r2 coefBase count => convolutionAccesses 3 dst [r0, r1, r2] coefBase count
  | .conv5x5 dst r0 r1 r2 r3 r4 coefBase count => convolutionAccesses 5 dst [r0, r1, r2, r3, r4] coefBase count

/-- The vector register a command writes, the one its VD field names; none for a command that writes none (R46). -/
def vectorDest : Instr → Option VReg
  | .endStream => none
  | .nop => none
  | .vld vd _ => some vd
  | .vst _ _ => none
  | .vwiden vd _ => some vd
  | .vnarrow16 vd _ _ => some vd
  | .vpack8 vd _ _ => some vd
  | .vmullo vd _ _ => some vd
  | .cm4x4 _ _ _ _ => none
  | .cm3x3 _ _ _ _ => none
  | .cmdot _ _ _ _ => none
  | .conv3x3 _ _ _ _ _ _ => none
  | .conv5x5 _ _ _ _ _ _ _ _ => none

/-- Every access of a command at `a` (R66): its own words, then its data. -/
def footprint (a : Word) (i : Instr) : List Access := wordAccesses a i.words 0 ++ dataAccesses i

/-- Two accesses of different agents that the spec forbids while a stream runs: they share a byte and one writes (R74). -/
def conflicts (x y : Access) : Bool := (x.write || y.write) && rangesMeet x.addr x.n y.addr y.n

/-- The first of these engine accesses that shares a byte with what the host touched during the run (R74). -/
def clash (s : State) (accs : List Access) : Option Access :=
  accs.find? fun y => s.touched.any fun x => conflicts x y

/-- Record the engine's accesses, for the host accesses that follow (R74, log entry 9). -/
def State.note (s : State) (accs : List Access) : State := { s with used := accs ++ s.used }

/-- Go on with an engine step that makes these accesses, unless the host has broken R74 on one of them (R234 item 3).
DESIGN CHOICE (log entry 22): R122 gives this check no place; it comes after the fetch and before the command's own checks,
over all of the command's accesses. -/
def withAccesses (s : State) (accs : List Access) (k : State → Host.Outcome State Fault Refusal) :
    Host.Outcome State Fault Refusal :=
  match clash s accs with
  | some y => .fault (.contractViolation .hostInterference y.addr y.n)
  | none => k (State.note s accs)

/-- Store bytes k, k + 1, … of a command at `a`, each at (a + k) mod 2^32. -/
def placeBytes (a : Word) : List Byte → Nat → Mem → Mem
  | [], _, m => m
  | b :: bs, k, m => placeBytes a bs (k + 1) (Mem.write m (a + BitVec.ofNat 32 k).toNat b)

/-- The state in which the engine is about to fetch these bytes at CMDPTR: the host has stored them, written START and
has no turn pending (R262, log entry 7). -/
def State.placeCommand (s : State) (bs : List Byte) : State :=
  { State.start s with mem := placeBytes s.cmdptr bs 0 s.mem, turns := [] }

end Sys2Proof.Machine
end

