-- ==== Sys2Proof/Machine/Flags.lean ====
section
/-! DEFINITION. The core has no arithmetic flags (R35). Its status bits are those of STATUS, its control bit is CTRL.IE:
the register views a host reads, what a host write does to each field, and the interrupt line. -/

namespace Sys2Proof.Machine

/-- A Bool as one bit. -/
def bit (b : Bool) : Nat := if b then 1 else 0

/-- CTRL as read (R37): START reads 0, IE in bit 1, the rest 0. -/
def readCtrl (s : State) : Word := BitVec.ofNat 32 (2 * bit s.ie)

/-- STATUS as read (R38): BUSY, DONE, ERR in bits 0 to 2, ERRCODE in bits 11:8, the rest 0. -/
def readStatus (s : State) : Word :=
  BitVec.ofNat 32 (bit s.busy + 2 * bit s.done + 4 * bit s.err + 256 * s.errcode.toNat)

/-- CMDPTR as read (R39): bits 1:0 are hard-wired 0. -/
def readCmdptr (s : State) : Word := s.cmdptr &&& 0xFFFFFFFC#32

/-- The interrupt line IRQ = IE and (DONE or ERR) (R44, R240). -/
def State.irq (s : State) : Bool := s.ie && (s.done || s.err)

/-- A host write of CTRL (R37, R42, R268): IE takes the written bit 1, running or not; START = 1 starts an idle engine
and does nothing to a running one. DEDUCED: IE is written while BUSY = 1 too (log entry 12). -/
def writeCtrl (s : State) (x : Word) : State :=
  if x.getLsbD 0 && !s.busy then State.start { s with ie := x.getLsbD 1 } else { s with ie := x.getLsbD 1 }

/-- A host write of STATUS (R38, R43): bit 1 clears DONE, bit 2 clears ERR and ERRCODE, other bits are ignored. -/
def writeStatus (s : State) (x : Word) : State :=
  { s with
    done := s.done && !x.getLsbD 1
    err := s.err && !x.getLsbD 2
    errcode := if x.getLsbD 2 then 0#4 else s.errcode }

/-- A host write of CMDPTR (R39): ignored while BUSY = 1, bits 1:0 stay 0. -/
def writeCmdptr (s : State) (x : Word) : State :=
  if s.busy then s else { s with cmdptr := x &&& 0xFFFFFFFC#32 }

end Sys2Proof.Machine
end

