-- ==== Sys2Proof/Machine/HostPort.lean ====
section
/-! DEFINITION. The host's side of the interface: the register window, the host's accesses to data memory, reset. -/

namespace Sys2Proof.Machine

/-- The four 32-bit registers of the window (R36). -/
inductive WindowReg where
  | ctrl | status | cmdptr | reserved
deriving DecidableEq, Repr

/-- The register at an offset of the window (R36). -/
def windowReg (offset : Word) : Option WindowReg :=
  if offset = 0x0#32 then some .ctrl
  else if offset = 0x4#32 then some .status
  else if offset = 0x8#32 then some .cmdptr
  else if offset = 0xC#32 then some .reserved
  else none

/-- The value of a register of the window (R36 to R39). -/
def readReg (s : State) : WindowReg → Word
  | .ctrl => readCtrl s
  | .status => readStatus s
  | .cmdptr => readCmdptr s
  | .reserved => 0#32

/-- A host write of a register of the window (R36 to R43). -/
def writeReg (s : State) (r : WindowReg) (x : Word) : State :=
  match r with
  | .ctrl => writeCtrl s x
  | .status => writeStatus s x
  | .cmdptr => writeCmdptr s x
  | .reserved => s

/-- A host read of STATUS that returns BUSY = 0 ends the period in which the stream's bytes are the engine's (R74, R76). -/
def acknowledge (s : State) : State := if s.busy then s else { s with used := [] }

/-- A host read of a register of the window: the value goes to the host, no core state changes (R41). -/
def hostRegRead (s : State) (r : WindowReg) : State :=
  match r with
  | .status => acknowledge { s with hostData := readReg s r }
  | _ => { s with hostData := readReg s r }

/-- The number of bytes of a host access. -/
def widthBytes : Width → Nat
  | .byte => 1
  | .half => 2
  | .word => 4

/-- What a host access reaches: a register of this core's window, one of another core's, or data memory. -/
inductive HostTarget where
  | own (r : WindowReg)
  | other (r : WindowReg)
  | memory
deriving DecidableEq, Repr

/-- The register of the window at `base` that an access meeting that window reaches; only aligned 32-bit accesses are
defined (R40). -/
def windowTarget (base addr : Word) (w : Width) (k : WindowReg → HostTarget) : Except Refusal HostTarget :=
  if w = .word ∧ addr.toNat % 4 = 0 then
    match windowReg (addr - base) with
    | some r => .ok (k r)
    | none => .error (.windowAccess addr.toNat (widthBytes w))
  else .error (.windowAccess addr.toNat (widthBytes w))

/-- The window of another core that a range meets (R61, R246). -/
def otherWindow (p : Platform) (a n : Nat) : Option Word := p.otherMmio.find? fun b => rangesMeet a n b.toNat 16

/-- What a host access at an address reaches (R30, R36, R40, R246), or a refusal. -/
def hostTarget (p : Platform) (addr : Word) (w : Width) : Except Refusal HostTarget :=
  if meetsOwnWindow p addr.toNat (widthBytes w) then windowTarget p.baseMmio addr w .own
  else
    match otherWindow p addr.toNat (widthBytes w) with
    | some b => windowTarget b addr w .other
    | none =>
      if decide (addr.toNat + widthBytes w ≤ 2 ^ 32) && memValid p addr.toNat (widthBytes w) then .ok .memory
      else .error (.hostOutsideMemory addr.toNat (widthBytes w))

/-- A register of another core as the free value `x` gives it, within what R36 to R39 let that register read as: IE in
bit 1 of CTRL; STATUS idle, BUSY, DONE, or ERR with ERRCODE 1; a word address in CMDPTR; 0 at offset 0x0C. -/
def otherReg (x : Word) : WindowReg → Word
  | .ctrl => x &&& 2#32
  | .status =>
    match x.toNat % 4 with
    | 0 => 0#32
    | 1 => 1#32
    | 2 => 2#32
    | _ => 0x104#32
  | .cmdptr => x &&& 0xFFFFFFFC#32
  | .reserved => 0#32

/-- A host read of another core's window: the value goes to the host, and this core's state does not change (R41, R246).
The value is free, that core's state being no part of the model (log entry 23). -/
def otherRead (s : State) (r : WindowReg) : State :=
  { s with hostData := otherReg (Config.otherCoreWord s.draws) r, draws := s.draws + 1 }

/-- A host access to data memory, with its effect `s'`: a violation when it conflicts with an access of the stream the
host has not acknowledged, else recorded while a stream runs (R74, R234 item 3). -/
def hostMemory (s : State) (acc : Access) (s' : State) : Host.Outcome State Fault Refusal :=
  if s.used.any (fun x => conflicts x acc) then .fault (.contractViolation .hostInterference acc.addr acc.n)
  else .next (if s.busy then { s' with touched := acc :: s.touched } else s')

/-- Reset of an idle core (R260, R261): every piece of core state holds its reset value; data memory, the platform and
what the model keeps of the host stay. -/
def State.hostReset (s : State) : State :=
  { State.reset with
    mem := s.mem
    platform := s.platform
    turns := s.turns
    hostData := s.hostData
    used := s.used
    touched := s.touched
    draws := s.draws }

/-- One host action (R40 to R43, R261). A write of another core's window acts on that core only (R246, log entry 15). -/
def hostTurn (op : HostOp) (s : State) : Host.Outcome State Fault Refusal :=
  match op with
  | .reset => if s.busy then .refused .resetWhileBusy else .next (State.hostReset s)
  | .read addr w =>
    match hostTarget s.platform addr w with
    | .error r => .refused r
    | .ok (.own r) => .next (hostRegRead s r)
    | .ok (.other r) => .next (otherRead s r)
    | .ok .memory =>
      hostMemory s { write := false, addr := addr.toNat, n := widthBytes w }
        { s with hostData := BitVec.ofNat 32 (Mem.readLE s.mem addr.toNat (widthBytes w)) }
  | .write addr w x =>
    match hostTarget s.platform addr w with
    | .error r => .refused r
    | .ok (.own r) => .next (writeReg s r x)
    | .ok (.other _) => .next s
    | .ok .memory =>
      hostMemory s { write := true, addr := addr.toNat, n := widthBytes w }
        { s with mem := Mem.writeLE s.mem addr.toNat (widthBytes w) x.toNat }

end Sys2Proof.Machine
end

