-- ==== Sys2Proof/Machine/Step.lean ====
section
/-! DEFINITION. One step of the machine: a host action or an engine step. -/

namespace Sys2Proof.Machine

/-- The engine step (R120): fetch, stop on an illegal first word (R237), otherwise execute the command; its accesses are
checked against the host's and recorded (R74), before the command's own checks (DESIGN CHOICE, log entry 22). -/
def engineStep (s : State) : Host.Outcome State Fault Refusal :=
  match fetch s.platform s.mem s.cmdptr with
  | .error f => .fault f
  | .ok (.illegal _) => withAccesses s (wordAccesses s.cmdptr 1 0) fun t => .next (State.takeIllegal t)
  | .ok (.command i) => withAccesses s (footprint s.cmdptr i) (exec i)

/-- The engine's turn: a step while STATUS.BUSY = 1, none while it is 0 (R120). -/
def engineTurn (s : State) : Host.Outcome State Fault Refusal := if s.busy then engineStep s else .next s

/-- One step: the next turn of `turns`, the engine's when there is none (R236; log entry 6). -/
def step (s : State) : Host.Outcome State Fault Refusal :=
  match s.turns with
  | [] => engineTurn s
  | .engine :: ts => engineTurn { s with turns := ts }
  | .host op :: ts => hostTurn op { s with turns := ts }

/-- `s` with the command whose low `nbits` bits are `w` (all others 0) stored at CMDPTR and the engine started on it, so
that the next step fetches and runs it (log entry 7). -/
def State.withFetchWord (s : State) (nbits w : Nat) : State :=
  State.placeCommand s (bytesOfNat (w % 2 ^ nbits) longestBytes)

end Sys2Proof.Machine
end

