-- ==== Sys2Proof/Safety.lean ====
section
/-! DEFINITION. What the statements call a legal state and a safe step. -/

namespace Sys2Proof.Machine

/-- CMDPTR is word aligned: its bits 1:0 are hard-wired 0 (R32, R39). -/
abbrev Aligned (s : State) : Prop := s.cmdptr.toNat % 4 = 0

/-- The STATUS fields are in a legal combination (R38): DONE and ERR are 0 while BUSY is 1, at most one of them is 1, and
ERRCODE is 1 exactly when ERR is 1 and otherwise 0 (R232). -/
abbrev StatusLegal (s : State) : Prop :=
  (s.busy = true → s.done = false ∧ s.err = false) ∧ (s.done && s.err) = false ∧
    s.errcode = if s.err then 1#4 else 0#4

/-- Data memory is in its canonical form and lists no address outside the 2^32 of the address space (R60). -/
abbrev MemLegal (s : State) : Prop := Mem.wf s.mem = true ∧ Mem.inSpace s.mem = true

/-- The invariant of the machine. -/
abbrev State.Inv (s : State) : Prop := Aligned s ∧ StatusLegal s ∧ MemLegal s

/-- A step is safe when it ends in a next state: no contract violation, no unwritten register read, nothing refused. -/
def safeStep (s : State) : Bool :=
  match step s with
  | .next _ => true
  | .fault _ => false
  | .refused _ => false

end Sys2Proof.Machine
end

