-- ==== Sys2Proof/Certificates/Slice0/Obligations.lean ====
section
/-! DEFINITION. The statements for the provers. Sums, shifts and clamps are written out here from the spec's formulas and not
through the model's own arithmetic, so that the two check each other. -/

namespace Sys2Proof.Claims

open Sys2Proof.Machine

/-- Coef(base, k): the signed value of the two bytes at base + 2 k, low byte first (R16, R64). -/
def coefOf (m : Mem) (base k : Nat) : Int :=
  (Mem.read m (base + 2 * k + 1) ++ Mem.read m (base + 2 * k) : BitVec 16).toInt

/-- Pix(base, i, c): channel c of pixel i of the row at base (R16). -/
def channel (m : Mem) (base i c : Nat) : Int := ((Mem.read m (base + 4 * i + c)).toNat : Int)

/-- clamp_u8 of a number (R15). -/
def clamp (s : Int) : Int := max 0 (min 255 s)

/-- clamp_u8(asr8(s)): the floor of s / 256, clamped (R14, R15, R174). -/
def scaled (s : Int) : Int := clamp (s / 256)

/-- The memory `m'` holds what `m` does at every address but the `n` from `a` on. -/
abbrev sameOutside (m m' : Mem) (a n : Nat) : Prop := ∀ q, q < a ∨ a + n ≤ q → Mem.read m' q = Mem.read m q

/-- Two ranges share no byte. -/
abbrev apart (a n b k : Nat) : Prop := n = 0 ∨ k = 0 ∨ a + n ≤ b ∨ b + k ≤ a

/-- The weighted sum of a K by K window at output pixel x, channel c (R203). -/
def windowSum (m : Mem) (k coefBase : Nat) (rows : List Word) (x c : Nat) : Int :=
  ∑ dy ∈ Finset.range k, ∑ dx ∈ Finset.range k,
    coefOf m coefBase (dy * k + dx) * channel m (rows.getD dy 0#32).toNat (x + dx) c

/-- The colour-matrix commands as functions of dst, src, coef, count. -/
def matrixCommands : List (Word → Word → Word → Word → Instr) := [Instr.cm4x4, Instr.cm3x3, Instr.cmdot]

/-- The engine has the turn in `s`; `ts` are the turns after it. -/
abbrev engineTurnOf (s : State) (ts : List Turn) : Prop := (s.turns = [] ∧ ts = []) ∨ s.turns = Turn.engine :: ts

/-- Two register files agree on the registers marked written. -/
abbrev agreeOnWritten (written : Vector Bool 8) (v v' : Vector V128 8) : Prop :=
  ∀ r : VReg, written[r] = true → v[r] = v'[r]

/-- The register window of this core can be reached: BASE_MMIO is a multiple of 16 (R70). -/
abbrev windowPlaced (s : State) : Prop := s.platform.baseMmio.toNat % 16 = 0

end Sys2Proof.Claims

open Sys2Proof Sys2Proof.Machine Sys2Proof.Claims

/-! ## Encoding -/

/-- First words written out in R97, R103 and the programs of `95_test_vectors.md` decode to their instructions. -/
def Obligations.SpecWordsDecode : Prop :=
  decodeCommand ⟨0x00000001#32, []⟩ = some .endStream ∧
  decodeCommand ⟨0x00000002#32, []⟩ = some .nop ∧
  decodeCommand ⟨0x00000510#32, [0x2000#32]⟩ = some (.vld 5 0x2000#32) ∧
  decodeCommand ⟨0x00002811#32, [0x3000#32]⟩ = some (.vst 5 0x3000#32) ∧
  decodeCommand ⟨0x00000120#32, []⟩ = some (.vwiden 1 0) ∧
  decodeCommand ⟨0x00005C21#32, []⟩ = some (.vnarrow16 4 3 1) ∧
  decodeCommand ⟨0x00012522#32, []⟩ = some (.vpack8 5 4 4) ∧
  decodeCommand ⟨0x00008B23#32, []⟩ = some (.vmullo 3 1 2) ∧
  decodeCommand ⟨0x00000031#32, [0x3000#32, 0x2000#32, 0x2100#32, 2#32]⟩ =
    some (.cm3x3 0x3000#32 0x2000#32 0x2100#32 2#32) ∧
  decodeCommand ⟨0x00000040#32, [0x3000#32, 0x2000#32, 0x2010#32, 0x2020#32, 0x2100#32, 2#32]⟩ =
    some (.conv3x3 0x3000#32 0x2000#32 0x2010#32 0x2020#32 0x2100#32 2#32) ∧
  decodeCommand ⟨0x00004120#32, []⟩ = none ∧
  decodeCommand ⟨0x00000000#32, []⟩ = none

/-- Decoding an encoded instruction gives it back, as words and as bytes with anything after them (R93, R96, R97). -/
def Obligations.DecodeOfEncodeIsIdentity : Prop :=
  ∀ (i : Instr) (rest : List Byte),
    decodeCommand (encode i) = some i ∧ decode (encodeBytes i ++ rest) = .ok (i, rest)

/-- Encoding a decoded command gives its words back: no accepted word holds a bit the instruction drops (R97, R98). -/
def Obligations.EncodeOfDecodeIsIdentity : Prop :=
  ∀ (c : Command) (i : Instr), decodeCommand c = some i → encode i = c

/-- Every first word is either illegal and selects no row, or legal and selects exactly one row (R99). -/
def Obligations.FirstWordIllegalOrOneRow : Prop :=
  ∀ w : Word,
    (legalFirst w = false ∧ ∀ r ∈ opTable, r.selects w = false) ∨
    (legalFirst w = true ∧ ∃ r ∈ opTable, r.selects w = true ∧ ∀ r' ∈ opTable, r'.selects w = true → r' = r)

/-- The decoder accepts exactly the well-formed commands: a legal first word and as many words as its length (R95,
R98). -/
def Obligations.DecoderAcceptsExactlyWellFormed : Prop :=
  ∀ c : Command, (decodeCommand c).isSome = c.wellFormed

/-- Bytes of an instruction standing from an aligned CMDPTR on, addresses wrapping at 2^32, are fetched as it (R33, R63,
R90, R120). -/
def Obligations.FetchReadsEncodedCommand : Prop :=
  ∀ (p : Platform) (m : Mem) (a : Word) (i : Instr), a.toNat % 4 = 0 →
    (∀ k < (encodeBytes i).length, Mem.read m (a + BitVec.ofNat 32 k).toNat = (encodeBytes i).getD k 0#8) →
    (∀ k < i.words, check p (a + BitVec.ofNat 32 (4 * k)).toNat 4 = true) →
    fetch p m a = .ok (.command i)

/-! ## The step -/

/-- On the engine's turn, running, a fetched command is executed, its accesses recorded; nothing else happens around it
(R120; the record is the model's own, log entry 9, and the turns too, log entry 6). -/
def Obligations.StepRunsDecodedCommand : Prop :=
  ∀ (s : State) (ts : List Turn) (i : Instr), engineTurnOf s ts → s.busy = true →
    fetch s.platform s.mem s.cmdptr = .ok (.command i) →
    (∀ x ∈ s.touched, ∀ y ∈ footprint s.cmdptr i, conflicts x y = false) →
    step s = exec i { s with turns := ts, used := footprint s.cmdptr i ++ s.used }

/-- An illegal first word at CMDPTR stops the engine as one action: BUSY 0, ERR 1, ERRCODE 1; CMDPTR, DONE, memory and
the vector registers stay; the operand words are not looked at (R231, R237). The record of the word's read and the
turns are the model's own (log entries 9 and 6). -/
def Obligations.IllegalWordStopsEngine : Prop :=
  ∀ (s : State) (ts : List Turn), engineTurnOf s ts → s.busy = true →
    check s.platform s.cmdptr.toNat 4 = true →
    legalFirst (BitVec.ofNat 32 (Mem.readLE s.mem s.cmdptr.toNat 4)) = false →
    (∀ x ∈ s.touched, conflicts x ⟨false, s.cmdptr.toNat, 4⟩ = false) →
    step s = .next { s with
      turns := ts, used := ⟨false, s.cmdptr.toNat, 4⟩ :: s.used, busy := false, err := true, errcode := 1#4 }

/-- A command-word fetch that fails the access check is a contract violation: the first word before legality is judged,
the operand words of a legal word in order (R122 items 1 to 3). -/
def Obligations.FetchFaultsInOrder : Prop :=
  ∀ (p : Platform) (m : Mem) (a : Word),
    (check p a.toNat 4 = false → fetch p m a = .error (.contractViolation .access a.toNat 4)) ∧
    (∀ l k, check p a.toNat 4 = true → legalFirst (BitVec.ofNat 32 (Mem.readLE m a.toNat 4)) = true →
      lengthOf (BitVec.ofNat 32 (Mem.readLE m a.toNat 4)) = some l → 0 < k → k < l →
      (∀ j, 0 < j → j < k → check p (a + BitVec.ofNat 32 (4 * j)).toNat 4 = true) →
      check p (a + BitVec.ofNat 32 (4 * k)).toNat 4 = false →
      fetch p m a = .error (.contractViolation .access (a + BitVec.ofNat 32 (4 * k)).toNat 4))

/-- While STATUS.BUSY = 0 the engine takes no step, and a host turn at the head of `turns` is one step, the host action
(R120, R236). That the idle machine then stays as it is, rather than being stuck, is the model's choice, and the turns are
its own (log entry 6). -/
def Obligations.IdleEngineAndHostTurns : Prop :=
  (∀ (s : State) (ts : List Turn), engineTurnOf s ts → s.busy = false → step s = .next { s with turns := ts }) ∧
  ∀ (s : State) (op : HostOp) (ts : List Turn), s.turns = Turn.host op :: ts →
    step s = hostTurn op { s with turns := ts }

/-! ## Sequencing commands -/

/-- END, the single word 0x00000001, completes in every state: CMDPTR past it, BUSY 0, DONE 1, nothing else; the interrupt
line is then IE (R126). -/
def Obligations.EndCompletes : Prop :=
  encode .endStream = ⟨0x00000001#32, []⟩ ∧
  ∀ s : State, ∃ t : State, exec .endStream s = .next t ∧
    t = { s with cmdptr := s.cmdptr + 4#32, busy := false, done := true } ∧ State.irq t = s.ie

/-- NOP, the single word 0x00000002, completes in every state: CMDPTR + 4 and nothing else (R125). -/
def Obligations.NopCompletes : Prop :=
  encode .nop = ⟨0x00000002#32, []⟩ ∧
  ∀ s : State, exec .nop s = .next { s with cmdptr := s.cmdptr + 4#32 }

/-! ## Lane primitives -/

/-- VLD, 0x10 with VD in bits 10:8: byte addr + j goes to byte lane j of V[VD], which is then written; a failed check is
a violation and writes nothing (R141). -/
def Obligations.VldLoadsSixteenBytes : Prop :=
  ∀ (s : State) (vd : VReg) (addr : Word),
    encode (.vld vd addr) = ⟨BitVec.ofNat 32 (0x10 + 256 * vd.val), [addr]⟩ ∧
    (check s.platform addr.toNat 16 = true → ∃ x : V128,
      exec (.vld vd addr) s = .next { s with
        v := s.v.set vd x, written := s.written.set vd true, cmdptr := s.cmdptr + 8#32 } ∧
      ∀ j < 16, x.extractLsb' (8 * j) 8 = Mem.read s.mem (addr.toNat + j)) ∧
    (check s.platform addr.toNat 16 = false →
      exec (.vld vd addr) s = .fault (.contractViolation .access addr.toNat 16))

/-- VST, 0x11 with VS1 in bits 13:11: byte lane j of V[VS1] goes to byte addr + j and no other byte changes; the
unwritten-register fault comes first, then the access check (R142). -/
def Obligations.VstStoresSixteenBytes : Prop :=
  ∀ (s : State) (vs1 : VReg) (addr : Word),
    encode (.vst vs1 addr) = ⟨BitVec.ofNat 32 (0x11 + 2048 * vs1.val), [addr]⟩ ∧
    (s.written[vs1] = true → check s.platform addr.toNat 16 = true → ∃ m : Mem,
      exec (.vst vs1 addr) s = .next { s with mem := m, cmdptr := s.cmdptr + 8#32 } ∧
      (∀ j < 16, Mem.read m (addr.toNat + j) = s.v[vs1].extractLsb' (8 * j) 8) ∧
      sameOutside s.mem m addr.toNat 16) ∧
    (s.written[vs1] = false → exec (.vst vs1 addr) s = .fault (.unwrittenRegister vs1)) ∧
    (s.written[vs1] = true → check s.platform addr.toNat 16 = false →
      exec (.vst vs1 addr) s = .fault (.contractViolation .access addr.toNat 16))

/-- VWIDEN, 0x20 with VD and VS1: 32-bit lane j is the sign extension of 16-bit lane j of the source, j = 0..3; only
V[VD], its mark and CMDPTR change (R144). -/
def Obligations.VwidenSignExtends : Prop :=
  ∀ (s : State) (vd vs1 : VReg),
    encode (.vwiden vd vs1) = ⟨BitVec.ofNat 32 (0x20 + 256 * vd.val + 2048 * vs1.val), []⟩ ∧
    (s.written[vs1] = true → ∃ r : V128,
      exec (.vwiden vd vs1) s = .next { s with
        v := s.v.set vd r, written := s.written.set vd true, cmdptr := s.cmdptr + 4#32 } ∧
      ∀ j < 4, r.extractLsb' (32 * j) 32 = (s.v[vs1].extractLsb' (16 * j) 16).signExtend 32) ∧
    (s.written[vs1] = false → exec (.vwiden vd vs1) s = .fault (.unwrittenRegister vs1))

/-- VNARROW16, 0x21 with VD, VS1, VS2: 16-bit lane j is 32-bit lane j of lo, lane 4 + j that of hi, read as signed and
clamped to 0..65535; only V[VD], its mark and CMDPTR change (R145). -/
def Obligations.Vnarrow16Saturates : Prop :=
  ∀ (s : State) (vd vs1 vs2 : VReg),
    encode (.vnarrow16 vd vs1 vs2) =
      ⟨BitVec.ofNat 32 (0x21 + 256 * vd.val + 2048 * vs1.val + 16384 * vs2.val), []⟩ ∧
    (s.written[vs1] = true → s.written[vs2] = true → ∃ r : V128,
      exec (.vnarrow16 vd vs1 vs2) s = .next { s with
        v := s.v.set vd r, written := s.written.set vd true, cmdptr := s.cmdptr + 4#32 } ∧
      ∀ j < 4,
        ((r.extractLsb' (16 * j) 16).toNat : Int) = max 0 (min 65535 (s.v[vs1].extractLsb' (32 * j) 32).toInt) ∧
        ((r.extractLsb' (16 * (4 + j)) 16).toNat : Int) = max 0 (min 65535 (s.v[vs2].extractLsb' (32 * j) 32).toInt)) ∧
    (s.written[vs1] = false → exec (.vnarrow16 vd vs1 vs2) s = .fault (.unwrittenRegister vs1)) ∧
    (s.written[vs1] = true → s.written[vs2] = false →
      exec (.vnarrow16 vd vs1 vs2) s = .fault (.unwrittenRegister vs2))

/-- VPACK8, 0x22 with VD, VS1, VS2: 8-bit lane j is 16-bit lane j of lo, lane 8 + j that of hi, read as unsigned and
clamped to 0..255; only V[VD], its mark and CMDPTR change (R146). -/
def Obligations.Vpack8SaturatesUnsigned : Prop :=
  ∀ (s : State) (vd vs1 vs2 : VReg),
    encode (.vpack8 vd vs1 vs2) =
      ⟨BitVec.ofNat 32 (0x22 + 256 * vd.val + 2048 * vs1.val + 16384 * vs2.val), []⟩ ∧
    (s.written[vs1] = true → s.written[vs2] = true → ∃ r : V128,
      exec (.vpack8 vd vs1 vs2) s = .next { s with
        v := s.v.set vd r, written := s.written.set vd true, cmdptr := s.cmdptr + 4#32 } ∧
      ∀ j < 8,
        (r.extractLsb' (8 * j) 8).toNat = min 255 (s.v[vs1].extractLsb' (16 * j) 16).toNat ∧
        (r.extractLsb' (8 * (8 + j)) 8).toNat = min 255 (s.v[vs2].extractLsb' (16 * j) 16).toNat) ∧
    (s.written[vs1] = false → exec (.vpack8 vd vs1 vs2) s = .fault (.unwrittenRegister vs1)) ∧
    (s.written[vs1] = true → s.written[vs2] = false →
      exec (.vpack8 vd vs1 vs2) s = .fault (.unwrittenRegister vs2))

/-- VMULLO, 0x23 with VD, VS1, VS2: 32-bit lane j is the exact product of the sources' signed lanes j modulo 2^32, which
is that of the unsigned lanes too; only V[VD], its mark and CMDPTR change (R147, R149). -/
def Obligations.VmulloKeepsLowHalf : Prop :=
  ∀ (s : State) (vd vs1 vs2 : VReg),
    encode (.vmullo vd vs1 vs2) =
      ⟨BitVec.ofNat 32 (0x23 + 256 * vd.val + 2048 * vs1.val + 16384 * vs2.val), []⟩ ∧
    (s.written[vs1] = true → s.written[vs2] = true → ∃ r : V128,
      exec (.vmullo vd vs1 vs2) s = .next { s with
        v := s.v.set vd r, written := s.written.set vd true, cmdptr := s.cmdptr + 4#32 } ∧
      ∀ j < 4,
        ((r.extractLsb' (32 * j) 32).toNat : Int) =
          ((s.v[vs1].extractLsb' (32 * j) 32).toInt * (s.v[vs2].extractLsb' (32 * j) 32).toInt) % 2 ^ 32 ∧
        (r.extractLsb' (32 * j) 32).toNat =
          (s.v[vs1].extractLsb' (32 * j) 32).toNat * (s.v[vs2].extractLsb' (32 * j) 32).toNat % 2 ^ 32) ∧
    (s.written[vs1] = false → exec (.vmullo vd vs1 vs2) s = .fault (.unwrittenRegister vs1)) ∧
    (s.written[vs1] = true → s.written[vs2] = false →
      exec (.vmullo vd vs1 vs2) s = .fault (.unwrittenRegister vs2))

/-- Narrowing in two stages is the 32 to 8 narrow: sixteen 32-bit lanes in A, B, C, D come out of vnarrow16, vnarrow16,
vpack8 as their clamps to 0..255 (R148). -/
def Obligations.NarrowInTwoStagesIsClamp : Prop :=
  (∀ x : Int, clamp (max 0 (min 65535 x)) = clamp x) ∧
  ∀ (s : State) (a b c d p q r : VReg), s.written[a] = true → s.written[b] = true → s.written[c] = true →
    s.written[d] = true → c ≠ p → d ≠ p → p ≠ q →
    ∃ s1 s2 t : State, exec (.vnarrow16 p a b) s = .next s1 ∧ exec (.vnarrow16 q c d) s1 = .next s2 ∧
      exec (.vpack8 r p q) s2 = .next t ∧
      ∀ j < 4,
        ((t.v[r].extractLsb' (8 * j) 8).toNat : Int) = clamp (s.v[a].extractLsb' (32 * j) 32).toInt ∧
        ((t.v[r].extractLsb' (8 * (4 + j)) 8).toNat : Int) = clamp (s.v[b].extractLsb' (32 * j) 32).toInt ∧
        ((t.v[r].extractLsb' (8 * (8 + j)) 8).toNat : Int) = clamp (s.v[c].extractLsb' (32 * j) 32).toInt ∧
        ((t.v[r].extractLsb' (8 * (12 + j)) 8).toNat : Int) = clamp (s.v[d].extractLsb' (32 * j) 32).toInt

/-- VWIDEN then VNARROW16 of the same value keeps non-negative 16-bit inputs and gives 0 for negative ones (R150). -/
def Obligations.WidenThenNarrowKeepsNonNegative : Prop :=
  ∀ (s : State) (vp vq vs1 : VReg), s.written[vs1] = true →
    ∃ s1 t : State, exec (.vwiden vp vs1) s = .next s1 ∧ exec (.vnarrow16 vq vp vp) s1 = .next t ∧
      ∀ j < 4, (t.v[vq].extractLsb' (16 * j) 16) =
        (if (s.v[vs1].extractLsb' (16 * j) 16).toNat < 0x8000 then s.v[vs1].extractLsb' (16 * j) 16 else 0#16)

/-- A register stored and loaded back from the same address is unchanged (R63, R72, R141, R142). -/
def Obligations.StoreThenLoadReturnsRegister : Prop :=
  ∀ (s : State) (vs1 vd : VReg) (addr : Word), s.written[vs1] = true → check s.platform addr.toNat 16 = true →
    ∃ s1 t : State, exec (.vst vs1 addr) s = .next s1 ∧ exec (.vld vd addr) s1 = .next t ∧ t.v[vd] = s.v[vs1]

/-! ## Colour matrix -/

/-- CM4X4 completes when its 32 coefficient bytes, source and destination pass the access check and the two ranges are the
same or apart; channel r of every destination pixel is then row r's sum over all four input channels, shifted and clamped;
only the destination bytes, the latch and CMDPTR change (R170, R171, R173, R174, R176). -/
def Obligations.Cm4x4TransformsPixels : Prop :=
  ∀ (s : State) (dst src cb count : Word), check s.platform cb.toNat 32 = true →
    (dst = src ∨ apart dst.toNat (4 * count.toNat) src.toNat (4 * count.toNat)) →
    check s.platform src.toNat (4 * count.toNat) = true → check s.platform dst.toNat (4 * count.toNat) = true →
    ∃ m : Mem, exec (.cm4x4 dst src cb count) s = .next { s with
        mem := m, latch := coefsAt s.mem cb.toNat 16 0, cmdptr := s.cmdptr + 20#32 } ∧
      (∀ i < count.toNat, ∀ r < 4, channel m dst.toNat i r =
        scaled (∑ k ∈ Finset.range 4, coefOf s.mem cb.toNat (4 * r + k) * channel s.mem src.toNat i k)) ∧
      sameOutside s.mem m dst.toNat (4 * count.toNat)

/-- CM3X3 completes under the same conditions; channels 0..2 are the sums of rows 0..2 over channels 0..2, channel 3 is
copied (R170, R171, R173, R174, R177). -/
def Obligations.Cm3x3TransformsPixels : Prop :=
  ∀ (s : State) (dst src cb count : Word), check s.platform cb.toNat 32 = true →
    (dst = src ∨ apart dst.toNat (4 * count.toNat) src.toNat (4 * count.toNat)) →
    check s.platform src.toNat (4 * count.toNat) = true → check s.platform dst.toNat (4 * count.toNat) = true →
    ∃ m : Mem, exec (.cm3x3 dst src cb count) s = .next { s with
        mem := m, latch := coefsAt s.mem cb.toNat 16 0, cmdptr := s.cmdptr + 20#32 } ∧
      (∀ i < count.toNat, channel m dst.toNat i 3 = channel s.mem src.toNat i 3 ∧
        ∀ r < 3, channel m dst.toNat i r =
          scaled (∑ k ∈ Finset.range 3, coefOf s.mem cb.toNat (4 * r + k) * channel s.mem src.toNat i k)) ∧
      sameOutside s.mem m dst.toNat (4 * count.toNat)

/-- CMDOT completes under the same conditions; channels 0..2 are the one sum of row 0 over channels 0..2, channel 3 is
copied (R170, R171, R173, R174, R178). -/
def Obligations.CmdotProjectsPixels : Prop :=
  ∀ (s : State) (dst src cb count : Word), check s.platform cb.toNat 32 = true →
    (dst = src ∨ apart dst.toNat (4 * count.toNat) src.toNat (4 * count.toNat)) →
    check s.platform src.toNat (4 * count.toNat) = true → check s.platform dst.toNat (4 * count.toNat) = true →
    ∃ m : Mem, exec (.cmdot dst src cb count) s = .next { s with
        mem := m, latch := coefsAt s.mem cb.toNat 16 0, cmdptr := s.cmdptr + 20#32 } ∧
      (∀ i < count.toNat, channel m dst.toNat i 3 = channel s.mem src.toNat i 3 ∧
        ∀ r < 3, channel m dst.toNat i r =
          scaled (∑ k ∈ Finset.range 3, coefOf s.mem cb.toNat k * channel s.mem src.toNat i k)) ∧
      sameOutside s.mem m dst.toNat (4 * count.toNat)

/-- A colour-matrix command whose coefficients can be read and whose source and destination overlap without being the same
is ContractViolation(dst, 4N), before any pixel access; the same range, ranges apart and N = 0 raise no overlap violation
(R171). -/
def Obligations.MatrixOverlapIsViolation : Prop :=
  ∀ (s : State) (dst src cb count : Word), ∀ command ∈ matrixCommands,
    (check s.platform cb.toNat 32 = true → dst ≠ src →
      ¬ apart dst.toNat (4 * count.toNat) src.toNat (4 * count.toNat) →
      exec (command dst src cb count) s = .fault (.contractViolation .overlap dst.toNat (4 * count.toNat))) ∧
    ((dst = src ∨ apart dst.toNat (4 * count.toNat) src.toNat (4 * count.toNat)) →
      ∀ a n, exec (command dst src cb count) s ≠ .fault (.contractViolation .overlap a n))

/-- A colour-matrix command stops with the first coefficient it may not read; with readable coefficients and legal ranges,
with a byte of the source or destination it may not access (R62, R122, R170, R173). -/
def Obligations.MatrixAccessFaults : Prop :=
  ∀ (s : State) (dst src cb count : Word), ∀ command ∈ matrixCommands,
    (∀ k < 16, (∀ j < k, check s.platform (cb.toNat + 2 * j) 2 = true) → check s.platform (cb.toNat + 2 * k) 2 = false →
      exec (command dst src cb count) s = .fault (.contractViolation .access (cb.toNat + 2 * k) 2)) ∧
    (check s.platform cb.toNat 32 = true →
      (dst = src ∨ apart dst.toNat (4 * count.toNat) src.toNat (4 * count.toNat)) →
      (check s.platform src.toNat (4 * count.toNat) = false ∨ check s.platform dst.toNat (4 * count.toNat) = false) →
      ∃ a : Nat, check s.platform a 1 = false ∧
        (src.toNat ≤ a ∧ a < src.toNat + 4 * count.toNat ∨ dst.toNat ≤ a ∧ a < dst.toNat + 4 * count.toNat) ∧
        exec (command dst src cb count) s = .fault (.contractViolation .access a 1))

/-- CM4X4 with 256 on the diagonal and 0 elsewhere leaves every pixel unchanged (R180). -/
def Obligations.Cm4x4IdentityKeepsPixels : Prop :=
  ∀ (s : State) (dst src cb count : Word), check s.platform cb.toNat 32 = true →
    (dst = src ∨ apart dst.toNat (4 * count.toNat) src.toNat (4 * count.toNat)) →
    check s.platform src.toNat (4 * count.toNat) = true → check s.platform dst.toNat (4 * count.toNat) = true →
    (∀ r < 4, ∀ k < 4, coefOf s.mem cb.toNat (4 * r + k) = if r = k then 256 else 0) →
    ∃ t : State, exec (.cm4x4 dst src cb count) s = .next t ∧
      ∀ i < count.toNat, ∀ c < 4, channel t.mem dst.toNat i c = channel s.mem src.toNat i c

/-- A colour-matrix command of m + n pixels leaves the memory that the same command on the first m pixels and then on the
n after them leaves, when its destination does not meet its coefficients: no batch size can be seen (R179). -/
def Obligations.MatrixCountSplits : Prop :=
  ∀ (s t : State) (dst src cb : Word) (m n : Nat), m + n < 2 ^ 32 → ∀ command ∈ matrixCommands,
    apart dst.toNat (4 * (m + n)) cb.toNat 32 →
    exec (command dst src cb (BitVec.ofNat 32 (m + n))) s = .next t →
    ∃ u w : State, exec (command dst src cb (BitVec.ofNat 32 m)) s = .next u ∧
      exec (command (dst + BitVec.ofNat 32 (4 * m)) (src + BitVec.ofNat 32 (4 * m)) cb (BitVec.ofNat 32 n)) u = .next w ∧
      ∀ q, Mem.read w.mem q = Mem.read t.mem q

/-- The accumulators never leave signed 32 bits: a colour-matrix sum lies between -33423360 and 33422340, a convolution
sum of at most 25 terms within 208896000 (R175, R206). -/
def Obligations.AccumulatorsNeverWrap : Prop :=
  (∀ (c : List Half) (r : Nat) (x : Pixel),
    -33423360 ≤ acc4 c r x ∧ acc4 c r x ≤ 33422340 ∧ -33423360 ≤ acc3 c r x ∧ acc3 c r x ≤ 33422340) ∧
  (∀ (w : List Half) (window : List Pixel), window.length ≤ 25 →
    ∀ ch ∈ [Pixel.c0, Pixel.c1, Pixel.c2, Pixel.c3],
      -208896000 ≤ weightedSum w ch 0 window ∧ weightedSum w ch 0 window ≤ 208896000)

/-- The output value of a sum: 0 below 256, its floor by 256 up to 65535, 255 from 65280; the same by truncating division
(R181). -/
def Obligations.RoundingIsNotObservable : Prop :=
  ∀ x : Int, (x < 256 → ((descale x).toNat : Int) = 0) ∧
    (256 ≤ x → x < 65536 → ((descale x).toNat : Int) = x / 256) ∧
    (65280 ≤ x → ((descale x).toNat : Int) = 255) ∧
    ((descale x).toNat : Int) = clamp (x.tdiv 256)

/-! ## Convolution -/

/-- CONV3X3 completes when its 18 coefficient bytes, the row windows (none when N = 0) and the destination pass the access
check and the destination meets no row window; every channel of every output pixel is then its nine-term sum, shifted and
clamped; only the destination bytes, the latch and CMDPTR change. Rows may overlap, the destination may overlap the
coefficients (R200 to R204). -/
def Obligations.Conv3x3ConvolvesPixels : Prop :=
  ∀ (s : State) (dst row0 row1 row2 cb count : Word), check s.platform cb.toNat 18 = true →
    (∀ row ∈ [row0, row1, row2], apart dst.toNat (4 * count.toNat) row.toNat (4 * (count.toNat + 2))) →
    (count ≠ 0#32 → ∀ row ∈ [row0, row1, row2], check s.platform row.toNat (4 * (count.toNat + 2)) = true) →
    check s.platform dst.toNat (4 * count.toNat) = true →
    ∃ m : Mem, exec (.conv3x3 dst row0 row1 row2 cb count) s = .next { s with
        mem := m, latch := coefsAt s.mem cb.toNat 9 0, cmdptr := s.cmdptr + 28#32 } ∧
      (∀ x < count.toNat, ∀ c < 4,
        channel m dst.toNat x c = scaled (windowSum s.mem 3 cb.toNat [row0, row1, row2] x c)) ∧
      sameOutside s.mem m dst.toNat (4 * count.toNat)

/-- CONV5X5 completes under the same conditions with 50 coefficient bytes and five row windows of N + 4 pixels; every
channel is its 25-term sum, shifted and clamped (R200 to R203, R205). -/
def Obligations.Conv5x5ConvolvesPixels : Prop :=
  ∀ (s : State) (dst row0 row1 row2 row3 row4 cb count : Word), check s.platform cb.toNat 50 = true →
    (∀ row ∈ [row0, row1, row2, row3, row4],
      apart dst.toNat (4 * count.toNat) row.toNat (4 * (count.toNat + 4))) →
    (count ≠ 0#32 →
      ∀ row ∈ [row0, row1, row2, row3, row4], check s.platform row.toNat (4 * (count.toNat + 4)) = true) →
    check s.platform dst.toNat (4 * count.toNat) = true →
    ∃ m : Mem, exec (.conv5x5 dst row0 row1 row2 row3 row4 cb count) s = .next { s with
        mem := m, latch := coefsAt s.mem cb.toNat 25 0, cmdptr := s.cmdptr + 36#32 } ∧
      (∀ x < count.toNat, ∀ c < 4,
        channel m dst.toNat x c = scaled (windowSum s.mem 5 cb.toNat [row0, row1, row2, row3, row4] x c)) ∧
      sameOutside s.mem m dst.toNat (4 * count.toNat)

/-- A convolution of N > 0 pixels whose coefficients can be read and whose destination meets a row window is
ContractViolation(dst, 4N), before any pixel access; a destination that meets no row window raises no overlap violation,
however the rows overlap each other and the destination the coefficients (R202). -/
def Obligations.ConvolutionOverlapIsViolation : Prop :=
  ∀ (s : State) (dst row0 row1 row2 row3 row4 cb count : Word),
    (check s.platform cb.toNat 18 = true →
      (∃ row ∈ [row0, row1, row2], ¬ apart dst.toNat (4 * count.toNat) row.toNat (4 * (count.toNat + 2))) →
      exec (.conv3x3 dst row0 row1 row2 cb count) s =
        .fault (.contractViolation .overlap dst.toNat (4 * count.toNat))) ∧
    (check s.platform cb.toNat 50 = true →
      (∃ row ∈ [row0, row1, row2, row3, row4],
        ¬ apart dst.toNat (4 * count.toNat) row.toNat (4 * (count.toNat + 4))) →
      exec (.conv5x5 dst row0 row1 row2 row3 row4 cb count) s =
        .fault (.contractViolation .overlap dst.toNat (4 * count.toNat))) ∧
    ((∀ row ∈ [row0, row1, row2], apart dst.toNat (4 * count.toNat) row.toNat (4 * (count.toNat + 2))) →
      ∀ a n, exec (.conv3x3 dst row0 row1 row2 cb count) s ≠ .fault (.contractViolation .overlap a n)) ∧
    ((∀ row ∈ [row0, row1, row2, row3, row4],
        apart dst.toNat (4 * count.toNat) row.toNat (4 * (count.toNat + 4))) →
      ∀ a n, exec (.conv5x5 dst row0 row1 row2 row3 row4 cb count) s ≠ .fault (.contractViolation .overlap a n))

/-- A convolution stops with the first coefficient it may not read; with readable coefficients and no overlap, with a byte
of a row window or of the destination it may not access (R62, R122, R200, R203). -/
def Obligations.ConvolutionAccessFaults : Prop :=
  ∀ (s : State) (dst row0 row1 row2 cb count : Word),
    (∀ k < 9, (∀ j < k, check s.platform (cb.toNat + 2 * j) 2 = true) → check s.platform (cb.toNat + 2 * k) 2 = false →
      exec (.conv3x3 dst row0 row1 row2 cb count) s = .fault (.contractViolation .access (cb.toNat + 2 * k) 2)) ∧
    (∀ row3 row4, ∀ k < 25, (∀ j < k, check s.platform (cb.toNat + 2 * j) 2 = true) →
      check s.platform (cb.toNat + 2 * k) 2 = false →
      exec (.conv5x5 dst row0 row1 row2 row3 row4 cb count) s =
        .fault (.contractViolation .access (cb.toNat + 2 * k) 2)) ∧
    (check s.platform cb.toNat 18 = true → count ≠ 0#32 →
      (∀ row ∈ [row0, row1, row2], apart dst.toNat (4 * count.toNat) row.toNat (4 * (count.toNat + 2))) →
      (check s.platform dst.toNat (4 * count.toNat) = false ∨
        ∃ row ∈ [row0, row1, row2], check s.platform row.toNat (4 * (count.toNat + 2)) = false) →
      ∃ a : Nat, check s.platform a 1 = false ∧
        (dst.toNat ≤ a ∧ a < dst.toNat + 4 * count.toNat ∨
          ∃ row ∈ [row0, row1, row2], row.toNat ≤ a ∧ a < row.toNat + 4 * (count.toNat + 2)) ∧
        exec (.conv3x3 dst row0 row1 row2 cb count) s = .fault (.contractViolation .access a 1)) ∧
    (∀ row3 row4, check s.platform cb.toNat 50 = true → count ≠ 0#32 →
      (∀ row ∈ [row0, row1, row2, row3, row4],
        apart dst.toNat (4 * count.toNat) row.toNat (4 * (count.toNat + 4))) →
      (check s.platform dst.toNat (4 * count.toNat) = false ∨
        ∃ row ∈ [row0, row1, row2, row3, row4], check s.platform row.toNat (4 * (count.toNat + 4)) = false) →
      ∃ a : Nat, check s.platform a 1 = false ∧
        (dst.toNat ≤ a ∧ a < dst.toNat + 4 * count.toNat ∨
          ∃ row ∈ [row0, row1, row2, row3, row4], row.toNat ≤ a ∧ a < row.toNat + 4 * (count.toNat + 4)) ∧
        exec (.conv5x5 dst row0 row1 row2 row3 row4 cb count) s = .fault (.contractViolation .access a 1))

/-- CONV3X3 with W[4] = 256 and every other entry 0 writes pixel x + 1 of the centre row as pixel x (R208). -/
def Obligations.Conv3x3IdentityCopiesCentreRow : Prop :=
  ∀ (s : State) (dst row0 row1 row2 cb count : Word), check s.platform cb.toNat 18 = true →
    (∀ row ∈ [row0, row1, row2], apart dst.toNat (4 * count.toNat) row.toNat (4 * (count.toNat + 2))) →
    (count ≠ 0#32 → ∀ row ∈ [row0, row1, row2], check s.platform row.toNat (4 * (count.toNat + 2)) = true) →
    check s.platform dst.toNat (4 * count.toNat) = true →
    (∀ k < 9, coefOf s.mem cb.toNat k = if k = 4 then 256 else 0) →
    ∃ t : State, exec (.conv3x3 dst row0 row1 row2 cb count) s = .next t ∧
      ∀ x < count.toNat, ∀ c < 4, channel t.mem dst.toNat x c = channel s.mem row1.toNat (x + 1) c

/-- A window whose bytes of channel c all equal v gives clamp_u8(asr8(S v)) when the weights sum to S ≥ 0, and v when they
sum to 256 (R209). -/
def Obligations.ConstantWindowGivesScaledValue : Prop :=
  ∀ (s t : State) (dst row0 row1 row2 row3 row4 cb count : Word) (x c : Nat) (v : Byte),
    x < count.toNat → c < 4 →
    (exec (.conv3x3 dst row0 row1 row2 cb count) s = .next t →
      (∀ row ∈ [row0, row1, row2], ∀ dx < 3, channel s.mem row.toNat (x + dx) c = (v.toNat : Int)) →
      (0 ≤ ∑ k ∈ Finset.range 9, coefOf s.mem cb.toNat k → channel t.mem dst.toNat x c =
        scaled ((∑ k ∈ Finset.range 9, coefOf s.mem cb.toNat k) * (v.toNat : Int))) ∧
      (∑ k ∈ Finset.range 9, coefOf s.mem cb.toNat k = 256 → channel t.mem dst.toNat x c = (v.toNat : Int))) ∧
    (exec (.conv5x5 dst row0 row1 row2 row3 row4 cb count) s = .next t →
      (∀ row ∈ [row0, row1, row2, row3, row4], ∀ dx < 5, channel s.mem row.toNat (x + dx) c = (v.toNat : Int)) →
      (0 ≤ ∑ k ∈ Finset.range 25, coefOf s.mem cb.toNat k → channel t.mem dst.toNat x c =
        scaled ((∑ k ∈ Finset.range 25, coefOf s.mem cb.toNat k) * (v.toNat : Int))) ∧
      (∑ k ∈ Finset.range 25, coefOf s.mem cb.toNat k = 256 → channel t.mem dst.toNat x c = (v.toNat : Int)))

/-- A convolution of m + n pixels leaves the memory that the same command on the first m pixels and then on the n after them
leaves, when its destination does not meet its coefficients: CONV3X3, and CONV5X5 (R207). -/
def Obligations.ConvolutionCountSplits : Prop :=
  ∀ (s t : State) (dst row0 row1 row2 row3 row4 cb : Word) (m n : Nat), m + n < 2 ^ 32 →
    (apart dst.toNat (4 * (m + n)) cb.toNat 18 →
      exec (.conv3x3 dst row0 row1 row2 cb (BitVec.ofNat 32 (m + n))) s = .next t →
      ∃ u w : State, exec (.conv3x3 dst row0 row1 row2 cb (BitVec.ofNat 32 m)) s = .next u ∧
        exec (.conv3x3 (dst + BitVec.ofNat 32 (4 * m)) (row0 + BitVec.ofNat 32 (4 * m)) (row1 + BitVec.ofNat 32 (4 * m))
          (row2 + BitVec.ofNat 32 (4 * m)) cb (BitVec.ofNat 32 n)) u = .next w ∧
        ∀ q, Mem.read w.mem q = Mem.read t.mem q) ∧
    (apart dst.toNat (4 * (m + n)) cb.toNat 50 →
      exec (.conv5x5 dst row0 row1 row2 row3 row4 cb (BitVec.ofNat 32 (m + n))) s = .next t →
      ∃ u w : State, exec (.conv5x5 dst row0 row1 row2 row3 row4 cb (BitVec.ofNat 32 m)) s = .next u ∧
        exec (.conv5x5 (dst + BitVec.ofNat 32 (4 * m)) (row0 + BitVec.ofNat 32 (4 * m)) (row1 + BitVec.ofNat 32 (4 * m))
          (row2 + BitVec.ofNat 32 (4 * m)) (row3 + BitVec.ofNat 32 (4 * m)) (row4 + BitVec.ofNat 32 (4 * m)) cb
          (BitVec.ofNat 32 n)) u = .next w ∧
        ∀ q, Mem.read w.mem q = Mem.read t.mem q)

/-! ## All commands: frames and whole-machine rules -/

/-- A command that completes writes no byte outside its write accesses: 16 bytes at addr for VST, 4N bytes at dst for the
kernel commands, none for the others (R66). -/
def Obligations.CommandsWriteOnlyTheirDestination : Prop :=
  ∀ (i : Instr) (s t : State), exec i s = .next t → ∀ q : Nat,
    (match i with
      | .vst _ addr => q < addr.toNat ∨ addr.toNat + 16 ≤ q
      | .cm4x4 dst _ _ count => q < dst.toNat ∨ dst.toNat + 4 * count.toNat ≤ q
      | .cm3x3 dst _ _ count => q < dst.toNat ∨ dst.toNat + 4 * count.toNat ≤ q
      | .cmdot dst _ _ count => q < dst.toNat ∨ dst.toNat + 4 * count.toNat ≤ q
      | .conv3x3 dst _ _ _ _ count => q < dst.toNat ∨ dst.toNat + 4 * count.toNat ≤ q
      | .conv5x5 dst _ _ _ _ _ _ count => q < dst.toNat ∨ dst.toNat + 4 * count.toNat ≤ q
      | _ => True) →
    Mem.read t.mem q = Mem.read s.mem q

/-- Every command that completes advances CMDPTR by its length in words, which the opcode of its first word gives, modulo
2^32: there is no control transfer (R33, R95, R129). -/
def Obligations.EveryCommandAdvancesByItsLength : Prop :=
  ∀ (i : Instr) (s t : State) (l : Nat), lengthOf (encode i).first = some l → exec i s = .next t →
    t.cmdptr = s.cmdptr + BitVec.ofNat 32 (4 * l)

/-- Only the lane commands write a vector register, the one their VD field names, and mark it written; every other
register and mark stays (R46, R47). -/
def Obligations.OnlyVdRegisterIsWritten : Prop :=
  ∀ (i : Instr) (s t : State), exec i s = .next t → ∀ r : VReg,
    let named := match i with
      | .vld vd _ => some vd
      | .vwiden vd _ => some vd
      | .vnarrow16 vd _ _ => some vd
      | .vpack8 vd _ _ => some vd
      | .vmullo vd _ _ => some vd
      | _ => none
    (named = some r → t.written[r] = true) ∧
    (named ≠ some r → t.v[r] = s.v[r] ∧ t.written[r] = s.written[r])

/-- No command but END changes CTRL or STATUS (there are no arithmetic flags), and no command changes the platform or the
host's side of the interface (R35, R50, R130). -/
def Obligations.CommandsLeaveControlState : Prop :=
  ∀ (i : Instr) (s t : State), exec i s = .next t →
    t.ie = s.ie ∧ t.err = s.err ∧ t.errcode = s.errcode ∧
    (i ≠ .endStream → t.busy = s.busy ∧ t.done = s.done) ∧
    t.platform = s.platform ∧ t.turns = s.turns ∧ t.hostData = s.hostData ∧ t.used = s.used ∧ t.touched = s.touched ∧ t.draws = s.draws

/-- Every command may be executed in any state: none is refused, and all that can stop one is a contract violation or an
unwritten register (R230, R233, R242). -/
def Obligations.NoCommandIsRefused : Prop :=
  ∀ (i : Instr) (s : State), (∃ t, exec i s = .next t) ∨ (∃ c a n, exec i s = .fault (.contractViolation c a n)) ∨
    (∃ r, s.written[r] = false ∧ exec i s = .fault (.unwrittenRegister r))

/-- What an unwritten register holds cannot be seen: two states that differ only in registers not marked written go to
states that differ only so, or raise the same fault (R47). So nothing rests on the contents the model gives V0..V7 at
reset (log entry 4). -/
def Obligations.UnwrittenContentsCannotBeSeen : Prop :=
  ∀ (i : Instr) (s : State) (v' : Vector V128 8), agreeOnWritten s.written s.v v' →
    (∀ f, exec i s = .fault f → exec i { s with v := v' } = .fault f) ∧
    (∀ t, exec i s = .next t → ∃ t', exec i { s with v := v' } = .next t' ∧ t' = { t with v := t'.v } ∧
      agreeOnWritten t.written t.v t'.v)

/-- What the coefficient latch held before a command cannot be seen: a kernel command loads it before it uses it, no other
command reads it (R48, R49). So nothing rests on its contents at reset (log entry 5). -/
def Obligations.OldLatchCannotBeSeen : Prop :=
  ∀ (i : Instr) (s : State) (c : List Half),
    (∀ f, exec i s = .fault f → exec i { s with latch := c } = .fault f) ∧
    (∀ t, exec i s = .next t → exec i { s with latch := c } = .next t ∨
      exec i { s with latch := c } = .next { t with latch := c })

/-! ## The register window, reset and the host -/

/-- A host write of CTRL with START = 1 to an idle engine, as one action: IE takes bit 1, DONE, ERR and ERRCODE are
cleared, BUSY is set, nothing else of the core changes (R42). The emptied record of host accesses is the model's own
(log entry 9). -/
def Obligations.StartRunsTheEngine : Prop :=
  ∀ (s : State) (x : Word), windowPlaced s → s.busy = false → x.getLsbD 0 = true →
    hostTurn (.write s.platform.baseMmio .word x) s = .next { s with
      ie := x.getLsbD 1, done := false, err := false, errcode := 0#4, busy := true, touched := [] }

/-- A host write of STATUS clears DONE by bit 1 and ERR with ERRCODE by bit 2; other bits are ignored and nothing else
changes (R43). -/
def Obligations.StatusBitsAreWriteOneToClear : Prop :=
  ∀ (s : State) (x : Word), windowPlaced s →
    hostTurn (.write (s.platform.baseMmio + 4#32) .word x) s = .next { s with
      done := if x.getLsbD 1 then false else s.done
      err := if x.getLsbD 2 then false else s.err
      errcode := if x.getLsbD 2 then 0#4 else s.errcode }

/-- A host write of CMDPTR sets bits 31:2 and leaves bits 1:0 zero while the engine is idle, and is ignored while it runs;
nothing else changes; a host read gives CMDPTR (R39; the value goes to `hostData`, log entry 8). -/
def Obligations.CmdptrWritableOnlyWhenIdle : Prop :=
  ∀ (s : State) (x : Word), windowPlaced s →
    (s.busy = false → ∃ a : Word, a.toNat = 4 * (x.toNat / 4) ∧
      hostTurn (.write (s.platform.baseMmio + 8#32) .word x) s = .next { s with cmdptr := a }) ∧
    (s.busy = true → hostTurn (.write (s.platform.baseMmio + 8#32) .word x) s = .next s) ∧
    (Aligned s → hostTurn (.read (s.platform.baseMmio + 8#32) .word) s = .next { s with hostData := s.cmdptr })

/-- A host write of CTRL that starts nothing (START = 0, or START while the engine runs) changes only IE (R37, R268). That
IE is written while the engine runs also when START is 1 is the model's reading (log entry 12). -/
def Obligations.CtrlWriteWithoutStartSetsOnlyIe : Prop :=
  ∀ (s : State) (x : Word), windowPlaced s → (x.getLsbD 0 = false ∨ s.busy = true) →
    hostTurn (.write s.platform.baseMmio .word x) s = .next { s with ie := x.getLsbD 1 }

/-- What the host reads in the window: CTRL gives IE in bit 1 and zeros; STATUS gives BUSY, DONE, ERR in bits 0 to 2,
ERRCODE in bits 11:8 and zeros; the word at 0x0C gives zero (R36, R37, R38). -/
def Obligations.WindowReadsGiveTheFields : Prop :=
  ∀ (s : State), windowPlaced s →
    (∃ t, hostTurn (.read s.platform.baseMmio .word) s = .next t ∧
      ∀ b < 32, t.hostData.getLsbD b = (b == 1 && s.ie)) ∧
    (∃ t, hostTurn (.read (s.platform.baseMmio + 4#32) .word) s = .next t ∧
      ∀ b < 32, t.hostData.getLsbD b =
        (b == 0 && s.busy || b == 1 && s.done || b == 2 && s.err || decide (8 ≤ b) && s.errcode.getLsbD (b - 8))) ∧
    (∃ t, hostTurn (.read (s.platform.baseMmio + 12#32) .word) s = .next t ∧ t.hostData = 0#32)

/-- A host read changes no state of the core and no memory (R41); what it changes is the model's own: the value it returns
(log entry 8), a register's, memory's bytes or another core's; the hold on the stream's bytes, which a read of STATUS with
BUSY = 0 ends and no other read does (R74, R76, log entry 9); the host's accesses, which grow by a read of data memory while
the engine runs (log entry 9); and the count of free values, by a read of another core's window (log entry 23). An aligned
32-bit access to another core's window completes, a write of it changing nothing here (R246, log entry 15). -/
def Obligations.HostReadsChangeNoCoreState : Prop :=
  (∀ (s t : State) (addr : Word) (w : Width), hostTurn (.read addr w) s = .next t →
    t = { s with hostData := t.hostData, used := t.used, touched := t.touched, draws := t.draws } ∧
    (∀ r, hostTarget s.platform addr w = .ok (.own r) →
      t.hostData = readReg s r ∧ t.touched = s.touched ∧ t.draws = s.draws ∧
      (r = .status → s.busy = false → t.used = []) ∧ (r ≠ .status ∨ s.busy = true → t.used = s.used)) ∧
    (∀ r, hostTarget s.platform addr w = .ok (.other r) →
      t.hostData = otherReg (Config.otherCoreWord s.draws) r ∧ t.used = s.used ∧ t.touched = s.touched ∧
      t.draws = s.draws + 1) ∧
    (hostTarget s.platform addr w = .ok .memory →
      t.hostData = BitVec.ofNat 32 (Mem.readLE s.mem addr.toNat (widthBytes w)) ∧ t.used = s.used ∧ t.draws = s.draws ∧
      t.touched = if s.busy then ⟨false, addr.toNat, widthBytes w⟩ :: s.touched else s.touched)) ∧
  ∀ (s : State) (addr x : Word), (∀ b ∈ s.platform.otherMmio, b.toNat % 16 = 0) →
    meetsOwnWindow s.platform addr.toNat 4 = false → meetsOtherWindow s.platform addr.toNat 4 = true →
    addr.toNat % 4 = 0 →
    hostTurn (.write addr .word x) s = .next s ∧
    ∃ d, hostTurn (.read addr .word) s = .next { s with hostData := d, draws := s.draws + 1 }

/-- A host access that meets a register window, this core's or another's, and is not an aligned 32-bit one is refused
(R40). -/
def Obligations.OtherWindowAccessesAreRefused : Prop :=
  ∀ (s : State) (addr : Word) (w : Width) (x : Word),
    (meetsOwnWindow s.platform addr.toNat (widthBytes w) = true ∨
      meetsOtherWindow s.platform addr.toNat (widthBytes w) = true) → (w ≠ .word ∨ addr.toNat % 4 ≠ 0) →
    hostTurn (.read addr w) s = .refused (.windowAccess addr.toNat (widthBytes w)) ∧
    hostTurn (.write addr w x) s = .refused (.windowAccess addr.toNat (widthBytes w))

/-- The interrupt line is IE and (DONE or ERR): END and an illegal stop raise it when IE is set, clearing both bits or
IE or starting lowers it (R44, R240). -/
def Obligations.InterruptLineIsLevel : Prop :=
  ∀ s : State, (State.irq s = true ↔ s.ie = true ∧ (s.done = true ∨ s.err = true)) ∧
    (∀ t, exec .endStream s = .next t → State.irq t = s.ie) ∧ State.irq (State.takeIllegal s) = s.ie ∧
    State.irq (writeStatus s 6#32) = false ∧ State.irq (State.start s) = false ∧
    State.irq (writeCtrl s 0#32) = false

/-- A reset while the engine runs is refused; a reset of an idle core gives every piece of core state the reset value the spec
states and leaves data memory (R261; the values are those of R51). -/
def Obligations.ResetOnlyWhenIdle : Prop :=
  ∀ s : State, (s.busy = true → hostTurn .reset s = .refused .resetWhileBusy) ∧
    (s.busy = false → ∃ t : State, hostTurn .reset s = .next t ∧ t.cmdptr = 0#32 ∧ t.ie = false ∧ t.busy = false ∧
      t.done = false ∧ t.err = false ∧ t.errcode = 0#4 ∧ State.irq t = false ∧
      (∀ r : VReg, t.written[r] = false) ∧ t.mem = s.mem ∧ t.platform = s.platform)

/-- The state after reset has the values R51 gives: idle, CMDPTR 0, CTRL, STATUS and IRQ 0, every vector register marked
unwritten. -/
def Obligations.ResetStateValues : Prop :=
  State.reset.cmdptr = 0#32 ∧ readCtrl State.reset = 0#32 ∧ readStatus State.reset = 0#32 ∧
    readCmdptr State.reset = 0#32 ∧ State.irq State.reset = false ∧ ∀ r : VReg, State.reset.written[r] = false

/-- The host can neither write nor read a vector register, its mark or the latch: a host action other than reset leaves them,
and its outcome, with the value a read returns, is the same whatever they hold (R46, R48). -/
def Obligations.HostCannotReachVectorRegisters : Prop :=
  (∀ (op : HostOp) (s t : State), op ≠ .reset → hostTurn op s = .next t →
    t.v = s.v ∧ t.written = s.written ∧ t.latch = s.latch) ∧
  ∀ (op : HostOp) (s : State) (v' : Vector V128 8) (written' : Vector Bool 8) (latch' : List Half), op ≠ .reset →
    (∀ t, hostTurn op s = .next t → hostTurn op { s with v := v', written := written', latch := latch' } =
      .next { t with v := v', written := written', latch := latch' }) ∧
    (∀ f, hostTurn op s = .fault f → hostTurn op { s with v := v', written := written', latch := latch' } = .fault f) ∧
    (∀ r, hostTurn op s = .refused r → hostTurn op { s with v := v', written := written', latch := latch' } = .refused r)

/-- Host accesses to valid data memory. From START until the host reads STATUS with BUSY = 0, a write to a byte the stream has
accessed and a read of a byte it has written are contract violations (R74, R234 item 3). Every other such access completes: a
write stores the low bytes of its value, the lowest at the lowest address (log entry 11), and changes no other byte; a read
returns the bytes it reads. An engine step that reads what the host wrote, or writes what the host touched, while it ran is
a violation too, before the command's own checks (log entry 22) and also when it fetches an illegal word. The record of
accesses is the model's own (log entry 9). -/
def Obligations.SharedBytesAreViolations : Prop :=
  (∀ (s : State) (addr : Word) (w : Width) (x : Word), check s.platform addr.toNat (widthBytes w) = true →
    ((∃ y ∈ s.used, rangesMeet y.addr y.n addr.toNat (widthBytes w) = true) →
      hostTurn (.write addr w x) s = .fault (.contractViolation .hostInterference addr.toNat (widthBytes w))) ∧
    ((∃ y ∈ s.used, y.write = true ∧ rangesMeet y.addr y.n addr.toNat (widthBytes w) = true) →
      hostTurn (.read addr w) s = .fault (.contractViolation .hostInterference addr.toNat (widthBytes w))) ∧
    ((∀ y ∈ s.used, rangesMeet y.addr y.n addr.toNat (widthBytes w) = false) → ∃ m : Mem,
      hostTurn (.write addr w x) s = .next { s with
        mem := m, touched := if s.busy then ⟨true, addr.toNat, widthBytes w⟩ :: s.touched else s.touched } ∧
      (∀ j < widthBytes w, Mem.read m (addr.toNat + j) = x.extractLsb' (8 * j) 8) ∧
      sameOutside s.mem m addr.toNat (widthBytes w)) ∧
    ((∀ y ∈ s.used, y.write = true → rangesMeet y.addr y.n addr.toNat (widthBytes w) = false) → ∃ d : Word,
      hostTurn (.read addr w) s = .next { s with
        hostData := d, touched := if s.busy then ⟨false, addr.toNat, widthBytes w⟩ :: s.touched else s.touched } ∧
      (∀ j < widthBytes w, d.extractLsb' (8 * j) 8 = Mem.read s.mem (addr.toNat + j)) ∧
      d.toNat < 2 ^ (8 * widthBytes w))) ∧
  (∀ (s : State) (ts : List Turn) (i : Instr), engineTurnOf s ts → s.busy = true →
    fetch s.platform s.mem s.cmdptr = .ok (.command i) →
    (∃ x ∈ s.touched, ∃ y ∈ footprint s.cmdptr i, (x.write = true ∨ y.write = true) ∧
      rangesMeet x.addr x.n y.addr y.n = true) →
    ∃ a n, step s = .fault (.contractViolation .hostInterference a n)) ∧
  (∀ (s : State) (ts : List Turn) (w : Word), engineTurnOf s ts → s.busy = true →
    fetch s.platform s.mem s.cmdptr = .ok (.illegal w) →
    (∃ x ∈ s.touched, x.write = true ∧ rangesMeet x.addr x.n s.cmdptr.toNat 4 = true) →
    step s = .fault (.contractViolation .hostInterference s.cmdptr.toNat 4))

/-! ## Every step -/

/-- Every step keeps the invariant: CMDPTR word aligned, a legal combination of the STATUS fields, data memory in its
canonical form and inside the address space. -/
def Obligations.EveryStepKeepsInvariant : Prop :=
  ∀ s t : State, State.Inv s → step s = .next t → State.Inv t

/-- The state after reset meets the invariant. -/
def Obligations.ResetMeetsInvariant : Prop := State.Inv State.reset

/-- A run ends only by END, with DONE = 1 and ERR = 0, or by an illegal first word, with ERR = 1, ERRCODE = 1 and DONE =
0; no host action ends it (R123, R127). -/
def Obligations.RunEndsOnlyByEndOrIllegalWord : Prop :=
  ∀ s t : State, State.Inv s → s.busy = true → step s = .next t → t.busy = false →
    (∀ op ts, s.turns ≠ Turn.host op :: ts) ∧
    ((fetch s.platform s.mem s.cmdptr = .ok (.command .endStream) ∧ t.done = true ∧ t.err = false) ∨
      (∃ w, fetch s.platform s.mem s.cmdptr = .ok (.illegal w) ∧ t.err = true ∧ t.errcode = 1#4 ∧ t.done = false))

/-- A vector register once written stays marked, across END, an illegal stop and START; only a reset by the host clears a
mark (R46, R47). -/
def Obligations.WrittenMarksStay : Prop :=
  ∀ (s t : State) (r : VReg), (∀ ts, s.turns ≠ Turn.host .reset :: ts) → step s = .next t →
    s.written[r] = true → t.written[r] = true
end

