-- ==== Sys2Proof/Laws/Encoding.lean ====
section
/-! SUPPORT. A first word as its five fields, what each row of the opcode map asks of them, and the encoder's words. -/

namespace Sys2Proof

/-- The first word with these fields (R91). -/
def wordOfFields (rsv : BitVec 15) (vs2 vs1 vd : BitVec 3) (op : BitVec 8) : Word := rsv ++ vs2 ++ vs1 ++ vd ++ op

/-- Every word is the word of its fields. -/
theorem word_eq_fields (w : Word) : w = wordOfFields (w.extractLsb' 17 15) (w.extractLsb' 14 3) (w.extractLsb' 11 3)
    (w.extractLsb' 8 3) (w.extractLsb' 0 8) := by
  apply BitVec.eq_of_getLsbD_eq
  intro i hi
  simp only [wordOfFields, BitVec.getLsbD_append, BitVec.getLsbD_extractLsb']
  split
  · next h => simp [h]
  · split
    · next h1 h2 => simp [h2, show 8 + (i - 8) = i by omega]
    · split
      · next h1 h2 h3 => simp [h3, show 11 + (i - 8 - 3) = i by omega]
      · split
        · next h1 h2 h3 h4 => simp [h4, show 14 + (i - 8 - 3 - 3) = i by omega]
        · simp [show i - 8 - 3 - 3 - 3 < 15 by omega, show 17 + (i - 8 - 3 - 3 - 3) = i by omega]

theorem append_inj {a b : Nat} (x x' : BitVec a) (y y' : BitVec b) : x ++ y = x' ++ y' ↔ x = x' ∧ y = y' := by
  constructor
  · intro h
    constructor
    · apply BitVec.eq_of_getLsbD_eq
      intro i hi
      have := congrArg (fun z => z.getLsbD (i + b)) h
      simpa [BitVec.getLsbD_append] using this
    · apply BitVec.eq_of_getLsbD_eq
      intro i hi
      have := congrArg (fun z => z.getLsbD i) h
      simpa [BitVec.getLsbD_append, hi] using this
  · rintro ⟨rfl, rfl⟩; rfl

theorem wordOfFields_inj (r r' : BitVec 15) (c c' b b' a a' : BitVec 3) (o o' : BitVec 8) :
    wordOfFields r c b a o = wordOfFields r' c' b' a' o' ↔ r = r' ∧ c = c' ∧ b = b' ∧ a = a' ∧ o = o' := by
  constructor
  · intro h
    obtain ⟨h, ho⟩ := (append_inj (a := 24) (b := 8) _ _ _ _).mp h
    obtain ⟨h, ha⟩ := (append_inj (a := 21) (b := 3) _ _ _ _).mp h
    obtain ⟨h, hb⟩ := (append_inj (a := 18) (b := 3) _ _ _ _).mp h
    obtain ⟨hr, hc⟩ := (append_inj (a := 15) (b := 3) _ _ _ _).mp h
    exact ⟨hr, hc, hb, ha, ho⟩
  · rintro ⟨rfl, rfl, rfl, rfl, rfl⟩; rfl

/-- Masking a word masks its fields. -/
theorem wordOfFields_and (r r' : BitVec 15) (c c' b b' a a' : BitVec 3) (o o' : BitVec 8) :
    wordOfFields r c b a o &&& wordOfFields r' c' b' a' o' =
      wordOfFields (r &&& r') (c &&& c') (b &&& b') (a &&& a') (o &&& o') := by
  calc wordOfFields r c b a o &&& wordOfFields r' c' b' a' o'
      = ((r ++ c ++ b ++ a : BitVec 24) &&& (r' ++ c' ++ b' ++ a' : BitVec 24)) ++ (o &&& o') :=
        BitVec.and_append (w := 24) (v := 8)
    _ = (((r ++ c ++ b : BitVec 21) &&& (r' ++ c' ++ b' : BitVec 21)) ++ (a &&& a') : BitVec 24) ++ (o &&& o') :=
        congrArg (· ++ (o &&& o')) (BitVec.and_append (w := 21) (v := 3))
    _ = ((((r ++ c : BitVec 18) &&& (r' ++ c' : BitVec 18)) ++ (b &&& b') : BitVec 21) ++ (a &&& a') : BitVec 24)
          ++ (o &&& o') :=
        congrArg (fun x : BitVec 21 => (x ++ (a &&& a') : BitVec 24) ++ (o &&& o')) (BitVec.and_append (w := 18) (v := 3))
    _ = wordOfFields (r &&& r') (c &&& c') (b &&& b') (a &&& a') (o &&& o') :=
        congrArg (fun x : BitVec 18 => ((x ++ (b &&& b') : BitVec 21) ++ (a &&& a') : BitVec 24) ++ (o &&& o'))
          (BitVec.and_append (w := 15) (v := 3))

/-- What a row of the opcode map asks of a word, field by field. -/
theorem selects_iff (row : OpRow) (w : Word) :
    row.selects w = true ↔
      (w.extractLsb' 17 15 &&& row.mask.extractLsb' 17 15) = row.pattern.extractLsb' 17 15 ∧
      (w.extractLsb' 14 3 &&& row.mask.extractLsb' 14 3) = row.pattern.extractLsb' 14 3 ∧
      (w.extractLsb' 11 3 &&& row.mask.extractLsb' 11 3) = row.pattern.extractLsb' 11 3 ∧
      (w.extractLsb' 8 3 &&& row.mask.extractLsb' 8 3) = row.pattern.extractLsb' 8 3 ∧
      (w.extractLsb' 0 8 &&& row.mask.extractLsb' 0 8) = row.pattern.extractLsb' 0 8 := by
  rw [OpRow.selects, beq_iff_eq]
  conv_lhs => rw [word_eq_fields w, word_eq_fields row.mask, word_eq_fields row.pattern]
  rw [wordOfFields_and, wordOfFields_inj]

theorem and_all3 (x : BitVec 3) : x &&& 7#3 = x := by simpa using (BitVec.and_allOnes (x := x))

theorem and_all8 (x : BitVec 8) : x &&& 255#8 = x := by simpa using (BitVec.and_allOnes (x := x))

theorem and_all15 (x : BitVec 15) : x &&& 32767#15 = x := by simpa using (BitVec.and_allOnes (x := x))

/-- A row selects a word exactly when the word is legal and carries the row's opcode (R94, R98). -/
theorem selects_iff_legal (w : Word) (row : OpRow) (h : row ∈ opTable) :
    row.selects w = true ↔ legalFirst w = true ∧ w.extractLsb' 0 8 = row.pattern.extractLsb' 0 8 := by
  rw [selects_iff]
  simp only [opTable, List.mem_cons, List.not_mem_nil, or_false] at h
  generalize h17 : w.extractLsb' 17 15 = rsv
  generalize h14 : w.extractLsb' 14 3 = vs2
  generalize h11 : w.extractLsb' 11 3 = vs1
  generalize h8 : w.extractLsb' 8 3 = vd
  generalize h0 : w.extractLsb' 0 8 = op
  rcases h with rfl | rfl | rfl | rfl | rfl | rfl | rfl | rfl | rfl | rfl | rfl | rfl | rfl <;>
    simp [legalFirst, h17, h14, h11, h8, h0, and_all3, and_all8, and_all15] <;>
    (first
      | (constructor
         · rintro ⟨rfl, rfl, rfl, rfl, rfl⟩; simp [shapeOf]
         · rintro ⟨h, rfl⟩; simp [shapeOf] at h; tauto)
      | (rintro rfl; simp [shapeOf]))

/-- A legal first word has a row of the opcode map with its opcode and its length (R94, R95). -/
theorem legal_row (w : Word) (h : legalFirst w = true) :
    ∃ r ∈ opTable, r.pattern.extractLsb' 0 8 = w.extractLsb' 0 8 ∧ lengthOf w = some r.length := by
  unfold legalFirst at h
  unfold lengthOf
  generalize w.extractLsb' 0 8 = op at *
  by_cases h1 : op = 1#8
  · subst h1
    exact ⟨⟨.endStream, 1, 0x00000001#32, 0xFFFFFFFF#32⟩, by decide, by decide, by decide⟩
  by_cases h1 : op = 2#8
  · subst h1
    exact ⟨⟨.nop, 1, 0x00000002#32, 0xFFFFFFFF#32⟩, by decide, by decide, by decide⟩
  by_cases h1 : op = 0x10#8
  · subst h1
    exact ⟨⟨.vld, 2, 0x00000010#32, 0xFFFFF8FF#32⟩, by decide, by decide, by decide⟩
  by_cases h1 : op = 0x11#8
  · subst h1
    exact ⟨⟨.vst, 2, 0x00000011#32, 0xFFFFC7FF#32⟩, by decide, by decide, by decide⟩
  by_cases h1 : op = 0x20#8
  · subst h1
    exact ⟨⟨.vwiden, 1, 0x00000020#32, 0xFFFFC0FF#32⟩, by decide, by decide, by decide⟩
  by_cases h1 : op = 0x21#8
  · subst h1
    exact ⟨⟨.vnarrow16, 1, 0x00000021#32, 0xFFFE00FF#32⟩, by decide, by decide, by decide⟩
  by_cases h1 : op = 0x22#8
  · subst h1
    exact ⟨⟨.vpack8, 1, 0x00000022#32, 0xFFFE00FF#32⟩, by decide, by decide, by decide⟩
  by_cases h1 : op = 0x23#8
  · subst h1
    exact ⟨⟨.vmullo, 1, 0x00000023#32, 0xFFFE00FF#32⟩, by decide, by decide, by decide⟩
  by_cases h1 : op = 0x30#8
  · subst h1
    exact ⟨⟨.cm4x4, 5, 0x00000030#32, 0xFFFFFFFF#32⟩, by decide, by decide, by decide⟩
  by_cases h1 : op = 0x31#8
  · subst h1
    exact ⟨⟨.cm3x3, 5, 0x00000031#32, 0xFFFFFFFF#32⟩, by decide, by decide, by decide⟩
  by_cases h1 : op = 0x32#8
  · subst h1
    exact ⟨⟨.cmdot, 5, 0x00000032#32, 0xFFFFFFFF#32⟩, by decide, by decide, by decide⟩
  by_cases h1 : op = 0x40#8
  · subst h1
    exact ⟨⟨.conv3x3, 7, 0x00000040#32, 0xFFFFFFFF#32⟩, by decide, by decide, by decide⟩
  by_cases h1 : op = 0x41#8
  · subst h1
    exact ⟨⟨.conv5x5, 9, 0x00000041#32, 0xFFFFFFFF#32⟩, by decide, by decide, by decide⟩
  exfalso
  simp_all [shapeOf]

/-- No two rows of the opcode map share an opcode. -/
theorem opTable_inj : ∀ r ∈ opTable, ∀ r' ∈ opTable,
    r.pattern.extractLsb' 0 8 = r'.pattern.extractLsb' 0 8 → r = r' := by decide

/-- The row of a first word is the one row of the map that selects it. -/
theorem rowOf_some_iff (w : Word) (r : OpRow) : rowOf w = some r ↔ r ∈ opTable ∧ r.selects w = true := by
  unfold rowOf
  constructor
  · intro h; exact ⟨List.mem_of_find?_eq_some h, by simpa using List.find?_some h⟩
  · rintro ⟨hm, hs⟩
    cases h : opTable.find? (fun r => r.selects w) with
    | none => simp [List.find?_eq_none] at h; have := h r hm; simp_all
    | some r' =>
      have h1 := List.mem_of_find?_eq_some h
      have h2 : r'.selects w = true := by simpa using List.find?_some h
      rw [selects_iff_legal w r' h1] at h2
      rw [selects_iff_legal w r hm] at hs
      rw [opTable_inj r' h1 r hm (h2.2.symm.trans hs.2)]

/-- A first word has a row exactly when it is legal (R98). -/
theorem rowOf_isSome (w : Word) : (rowOf w).isSome = legalFirst w := by
  rw [Bool.eq_iff_iff, Option.isSome_iff_exists]
  constructor
  · rintro ⟨r, h⟩
    obtain ⟨hm, hs⟩ := (rowOf_some_iff w r).mp h
    exact ((selects_iff_legal w r hm).mp hs).1
  · intro h
    obtain ⟨r, hr, hp, _⟩ := legal_row w h
    exact ⟨r, (rowOf_some_iff w r).mpr ⟨hr, (selects_iff_legal w r hr).mpr ⟨h, hp.symm⟩⟩⟩

/-- The row of a first word has the length its opcode gives (R95). -/
theorem lengthOf_of_rowOf (w : Word) (r : OpRow) (h : rowOf w = some r) : lengthOf w = some r.length := by
  have h' := (rowOf_some_iff w r).mp h
  have hs := (selects_iff_legal w r h'.1).mp h'.2
  obtain ⟨r', hr', hp, hl⟩ := legal_row w hs.1
  rw [opTable_inj r' hr' r h'.1 (hp.trans hs.2)] at hl
  exact hl

end Sys2Proof
end

