-- ==== Sys2Proof/Laws/Memory.lean ====
section
/-! SUPPORT. Data memory: read after write, the canonical form every operation keeps, and little-endian values. -/

namespace Sys2Proof.Machine

theorem Mem.read_erase_self (m : Mem) (a : Nat) : Mem.read (Mem.erase m a) a = Mem.unlisted := by
  induction m with
  | nil => rfl
  | cons c m ih =>
    by_cases h : c.1 = a
    · simp [Mem.erase, h, ih]
    · simp [Mem.erase, h, Mem.read, ih]

theorem Mem.read_erase_other (m : Mem) (a b : Nat) (hne : b ≠ a) :
    Mem.read (Mem.erase m a) b = Mem.read m b := by
  induction m with
  | nil => rfl
  | cons c m ih =>
    by_cases h : c.1 = a
    · have : a ≠ b := fun e => hne e.symm
      simp [Mem.erase, h, ih, Mem.read, this]
    · simp [Mem.erase, h, Mem.read, ih]

theorem Mem.erase_no_entry (m : Mem) (a : Nat) : ∀ c ∈ Mem.erase m a, c.1 ≠ a := by
  induction m with
  | nil => simp [Mem.erase]
  | cons c m ih =>
    by_cases h : c.1 = a
    · simpa [Mem.erase, h] using ih
    · simp only [Mem.erase, h, if_false, List.mem_cons]
      rintro d (rfl | hd)
      · exact h
      · exact ih d hd

theorem Mem.read_insert_self (m : Mem) (a : Nat) (b : Byte) (h : ∀ c ∈ m, c.1 ≠ a) :
    Mem.read (Mem.insert m a b) a = b := by
  induction m with
  | nil => simp [Mem.insert, Mem.read]
  | cons c m ih =>
    by_cases hlt : a < c.1
    · simp [Mem.insert, hlt, Mem.read]
    · have hc : c.1 ≠ a := h c (by simp)
      simp [Mem.insert, hlt, Mem.read, hc, ih (fun d hd => h d (by simp [hd]))]

theorem Mem.read_insert_other (m : Mem) (a q : Nat) (b : Byte) (hne : q ≠ a) :
    Mem.read (Mem.insert m a b) q = Mem.read m q := by
  have hqa : a ≠ q := fun e => hne e.symm
  induction m with
  | nil => simp [Mem.insert, Mem.read, hqa]
  | cons c m ih =>
    by_cases hlt : a < c.1
    · simp [Mem.insert, hlt, Mem.read, hqa]
    · simp [Mem.insert, hlt, Mem.read, ih]

/-- A byte reads as what was last written to it. -/
@[simp] theorem Mem.read_write_self (m : Mem) (a : Nat) (b : Byte) : Mem.read (Mem.write m a b) a = b := by
  unfold Mem.write
  split
  · next h => rw [Mem.read_erase_self, h]
  · exact Mem.read_insert_self _ _ _ (Mem.erase_no_entry m a)

/-- A write leaves every other byte. -/
theorem Mem.read_write_other (m : Mem) (a q : Nat) (b : Byte) (h : q ≠ a) :
    Mem.read (Mem.write m a b) q = Mem.read m q := by
  unfold Mem.write
  split
  · exact Mem.read_erase_other m a q h
  · rw [Mem.read_insert_other _ _ _ _ h, Mem.read_erase_other m a q h]

theorem Mem.read_write (m : Mem) (a q : Nat) (b : Byte) :
    Mem.read (Mem.write m a b) q = if q = a then b else Mem.read m q := by
  by_cases h : q = a
  · simp [h]
  · simp [h, Mem.read_write_other m a q b h]

theorem Mem.mem_erase (m : Mem) (a : Nat) (c : Host.Cell) (h : c ∈ Mem.erase m a) : c ∈ m := by
  induction m with
  | nil => simp [Mem.erase] at h
  | cons d m ih =>
    by_cases hd : d.1 = a
    · simp only [Mem.erase, hd, if_true] at h
      exact List.mem_cons_of_mem _ (ih h)
    · simp only [Mem.erase, hd, if_false, List.mem_cons] at h
      rcases h with rfl | h
      · simp
      · exact List.mem_cons_of_mem _ (ih h)

theorem Mem.mem_insert (m : Mem) (a : Nat) (b : Byte) (c : Host.Cell) (h : c ∈ Mem.insert m a b) :
    c = (a, b) ∨ c ∈ m := by
  induction m with
  | nil => simpa [Mem.insert] using h
  | cons d m ih =>
    by_cases hd : a < d.1
    · simpa [Mem.insert, hd] using h
    · simp only [Mem.insert, hd, if_false, List.mem_cons] at h
      rcases h with rfl | h
      · simp
      · rcases ih h with h | h
        · exact .inl h
        · exact .inr (List.mem_cons_of_mem _ h)

theorem Mem.wf_cons (c : Host.Cell) (m : Mem) :
    Mem.wf (c :: m) = true ↔ c.2 ≠ Mem.unlisted ∧ (∀ d ∈ m, c.1 < d.1) ∧ Mem.wf m = true := by
  simp [Mem.wf, and_assoc]

theorem Mem.wf_erase (m : Mem) (a : Nat) (h : Mem.wf m = true) : Mem.wf (Mem.erase m a) = true := by
  induction m with
  | nil => rfl
  | cons c m ih =>
    obtain ⟨h1, h2, h3⟩ := (Mem.wf_cons c m).mp h
    by_cases hc : c.1 = a
    · simpa [Mem.erase, hc] using ih h3
    · simp only [Mem.erase, hc, if_false]
      exact (Mem.wf_cons _ _).mpr ⟨h1, fun d hd => h2 d (Mem.mem_erase m a d hd), ih h3⟩

theorem Mem.wf_insert (m : Mem) (a : Nat) (b : Byte) (hb : b ≠ Mem.unlisted) (hm : ∀ c ∈ m, c.1 ≠ a)
    (h : Mem.wf m = true) : Mem.wf (Mem.insert m a b) = true := by
  induction m with
  | nil => simp [Mem.insert, Mem.wf, hb]
  | cons c m ih =>
    obtain ⟨h1, h2, h3⟩ := (Mem.wf_cons c m).mp h
    by_cases hlt : a < c.1
    · simp only [Mem.insert, hlt, if_true]
      refine (Mem.wf_cons _ _).mpr ⟨hb, ?_, h⟩
      rintro d hd
      rcases List.mem_cons.mp hd with rfl | hd
      · exact hlt
      · exact lt_trans hlt (h2 d hd)
    · simp only [Mem.insert, hlt, if_false]
      refine (Mem.wf_cons _ _).mpr ⟨h1, ?_, ih (fun d hd => hm d (by simp [hd])) h3⟩
      intro d hd
      rcases Mem.mem_insert m a b d hd with rfl | hd
      · have := hm c (by simp)
        simp only
        omega
      · exact h2 d hd

/-- A byte write keeps the canonical form. -/
theorem Mem.wf_write (m : Mem) (a : Nat) (b : Byte) (h : Mem.wf m = true) : Mem.wf (Mem.write m a b) = true := by
  unfold Mem.write
  split
  · exact Mem.wf_erase m a h
  · next hb => exact Mem.wf_insert _ _ _ hb (Mem.erase_no_entry m a) (Mem.wf_erase m a h)

/-- A byte write inside the address space lists no address outside it. -/
theorem Mem.inSpace_write (m : Mem) (a : Nat) (b : Byte) (ha : a < 2 ^ 32) (h : Mem.inSpace m = true) :
    Mem.inSpace (Mem.write m a b) = true := by
  simp only [Mem.inSpace, List.all_eq_true, decide_eq_true_eq] at h ⊢
  intro c hc
  unfold Mem.write at hc
  split at hc
  · exact h c (Mem.mem_erase m a c hc)
  · rcases Mem.mem_insert _ _ _ _ hc with rfl | hc
    · exact ha
    · exact h c (Mem.mem_erase m a c hc)

theorem Mem.wf_writeLE (n : Nat) : ∀ (m : Mem) (a x : Nat), Mem.wf m = true → Mem.wf (Mem.writeLE m a n x) = true := by
  induction n with
  | zero => intro m a x h; exact h
  | succ n ih => intro m a x h; exact ih _ _ _ (Mem.wf_write _ _ _ h)

theorem Mem.inSpace_writeLE (n : Nat) : ∀ (m : Mem) (a x : Nat), a + n ≤ 2 ^ 32 → Mem.inSpace m = true →
    Mem.inSpace (Mem.writeLE m a n x) = true := by
  induction n with
  | zero => intro m a x _ h; exact h
  | succ n ih => intro m a x ha h; exact ih _ _ _ (by omega) (Mem.inSpace_write _ _ _ (by omega) h)

/-- A multi-byte write leaves every byte outside it. -/
theorem Mem.read_writeLE_outside (n : Nat) : ∀ (m : Mem) (a x q : Nat), q < a ∨ a + n ≤ q →
    Mem.read (Mem.writeLE m a n x) q = Mem.read m q := by
  induction n with
  | zero => intro m a x q _; rfl
  | succ n ih =>
    intro m a x q h
    rw [Mem.writeLE, ih _ _ _ _ (by omega), Mem.read_write_other _ _ _ _ (by omega)]

/-- Byte j of a multi-byte write is byte j of the value (R63). -/
theorem Mem.read_writeLE_inside (n : Nat) : ∀ (m : Mem) (a x j : Nat), j < n →
    Mem.read (Mem.writeLE m a n x) (a + j) = BitVec.ofNat 8 (x / 256 ^ j) := by
  induction n with
  | zero => intro m a x j h; omega
  | succ n ih =>
    intro m a x j h
    cases j with
    | zero => rw [Mem.writeLE, Nat.add_zero, Mem.read_writeLE_outside _ _ _ _ _ (by omega)]; simp
    | succ j =>
      rw [Mem.writeLE, show a + (j + 1) = a + 1 + j by omega, ih _ _ _ _ (by omega), Nat.div_div_eq_div_mul,
        Nat.pow_succ, Nat.mul_comm]

/-- A little-endian value is below 256 ^ n. -/
theorem Mem.readLE_lt (m : Mem) (n : Nat) : ∀ a, Mem.readLE m a n < 256 ^ n := by
  induction n with
  | zero => intro a; simp [Mem.readLE]
  | succ n ih =>
    intro a
    have h1 := ih (a + 1)
    have h2 := (Mem.read m a).isLt
    simp only [Mem.readLE, Nat.pow_succ]
    omega

/-- A little-endian value depends only on its bytes. -/
theorem Mem.readLE_congr (m m' : Mem) (n : Nat) : ∀ a, (∀ j < n, Mem.read m (a + j) = Mem.read m' (a + j)) →
    Mem.readLE m a n = Mem.readLE m' a n := by
  induction n with
  | zero => intro a _; rfl
  | succ n ih =>
    intro a h
    have h0 := h 0 (by omega)
    simp only [Nat.add_zero] at h0
    rw [Mem.readLE, Mem.readLE, h0, ih (a + 1) (fun j hj => by
      have := h (j + 1) (by omega)
      rwa [show a + 1 + j = a + (j + 1) by omega])]

/-- Byte j of a little-endian value is the byte at a + j (R63, R64). -/
theorem Mem.readLE_byte (m : Mem) (n : Nat) : ∀ a j, j < n →
    BitVec.ofNat 8 (Mem.readLE m a n / 256 ^ j) = Mem.read m (a + j) := by
  induction n with
  | zero => intro a j h; omega
  | succ n ih =>
    intro a j h
    have hb := (Mem.read m a).isLt
    cases j with
    | zero =>
      apply BitVec.eq_of_toNat_eq
      simp only [Mem.readLE, Nat.pow_zero, Nat.div_one, BitVec.toNat_ofNat, Nat.add_zero]
      omega
    | succ j =>
      rw [Mem.readLE, Nat.pow_succ, Nat.mul_comm (256 ^ j), ← Nat.div_div_eq_div_mul,
        show ((Mem.read m a).toNat + 256 * Mem.readLE m (a + 1) n) / 256 = Mem.readLE m (a + 1) n by omega,
        ih (a + 1) j (by omega), show a + 1 + j = a + (j + 1) by omega]

/-- Reading back a multi-byte write gives its low bytes. -/
theorem Mem.readLE_writeLE (n : Nat) : ∀ (m : Mem) (a x : Nat),
    Mem.readLE (Mem.writeLE m a n x) a n = x % 256 ^ n := by
  induction n with
  | zero => intro m a x; simp [Mem.readLE, Nat.mod_one]
  | succ n ih =>
    intro m a x
    rw [Mem.readLE, Mem.writeLE, Mem.read_writeLE_outside _ _ _ _ _ (by omega), Mem.read_write_self, ih,
      BitVec.toNat_ofNat, show 256 ^ (n + 1) = 256 * 256 ^ n by rw [Nat.pow_succ, Nat.mul_comm], Nat.mod_mul]

/-- Placing a command's bytes keeps the canonical form. -/
theorem wf_placeBytes (a : Word) (bs : List Byte) : ∀ (k : Nat) (m : Mem), Mem.wf m = true →
    Mem.wf (placeBytes a bs k m) = true := by
  induction bs with
  | nil => intro k m h; exact h
  | cons b bs ih => intro k m h; exact ih _ _ (Mem.wf_write _ _ _ h)

theorem inSpace_placeBytes (a : Word) (bs : List Byte) : ∀ (k : Nat) (m : Mem), Mem.inSpace m = true →
    Mem.inSpace (placeBytes a bs k m) = true := by
  induction bs with
  | nil => intro k m h; exact h
  | cons b bs ih => intro k m h; exact ih _ _ (Mem.inSpace_write _ _ _ (BitVec.isLt _) h)

end Sys2Proof.Machine
end

