-- ==== Sys2Proof/Laws/State.lean ====
section
/-! SUPPORT. What each named update does to each field of State, one lemma a field, and the written marks. -/

namespace Sys2Proof.Machine

@[simp] theorem State.setV_cmdptr (s : State) (r : VReg) (x : V128) : (State.setV s r x).cmdptr = s.cmdptr := rfl
@[simp] theorem State.setV_ie (s : State) (r : VReg) (x : V128) : (State.setV s r x).ie = s.ie := rfl
@[simp] theorem State.setV_busy (s : State) (r : VReg) (x : V128) : (State.setV s r x).busy = s.busy := rfl
@[simp] theorem State.setV_done (s : State) (r : VReg) (x : V128) : (State.setV s r x).done = s.done := rfl
@[simp] theorem State.setV_err (s : State) (r : VReg) (x : V128) : (State.setV s r x).err = s.err := rfl
@[simp] theorem State.setV_errcode (s : State) (r : VReg) (x : V128) : (State.setV s r x).errcode = s.errcode := rfl
@[simp] theorem State.setV_v (s : State) (r : VReg) (x : V128) : (State.setV s r x).v = s.v.set r x := rfl
@[simp] theorem State.setV_written (s : State) (r : VReg) (x : V128) : (State.setV s r x).written = s.written.set r true := rfl
@[simp] theorem State.setV_latch (s : State) (r : VReg) (x : V128) : (State.setV s r x).latch = s.latch := rfl
@[simp] theorem State.setV_mem (s : State) (r : VReg) (x : V128) : (State.setV s r x).mem = s.mem := rfl
@[simp] theorem State.setV_platform (s : State) (r : VReg) (x : V128) : (State.setV s r x).platform = s.platform := rfl
@[simp] theorem State.setV_turns (s : State) (r : VReg) (x : V128) : (State.setV s r x).turns = s.turns := rfl
@[simp] theorem State.setV_hostData (s : State) (r : VReg) (x : V128) : (State.setV s r x).hostData = s.hostData := rfl
@[simp] theorem State.setV_used (s : State) (r : VReg) (x : V128) : (State.setV s r x).used = s.used := rfl
@[simp] theorem State.setV_touched (s : State) (r : VReg) (x : V128) : (State.setV s r x).touched = s.touched := rfl
@[simp] theorem State.setV_draws (s : State) (r : VReg) (x : V128) : (State.setV s r x).draws = s.draws := rfl

@[simp] theorem State.advance_cmdptr (s : State) (l : Nat) : (State.advance s l).cmdptr = s.cmdptr + BitVec.ofNat 32 (4 * l) := rfl
@[simp] theorem State.advance_ie (s : State) (l : Nat) : (State.advance s l).ie = s.ie := rfl
@[simp] theorem State.advance_busy (s : State) (l : Nat) : (State.advance s l).busy = s.busy := rfl
@[simp] theorem State.advance_done (s : State) (l : Nat) : (State.advance s l).done = s.done := rfl
@[simp] theorem State.advance_err (s : State) (l : Nat) : (State.advance s l).err = s.err := rfl
@[simp] theorem State.advance_errcode (s : State) (l : Nat) : (State.advance s l).errcode = s.errcode := rfl
@[simp] theorem State.advance_v (s : State) (l : Nat) : (State.advance s l).v = s.v := rfl
@[simp] theorem State.advance_written (s : State) (l : Nat) : (State.advance s l).written = s.written := rfl
@[simp] theorem State.advance_latch (s : State) (l : Nat) : (State.advance s l).latch = s.latch := rfl
@[simp] theorem State.advance_mem (s : State) (l : Nat) : (State.advance s l).mem = s.mem := rfl
@[simp] theorem State.advance_platform (s : State) (l : Nat) : (State.advance s l).platform = s.platform := rfl
@[simp] theorem State.advance_turns (s : State) (l : Nat) : (State.advance s l).turns = s.turns := rfl
@[simp] theorem State.advance_hostData (s : State) (l : Nat) : (State.advance s l).hostData = s.hostData := rfl
@[simp] theorem State.advance_used (s : State) (l : Nat) : (State.advance s l).used = s.used := rfl
@[simp] theorem State.advance_touched (s : State) (l : Nat) : (State.advance s l).touched = s.touched := rfl
@[simp] theorem State.advance_draws (s : State) (l : Nat) : (State.advance s l).draws = s.draws := rfl

@[simp] theorem State.takeIllegal_cmdptr (s : State) : (State.takeIllegal s).cmdptr = s.cmdptr := rfl
@[simp] theorem State.takeIllegal_ie (s : State) : (State.takeIllegal s).ie = s.ie := rfl
@[simp] theorem State.takeIllegal_busy (s : State) : (State.takeIllegal s).busy = false := rfl
@[simp] theorem State.takeIllegal_done (s : State) : (State.takeIllegal s).done = s.done := rfl
@[simp] theorem State.takeIllegal_err (s : State) : (State.takeIllegal s).err = true := rfl
@[simp] theorem State.takeIllegal_errcode (s : State) : (State.takeIllegal s).errcode = 1#4 := rfl
@[simp] theorem State.takeIllegal_v (s : State) : (State.takeIllegal s).v = s.v := rfl
@[simp] theorem State.takeIllegal_written (s : State) : (State.takeIllegal s).written = s.written := rfl
@[simp] theorem State.takeIllegal_latch (s : State) : (State.takeIllegal s).latch = s.latch := rfl
@[simp] theorem State.takeIllegal_mem (s : State) : (State.takeIllegal s).mem = s.mem := rfl
@[simp] theorem State.takeIllegal_platform (s : State) : (State.takeIllegal s).platform = s.platform := rfl
@[simp] theorem State.takeIllegal_turns (s : State) : (State.takeIllegal s).turns = s.turns := rfl
@[simp] theorem State.takeIllegal_hostData (s : State) : (State.takeIllegal s).hostData = s.hostData := rfl
@[simp] theorem State.takeIllegal_used (s : State) : (State.takeIllegal s).used = s.used := rfl
@[simp] theorem State.takeIllegal_touched (s : State) : (State.takeIllegal s).touched = s.touched := rfl
@[simp] theorem State.takeIllegal_draws (s : State) : (State.takeIllegal s).draws = s.draws := rfl

@[simp] theorem State.endRun_cmdptr (s : State) : (State.endRun s).cmdptr = s.cmdptr := rfl
@[simp] theorem State.endRun_ie (s : State) : (State.endRun s).ie = s.ie := rfl
@[simp] theorem State.endRun_busy (s : State) : (State.endRun s).busy = false := rfl
@[simp] theorem State.endRun_done (s : State) : (State.endRun s).done = true := rfl
@[simp] theorem State.endRun_err (s : State) : (State.endRun s).err = s.err := rfl
@[simp] theorem State.endRun_errcode (s : State) : (State.endRun s).errcode = s.errcode := rfl
@[simp] theorem State.endRun_v (s : State) : (State.endRun s).v = s.v := rfl
@[simp] theorem State.endRun_written (s : State) : (State.endRun s).written = s.written := rfl
@[simp] theorem State.endRun_latch (s : State) : (State.endRun s).latch = s.latch := rfl
@[simp] theorem State.endRun_mem (s : State) : (State.endRun s).mem = s.mem := rfl
@[simp] theorem State.endRun_platform (s : State) : (State.endRun s).platform = s.platform := rfl
@[simp] theorem State.endRun_turns (s : State) : (State.endRun s).turns = s.turns := rfl
@[simp] theorem State.endRun_hostData (s : State) : (State.endRun s).hostData = s.hostData := rfl
@[simp] theorem State.endRun_used (s : State) : (State.endRun s).used = s.used := rfl
@[simp] theorem State.endRun_touched (s : State) : (State.endRun s).touched = s.touched := rfl
@[simp] theorem State.endRun_draws (s : State) : (State.endRun s).draws = s.draws := rfl

@[simp] theorem State.start_cmdptr (s : State) : (State.start s).cmdptr = s.cmdptr := rfl
@[simp] theorem State.start_ie (s : State) : (State.start s).ie = s.ie := rfl
@[simp] theorem State.start_busy (s : State) : (State.start s).busy = true := rfl
@[simp] theorem State.start_done (s : State) : (State.start s).done = false := rfl
@[simp] theorem State.start_err (s : State) : (State.start s).err = false := rfl
@[simp] theorem State.start_errcode (s : State) : (State.start s).errcode = 0#4 := rfl
@[simp] theorem State.start_v (s : State) : (State.start s).v = s.v := rfl
@[simp] theorem State.start_written (s : State) : (State.start s).written = s.written := rfl
@[simp] theorem State.start_latch (s : State) : (State.start s).latch = s.latch := rfl
@[simp] theorem State.start_mem (s : State) : (State.start s).mem = s.mem := rfl
@[simp] theorem State.start_platform (s : State) : (State.start s).platform = s.platform := rfl
@[simp] theorem State.start_turns (s : State) : (State.start s).turns = s.turns := rfl
@[simp] theorem State.start_hostData (s : State) : (State.start s).hostData = s.hostData := rfl
@[simp] theorem State.start_used (s : State) : (State.start s).used = s.used := rfl
@[simp] theorem State.start_touched (s : State) : (State.start s).touched = [] := rfl
@[simp] theorem State.start_draws (s : State) : (State.start s).draws = s.draws := rfl

@[simp] theorem State.note_cmdptr (s : State) (accs : List Access) : (State.note s accs).cmdptr = s.cmdptr := rfl
@[simp] theorem State.note_ie (s : State) (accs : List Access) : (State.note s accs).ie = s.ie := rfl
@[simp] theorem State.note_busy (s : State) (accs : List Access) : (State.note s accs).busy = s.busy := rfl
@[simp] theorem State.note_done (s : State) (accs : List Access) : (State.note s accs).done = s.done := rfl
@[simp] theorem State.note_err (s : State) (accs : List Access) : (State.note s accs).err = s.err := rfl
@[simp] theorem State.note_errcode (s : State) (accs : List Access) : (State.note s accs).errcode = s.errcode := rfl
@[simp] theorem State.note_v (s : State) (accs : List Access) : (State.note s accs).v = s.v := rfl
@[simp] theorem State.note_written (s : State) (accs : List Access) : (State.note s accs).written = s.written := rfl
@[simp] theorem State.note_latch (s : State) (accs : List Access) : (State.note s accs).latch = s.latch := rfl
@[simp] theorem State.note_mem (s : State) (accs : List Access) : (State.note s accs).mem = s.mem := rfl
@[simp] theorem State.note_platform (s : State) (accs : List Access) : (State.note s accs).platform = s.platform := rfl
@[simp] theorem State.note_turns (s : State) (accs : List Access) : (State.note s accs).turns = s.turns := rfl
@[simp] theorem State.note_hostData (s : State) (accs : List Access) : (State.note s accs).hostData = s.hostData := rfl
@[simp] theorem State.note_used (s : State) (accs : List Access) : (State.note s accs).used = accs ++ s.used := rfl
@[simp] theorem State.note_touched (s : State) (accs : List Access) : (State.note s accs).touched = s.touched := rfl
@[simp] theorem State.note_draws (s : State) (accs : List Access) : (State.note s accs).draws = s.draws := rfl

@[simp] theorem State.placeCommand_cmdptr (s : State) (bs : List Byte) : (State.placeCommand s bs).cmdptr = s.cmdptr := rfl
@[simp] theorem State.placeCommand_ie (s : State) (bs : List Byte) : (State.placeCommand s bs).ie = s.ie := rfl
@[simp] theorem State.placeCommand_busy (s : State) (bs : List Byte) : (State.placeCommand s bs).busy = true := rfl
@[simp] theorem State.placeCommand_done (s : State) (bs : List Byte) : (State.placeCommand s bs).done = false := rfl
@[simp] theorem State.placeCommand_err (s : State) (bs : List Byte) : (State.placeCommand s bs).err = false := rfl
@[simp] theorem State.placeCommand_errcode (s : State) (bs : List Byte) : (State.placeCommand s bs).errcode = 0#4 := rfl
@[simp] theorem State.placeCommand_v (s : State) (bs : List Byte) : (State.placeCommand s bs).v = s.v := rfl
@[simp] theorem State.placeCommand_written (s : State) (bs : List Byte) : (State.placeCommand s bs).written = s.written := rfl
@[simp] theorem State.placeCommand_latch (s : State) (bs : List Byte) : (State.placeCommand s bs).latch = s.latch := rfl
@[simp] theorem State.placeCommand_mem (s : State) (bs : List Byte) : (State.placeCommand s bs).mem = placeBytes s.cmdptr bs 0 s.mem := rfl
@[simp] theorem State.placeCommand_platform (s : State) (bs : List Byte) : (State.placeCommand s bs).platform = s.platform := rfl
@[simp] theorem State.placeCommand_turns (s : State) (bs : List Byte) : (State.placeCommand s bs).turns = [] := rfl
@[simp] theorem State.placeCommand_hostData (s : State) (bs : List Byte) : (State.placeCommand s bs).hostData = s.hostData := rfl
@[simp] theorem State.placeCommand_used (s : State) (bs : List Byte) : (State.placeCommand s bs).used = s.used := rfl
@[simp] theorem State.placeCommand_touched (s : State) (bs : List Byte) : (State.placeCommand s bs).touched = [] := rfl
@[simp] theorem State.placeCommand_draws (s : State) (bs : List Byte) : (State.placeCommand s bs).draws = s.draws := rfl

@[simp] theorem State.hostReset_cmdptr (s : State) : (State.hostReset s).cmdptr = 0#32 := rfl
@[simp] theorem State.hostReset_ie (s : State) : (State.hostReset s).ie = false := rfl
@[simp] theorem State.hostReset_busy (s : State) : (State.hostReset s).busy = false := rfl
@[simp] theorem State.hostReset_done (s : State) : (State.hostReset s).done = false := rfl
@[simp] theorem State.hostReset_err (s : State) : (State.hostReset s).err = false := rfl
@[simp] theorem State.hostReset_errcode (s : State) : (State.hostReset s).errcode = 0#4 := rfl
@[simp] theorem State.hostReset_v (s : State) : (State.hostReset s).v = Vector.replicate 8 0#128 := rfl
@[simp] theorem State.hostReset_written (s : State) : (State.hostReset s).written = Vector.replicate 8 false := rfl
@[simp] theorem State.hostReset_latch (s : State) : (State.hostReset s).latch = [] := rfl
@[simp] theorem State.hostReset_mem (s : State) : (State.hostReset s).mem = s.mem := rfl
@[simp] theorem State.hostReset_platform (s : State) : (State.hostReset s).platform = s.platform := rfl
@[simp] theorem State.hostReset_turns (s : State) : (State.hostReset s).turns = s.turns := rfl
@[simp] theorem State.hostReset_hostData (s : State) : (State.hostReset s).hostData = s.hostData := rfl
@[simp] theorem State.hostReset_used (s : State) : (State.hostReset s).used = s.used := rfl
@[simp] theorem State.hostReset_touched (s : State) : (State.hostReset s).touched = s.touched := rfl
@[simp] theorem State.hostReset_draws (s : State) : (State.hostReset s).draws = s.draws := rfl

@[simp] theorem writeStatus_cmdptr (s : State) (x : Word) : (writeStatus s x).cmdptr = s.cmdptr := rfl
@[simp] theorem writeStatus_ie (s : State) (x : Word) : (writeStatus s x).ie = s.ie := rfl
@[simp] theorem writeStatus_busy (s : State) (x : Word) : (writeStatus s x).busy = s.busy := rfl
@[simp] theorem writeStatus_done (s : State) (x : Word) : (writeStatus s x).done = (s.done && !x.getLsbD 1) := rfl
@[simp] theorem writeStatus_err (s : State) (x : Word) : (writeStatus s x).err = (s.err && !x.getLsbD 2) := rfl
@[simp] theorem writeStatus_errcode (s : State) (x : Word) : (writeStatus s x).errcode = if x.getLsbD 2 then 0#4 else s.errcode := rfl
@[simp] theorem writeStatus_v (s : State) (x : Word) : (writeStatus s x).v = s.v := rfl
@[simp] theorem writeStatus_written (s : State) (x : Word) : (writeStatus s x).written = s.written := rfl
@[simp] theorem writeStatus_latch (s : State) (x : Word) : (writeStatus s x).latch = s.latch := rfl
@[simp] theorem writeStatus_mem (s : State) (x : Word) : (writeStatus s x).mem = s.mem := rfl
@[simp] theorem writeStatus_platform (s : State) (x : Word) : (writeStatus s x).platform = s.platform := rfl
@[simp] theorem writeStatus_turns (s : State) (x : Word) : (writeStatus s x).turns = s.turns := rfl
@[simp] theorem writeStatus_hostData (s : State) (x : Word) : (writeStatus s x).hostData = s.hostData := rfl
@[simp] theorem writeStatus_used (s : State) (x : Word) : (writeStatus s x).used = s.used := rfl
@[simp] theorem writeStatus_touched (s : State) (x : Word) : (writeStatus s x).touched = s.touched := rfl
@[simp] theorem writeStatus_draws (s : State) (x : Word) : (writeStatus s x).draws = s.draws := rfl

@[simp] theorem writeCtrl_cmdptr (s : State) (x : Word) : (writeCtrl s x).cmdptr = s.cmdptr := by
  unfold writeCtrl; split <;> rfl
@[simp] theorem writeCtrl_v (s : State) (x : Word) : (writeCtrl s x).v = s.v := by
  unfold writeCtrl; split <;> rfl
@[simp] theorem writeCtrl_written (s : State) (x : Word) : (writeCtrl s x).written = s.written := by
  unfold writeCtrl; split <;> rfl
@[simp] theorem writeCtrl_latch (s : State) (x : Word) : (writeCtrl s x).latch = s.latch := by
  unfold writeCtrl; split <;> rfl
@[simp] theorem writeCtrl_mem (s : State) (x : Word) : (writeCtrl s x).mem = s.mem := by
  unfold writeCtrl; split <;> rfl
@[simp] theorem writeCtrl_platform (s : State) (x : Word) : (writeCtrl s x).platform = s.platform := by
  unfold writeCtrl; split <;> rfl
@[simp] theorem writeCtrl_turns (s : State) (x : Word) : (writeCtrl s x).turns = s.turns := by
  unfold writeCtrl; split <;> rfl
@[simp] theorem writeCtrl_hostData (s : State) (x : Word) : (writeCtrl s x).hostData = s.hostData := by
  unfold writeCtrl; split <;> rfl
@[simp] theorem writeCtrl_used (s : State) (x : Word) : (writeCtrl s x).used = s.used := by
  unfold writeCtrl; split <;> rfl
@[simp] theorem writeCtrl_draws (s : State) (x : Word) : (writeCtrl s x).draws = s.draws := by
  unfold writeCtrl; split <;> rfl

@[simp] theorem writeCmdptr_ie (s : State) (x : Word) : (writeCmdptr s x).ie = s.ie := by
  unfold writeCmdptr; split <;> rfl
@[simp] theorem writeCmdptr_busy (s : State) (x : Word) : (writeCmdptr s x).busy = s.busy := by
  unfold writeCmdptr; split <;> rfl
@[simp] theorem writeCmdptr_done (s : State) (x : Word) : (writeCmdptr s x).done = s.done := by
  unfold writeCmdptr; split <;> rfl
@[simp] theorem writeCmdptr_err (s : State) (x : Word) : (writeCmdptr s x).err = s.err := by
  unfold writeCmdptr; split <;> rfl
@[simp] theorem writeCmdptr_errcode (s : State) (x : Word) : (writeCmdptr s x).errcode = s.errcode := by
  unfold writeCmdptr; split <;> rfl
@[simp] theorem writeCmdptr_v (s : State) (x : Word) : (writeCmdptr s x).v = s.v := by
  unfold writeCmdptr; split <;> rfl
@[simp] theorem writeCmdptr_written (s : State) (x : Word) : (writeCmdptr s x).written = s.written := by
  unfold writeCmdptr; split <;> rfl
@[simp] theorem writeCmdptr_latch (s : State) (x : Word) : (writeCmdptr s x).latch = s.latch := by
  unfold writeCmdptr; split <;> rfl
@[simp] theorem writeCmdptr_mem (s : State) (x : Word) : (writeCmdptr s x).mem = s.mem := by
  unfold writeCmdptr; split <;> rfl
@[simp] theorem writeCmdptr_platform (s : State) (x : Word) : (writeCmdptr s x).platform = s.platform := by
  unfold writeCmdptr; split <;> rfl
@[simp] theorem writeCmdptr_turns (s : State) (x : Word) : (writeCmdptr s x).turns = s.turns := by
  unfold writeCmdptr; split <;> rfl
@[simp] theorem writeCmdptr_hostData (s : State) (x : Word) : (writeCmdptr s x).hostData = s.hostData := by
  unfold writeCmdptr; split <;> rfl
@[simp] theorem writeCmdptr_used (s : State) (x : Word) : (writeCmdptr s x).used = s.used := by
  unfold writeCmdptr; split <;> rfl
@[simp] theorem writeCmdptr_touched (s : State) (x : Word) : (writeCmdptr s x).touched = s.touched := by
  unfold writeCmdptr; split <;> rfl
@[simp] theorem writeCmdptr_draws (s : State) (x : Word) : (writeCmdptr s x).draws = s.draws := by
  unfold writeCmdptr; split <;> rfl

@[simp] theorem acknowledge_cmdptr (s : State) : (acknowledge s).cmdptr = s.cmdptr := by
  unfold acknowledge; split <;> rfl
@[simp] theorem acknowledge_ie (s : State) : (acknowledge s).ie = s.ie := by
  unfold acknowledge; split <;> rfl
@[simp] theorem acknowledge_busy (s : State) : (acknowledge s).busy = s.busy := by
  unfold acknowledge; split <;> rfl
@[simp] theorem acknowledge_done (s : State) : (acknowledge s).done = s.done := by
  unfold acknowledge; split <;> rfl
@[simp] theorem acknowledge_err (s : State) : (acknowledge s).err = s.err := by
  unfold acknowledge; split <;> rfl
@[simp] theorem acknowledge_errcode (s : State) : (acknowledge s).errcode = s.errcode := by
  unfold acknowledge; split <;> rfl
@[simp] theorem acknowledge_v (s : State) : (acknowledge s).v = s.v := by
  unfold acknowledge; split <;> rfl
@[simp] theorem acknowledge_written (s : State) : (acknowledge s).written = s.written := by
  unfold acknowledge; split <;> rfl
@[simp] theorem acknowledge_latch (s : State) : (acknowledge s).latch = s.latch := by
  unfold acknowledge; split <;> rfl
@[simp] theorem acknowledge_mem (s : State) : (acknowledge s).mem = s.mem := by
  unfold acknowledge; split <;> rfl
@[simp] theorem acknowledge_platform (s : State) : (acknowledge s).platform = s.platform := by
  unfold acknowledge; split <;> rfl
@[simp] theorem acknowledge_turns (s : State) : (acknowledge s).turns = s.turns := by
  unfold acknowledge; split <;> rfl
@[simp] theorem acknowledge_hostData (s : State) : (acknowledge s).hostData = s.hostData := by
  unfold acknowledge; split <;> rfl
@[simp] theorem acknowledge_touched (s : State) : (acknowledge s).touched = s.touched := by
  unfold acknowledge; split <;> rfl
@[simp] theorem acknowledge_draws (s : State) : (acknowledge s).draws = s.draws := by
  unfold acknowledge; split <;> rfl

@[simp] theorem hostRegRead_cmdptr (s : State) (r : WindowReg) : (hostRegRead s r).cmdptr = s.cmdptr := by
  cases r <;> simp [hostRegRead]
@[simp] theorem hostRegRead_ie (s : State) (r : WindowReg) : (hostRegRead s r).ie = s.ie := by
  cases r <;> simp [hostRegRead]
@[simp] theorem hostRegRead_busy (s : State) (r : WindowReg) : (hostRegRead s r).busy = s.busy := by
  cases r <;> simp [hostRegRead]
@[simp] theorem hostRegRead_done (s : State) (r : WindowReg) : (hostRegRead s r).done = s.done := by
  cases r <;> simp [hostRegRead]
@[simp] theorem hostRegRead_err (s : State) (r : WindowReg) : (hostRegRead s r).err = s.err := by
  cases r <;> simp [hostRegRead]
@[simp] theorem hostRegRead_errcode (s : State) (r : WindowReg) : (hostRegRead s r).errcode = s.errcode := by
  cases r <;> simp [hostRegRead]
@[simp] theorem hostRegRead_v (s : State) (r : WindowReg) : (hostRegRead s r).v = s.v := by
  cases r <;> simp [hostRegRead]
@[simp] theorem hostRegRead_written (s : State) (r : WindowReg) : (hostRegRead s r).written = s.written := by
  cases r <;> simp [hostRegRead]
@[simp] theorem hostRegRead_latch (s : State) (r : WindowReg) : (hostRegRead s r).latch = s.latch := by
  cases r <;> simp [hostRegRead]
@[simp] theorem hostRegRead_mem (s : State) (r : WindowReg) : (hostRegRead s r).mem = s.mem := by
  cases r <;> simp [hostRegRead]
@[simp] theorem hostRegRead_platform (s : State) (r : WindowReg) : (hostRegRead s r).platform = s.platform := by
  cases r <;> simp [hostRegRead]
@[simp] theorem hostRegRead_turns (s : State) (r : WindowReg) : (hostRegRead s r).turns = s.turns := by
  cases r <;> simp [hostRegRead]
@[simp] theorem hostRegRead_touched (s : State) (r : WindowReg) : (hostRegRead s r).touched = s.touched := by
  cases r <;> simp [hostRegRead]
@[simp] theorem hostRegRead_draws (s : State) (r : WindowReg) : (hostRegRead s r).draws = s.draws := by
  cases r <;> simp [hostRegRead]

@[simp] theorem otherRead_cmdptr (s : State) (r : WindowReg) : (otherRead s r).cmdptr = s.cmdptr := rfl
@[simp] theorem otherRead_ie (s : State) (r : WindowReg) : (otherRead s r).ie = s.ie := rfl
@[simp] theorem otherRead_busy (s : State) (r : WindowReg) : (otherRead s r).busy = s.busy := rfl
@[simp] theorem otherRead_done (s : State) (r : WindowReg) : (otherRead s r).done = s.done := rfl
@[simp] theorem otherRead_err (s : State) (r : WindowReg) : (otherRead s r).err = s.err := rfl
@[simp] theorem otherRead_errcode (s : State) (r : WindowReg) : (otherRead s r).errcode = s.errcode := rfl
@[simp] theorem otherRead_v (s : State) (r : WindowReg) : (otherRead s r).v = s.v := rfl
@[simp] theorem otherRead_written (s : State) (r : WindowReg) : (otherRead s r).written = s.written := rfl
@[simp] theorem otherRead_latch (s : State) (r : WindowReg) : (otherRead s r).latch = s.latch := rfl
@[simp] theorem otherRead_mem (s : State) (r : WindowReg) : (otherRead s r).mem = s.mem := rfl
@[simp] theorem otherRead_platform (s : State) (r : WindowReg) : (otherRead s r).platform = s.platform := rfl
@[simp] theorem otherRead_turns (s : State) (r : WindowReg) : (otherRead s r).turns = s.turns := rfl
@[simp] theorem otherRead_hostData (s : State) (r : WindowReg) : (otherRead s r).hostData = otherReg (Config.otherCoreWord s.draws) r := rfl
@[simp] theorem otherRead_used (s : State) (r : WindowReg) : (otherRead s r).used = s.used := rfl
@[simp] theorem otherRead_touched (s : State) (r : WindowReg) : (otherRead s r).touched = s.touched := rfl
@[simp] theorem otherRead_draws (s : State) (r : WindowReg) : (otherRead s r).draws = s.draws + 1 := rfl

/-- Writing a vector register gives it the value. -/
theorem State.setV_v_self (s : State) (r : VReg) (x : V128) : (State.setV s r x).v[r] = x := by
  simp [State.setV]

/-- Writing a vector register leaves the others. -/
theorem State.setV_v_other (s : State) (r q : VReg) (x : V128) (h : q ≠ r) : (State.setV s r x).v[q] = s.v[q] := by
  have : r.val ≠ q.val := fun e => h (Fin.ext e.symm)
  simp [State.setV, this]

/-- Writing a vector register marks it written. -/
theorem State.setV_written_self (s : State) (r : VReg) (x : V128) : (State.setV s r x).written[r] = true := by
  simp [State.setV]

/-- Writing a vector register leaves the marks of the others. -/
theorem State.setV_written_other (s : State) (r q : VReg) (x : V128) (h : q ≠ r) :
    (State.setV s r x).written[q] = s.written[q] := by
  have : r.val ≠ q.val := fun e => h (Fin.ext e.symm)
  simp [State.setV, this]

/-- A register just written reads as its value. -/
theorem readV_setV_self (s : State) (r : VReg) (x : V128) : readV (State.setV s r x) r = .ok x := by
  unfold readV
  rw [State.setV_written_self, State.setV_v_self]
  rfl

end Sys2Proof.Machine
end

