-- ==== Sys2Proof/Laws/Ops.lean ====
section
/-! SUPPORT. One lemma for each shared operation that says everything it can do: the access check, the checked accesses,
the vector reads, and the outcome of a computation. -/

namespace Sys2Proof.Machine

@[simp] theorem outcome_ok (s : State) : outcome (.ok s) = .next s := rfl

@[simp] theorem outcome_error (f : Fault) : outcome (.error f) = .fault f := rfl

/-- A computation's outcome is a next state exactly when the computation gives it. -/
theorem outcome_next_iff (r : Except Fault State) (t : State) : outcome r = .next t ↔ r = .ok t := by
  cases r <;> simp [outcome]

/-- A computation's outcome is a fault exactly when the computation raises it. -/
theorem outcome_fault_iff (r : Except Fault State) (f : Fault) : outcome r = .fault f ↔ r = .error f := by
  cases r <;> simp [outcome]

/-- A computation's outcome is never a refusal. -/
theorem outcome_ne_refused (r : Except Fault State) (q : Refusal) : outcome r ≠ .refused q := by
  cases r <;> simp [outcome]

@[simp] theorem ok_bind {α β : Type} (x : α) (f : α → Except Fault β) : ((Except.ok x : Except Fault α) >>= f) = f x := rfl

@[simp] theorem error_bind {α β : Type} (e : Fault) (f : α → Except Fault β) :
    ((Except.error e : Except Fault α) >>= f) = .error e := rfl

/-- Two computations in sequence give a value exactly when the first gives one from which the second gives it. -/
theorem bind_ok_iff {α β : Type} (x : Except Fault α) (f : α → Except Fault β) (b : β) :
    (x >>= f) = .ok b ↔ ∃ a, x = .ok a ∧ f a = .ok b := by
  cases x <;> simp

theorem rangesMeet_iff (a n b m : Nat) :
    rangesMeet a n b m = true ↔ 0 < n ∧ 0 < m ∧ a < b + m ∧ b < a + n := by
  simp [rangesMeet]

theorem memValid_iff (p : Platform) (a n : Nat) :
    memValid p a n = true ↔ ∀ j < n, validByte p (a + j) = true := by
  simp [memValid]

/-- A range meets a sixteen-byte window exactly when one of its bytes does. -/
theorem rangesMeet_iff_byte (a n b : Nat) :
    rangesMeet a n b 16 = true ↔ ∃ j < n, rangesMeet (a + j) 1 b 16 = true := by
  simp only [rangesMeet_iff]
  constructor
  · rintro ⟨h1, _, h2, h3⟩
    refine ⟨b - a, ?_, ?_⟩ <;> omega
  · rintro ⟨j, hj, h⟩
    omega

/-- The access check goes byte by byte (R62). -/
theorem check_iff_bytes (p : Platform) (a n : Nat) :
    check p a n = true ↔ a + n ≤ 2 ^ 32 ∧ ∀ j < n, check p (a + j) 1 = true := by
  simp only [check, Bool.and_eq_true, decide_eq_true_eq, Bool.not_eq_true', memValid_iff, meetsOwnWindow,
    meetsOtherWindow, List.any_eq_false, Nat.lt_one_iff, forall_eq, Nat.add_zero]
  have hmeet : ∀ b, ¬ rangesMeet a n b 16 = true ↔ ∀ j < n, ¬ rangesMeet (a + j) 1 b 16 = true := by
    intro b
    rw [rangesMeet_iff_byte]
    constructor
    · intro h j hj h'
      exact h ⟨j, hj, h'⟩
    · rintro h ⟨j, hj, h'⟩
      exact h j hj h'
  simp only [← Bool.not_eq_true, hmeet]
  constructor
  · rintro ⟨⟨⟨h1, h2⟩, h3⟩, h4⟩
    exact ⟨h1, fun j hj => ⟨⟨⟨by omega, h2 j hj⟩, h3 j hj⟩, fun x hx => h4 x hx j hj⟩⟩
  · rintro ⟨h1, h⟩
    exact ⟨⟨⟨h1, fun j hj => (h j hj).1.1.2⟩, fun j hj => (h j hj).1.2⟩, fun x hx j hj => (h j hj).2 x hx⟩

/-- A part of a range that passes the access check passes it. -/
theorem check_part (p : Platform) (a n b k : Nat) (h : check p a n = true) (h1 : a ≤ b) (h2 : b + k ≤ a + n) :
    check p b k = true := by
  rw [check_iff_bytes] at h ⊢
  refine ⟨by omega, fun j hj => ?_⟩
  have := h.2 (b - a + j) (by omega)
  rwa [show a + (b - a + j) = b + j by omega] at this

theorem memRead_ok_iff (p : Platform) (m : Mem) (a n x : Nat) :
    memRead p m a n = .ok x ↔ check p a n = true ∧ Mem.readLE m a n = x := by
  unfold memRead; split <;> simp [*]

theorem memRead_of_check (p : Platform) (m : Mem) (a n : Nat) (h : check p a n = true) :
    memRead p m a n = .ok (Mem.readLE m a n) := by simp [memRead, h]

theorem memRead_error (p : Platform) (m : Mem) (a n : Nat) (h : check p a n = false) :
    memRead p m a n = .error (.contractViolation .access a n) := by simp [memRead, h]

theorem memWrite_ok_iff (p : Platform) (m m' : Mem) (a n x : Nat) :
    memWrite p m a n x = .ok m' ↔ check p a n = true ∧ Mem.writeLE m a n x = m' := by
  unfold memWrite; split <;> simp [*]

theorem memWrite_of_check (p : Platform) (m : Mem) (a n x : Nat) (h : check p a n = true) :
    memWrite p m a n x = .ok (Mem.writeLE m a n x) := by simp [memWrite, h]

theorem memWrite_error (p : Platform) (m : Mem) (a n x : Nat) (h : check p a n = false) :
    memWrite p m a n x = .error (.contractViolation .access a n) := by simp [memWrite, h]

/-- A checked write keeps the memory legal. -/
theorem memWrite_legal (p : Platform) (m m' : Mem) (a n x : Nat) (h : memWrite p m a n x = .ok m')
    (hw : Mem.wf m = true) (hs : Mem.inSpace m = true) : Mem.wf m' = true ∧ Mem.inSpace m' = true := by
  obtain ⟨hc, rfl⟩ := (memWrite_ok_iff _ _ _ _ _ _).mp h
  have := ((check_iff_bytes p a n).mp hc).1
  exact ⟨Mem.wf_writeLE _ _ _ _ hw, Mem.inSpace_writeLE _ _ _ _ this hs⟩

theorem readV_ok_iff (s : State) (r : VReg) (x : V128) :
    readV s r = .ok x ↔ s.written[r] = true ∧ s.v[r] = x := by
  unfold readV; split <;> simp [*]

theorem readV_of_written (s : State) (r : VReg) (h : s.written[r] = true) : readV s r = .ok s.v[r] := by
  rw [readV_ok_iff]; exact ⟨h, rfl⟩

theorem readV_unwritten (s : State) (r : VReg) (h : s.written[r] = false) :
    readV s r = .error (.unwrittenRegister r) := by
  unfold readV; split
  · simp_all
  · rfl

/-- All that a one-source register command can do when it completes. -/
theorem unaryV_ok_iff (f : V128 → V128) (vd vs1 : VReg) (s t : State) :
    unaryV f vd vs1 s = .ok t ↔
      s.written[vs1] = true ∧ t = State.advance (State.setV s vd (f s.v[vs1])) 1 := by
  unfold unaryV
  simp only [bind_ok_iff, readV_ok_iff, Except.ok.injEq]
  constructor
  · rintro ⟨x, ⟨h, rfl⟩, rfl⟩; exact ⟨h, rfl⟩
  · rintro ⟨h, rfl⟩; exact ⟨_, ⟨h, rfl⟩, rfl⟩

/-- All that a two-source register command can do when it completes. -/
theorem binaryV_ok_iff (f : V128 → V128 → V128) (vd vs1 vs2 : VReg) (s t : State) :
    binaryV f vd vs1 vs2 s = .ok t ↔
      s.written[vs1] = true ∧ s.written[vs2] = true ∧
        t = State.advance (State.setV s vd (f s.v[vs1] s.v[vs2])) 1 := by
  unfold binaryV
  simp only [bind_ok_iff, readV_ok_iff, Except.ok.injEq]
  constructor
  · rintro ⟨x, ⟨h, rfl⟩, y, ⟨h', rfl⟩, rfl⟩; exact ⟨h, h', rfl⟩
  · rintro ⟨h, h', rfl⟩; exact ⟨_, ⟨h, rfl⟩, _, ⟨h', rfl⟩, rfl⟩

/-- All that VLD can do when it completes. -/
theorem execVld_next_iff (vd : VReg) (addr : Word) (s t : State) :
    execVld vd addr s = .next t ↔ check s.platform addr.toNat 16 = true ∧
      t = State.advance (State.setV s vd (BitVec.ofNat 128 (Mem.readLE s.mem addr.toNat 16))) 2 := by
  unfold execVld
  simp only [outcome_next_iff, bind_ok_iff, memRead_ok_iff, Except.ok.injEq]
  constructor
  · rintro ⟨x, ⟨h, rfl⟩, rfl⟩; exact ⟨h, rfl⟩
  · rintro ⟨h, rfl⟩; exact ⟨_, ⟨h, rfl⟩, rfl⟩

/-- All that VST can do when it completes. -/
theorem execVst_next_iff (vs1 : VReg) (addr : Word) (s t : State) :
    execVst vs1 addr s = .next t ↔ s.written[vs1] = true ∧ check s.platform addr.toNat 16 = true ∧
      t = State.advance { s with mem := Mem.writeLE s.mem addr.toNat 16 s.v[vs1].toNat } 2 := by
  unfold execVst
  simp only [outcome_next_iff, bind_ok_iff, memWrite_ok_iff, readV_ok_iff, Except.ok.injEq]
  constructor
  · rintro ⟨x, ⟨h, rfl⟩, m, ⟨h', rfl⟩, rfl⟩; exact ⟨h, h', rfl⟩
  · rintro ⟨h, h', rfl⟩; exact ⟨_, ⟨h, rfl⟩, _, ⟨h', rfl⟩, rfl⟩

end Sys2Proof.Machine
end

