-- ==== Sys2Proof/Laws/Kernel.lean ====
section
/-! SUPPORT. The kernel commands: pixels, coefficients, the pixel loop, and all that a kernel command can do. -/

namespace Sys2Proof.Machine

/-- Every byte of a range passes the access check; for an empty range nothing is asked. -/
def bytesOk (p : Platform) (a n : Nat) : Prop := ∀ j < n, check p (a + j) 1 = true

theorem bytesOk_of_check (p : Platform) (a n : Nat) (h : check p a n = true) : bytesOk p a n :=
  ((check_iff_bytes p a n).mp h).2

theorem bytesOk_part (p : Platform) (a n b k : Nat) (h : bytesOk p a n) (h1 : a ≤ b) (h2 : b + k ≤ a + n) :
    bytesOk p b k := by
  intro j hj
  have := h (b - a + j) (by omega)
  rwa [show a + (b - a + j) = b + j by omega] at this

/-- A nonempty range passes the access check exactly when its bytes do. -/
theorem check_iff_bytesOk (p : Platform) (a n : Nat) (hn : 0 < n) : check p a n = true ↔ bytesOk p a n := by
  rw [check_iff_bytes]
  constructor
  · exact fun h => h.2
  · intro h
    have h1 := h (n - 1) (by omega)
    have := ((check_iff_bytes p (a + (n - 1)) 1).mp h1).1
    exact ⟨by omega, h⟩

theorem readLE_one (m : Mem) (a : Nat) : Mem.readLE m a 1 = (Mem.read m a).toNat := by simp [Mem.readLE]

theorem writeLE_one (m : Mem) (a : Nat) (b : Byte) : Mem.writeLE m a 1 b.toNat = Mem.write m a b := by
  simp [Mem.writeLE]

/-- The four stores of a pixel, unchecked. -/
def putPixel (m : Mem) (base i : Nat) (x : Pixel) : Mem :=
  Mem.write (Mem.write (Mem.write (Mem.write m (base + 4 * i) x.c0) (base + 4 * i + 1) x.c1) (base + 4 * i + 2) x.c2)
    (base + 4 * i + 3) x.c3

theorem readChannel_ok_iff (p : Platform) (m : Mem) (base i c : Nat) (b : Byte) :
    readChannel p m base i c = .ok b ↔
      check p (base + 4 * i + c) 1 = true ∧ Mem.read m (base + 4 * i + c) = b := by
  unfold readChannel memRead
  by_cases h : check p (base + 4 * i + c) 1 = true
  · simp [h, readLE_one]
  · simp [h]

/-- The checked read of a pixel gives what memory holds there exactly when its four bytes pass the check. -/
theorem readPixel_ok_iff (p : Platform) (m : Mem) (base i : Nat) (x : Pixel) :
    readPixel p m base i = .ok x ↔ bytesOk p (base + 4 * i) 4 ∧ pixelAt m base i = x := by
  unfold readPixel
  simp only [bind_ok_iff, readChannel_ok_iff, Except.ok.injEq, Nat.add_zero]
  constructor
  · rintro ⟨c0, ⟨h0, e0⟩, c1, ⟨h1, e1⟩, c2, ⟨h2, e2⟩, c3, ⟨h3, e3⟩, rfl⟩
    refine ⟨?_, by simp [pixelAt, e0, e1, e2, e3]⟩
    intro j hj
    match j, hj with
    | 0, _ => exact h0
    | 1, _ => exact h1
    | 2, _ => exact h2
    | 3, _ => exact h3
  · rintro ⟨h, rfl⟩
    exact ⟨_, ⟨h 0 (by omega), rfl⟩, _, ⟨h 1 (by omega), rfl⟩, _, ⟨h 2 (by omega), rfl⟩, _,
      ⟨h 3 (by omega), rfl⟩, rfl⟩

/-- The checked write of a pixel stores it exactly when its four bytes pass the check. -/
theorem writePixel_ok_iff (p : Platform) (m m' : Mem) (base i : Nat) (x : Pixel) :
    writePixel p m base i x = .ok m' ↔ bytesOk p (base + 4 * i) 4 ∧ putPixel m base i x = m' := by
  unfold writePixel
  simp only [bind_ok_iff, memWrite_ok_iff, writeLE_one]
  constructor
  · rintro ⟨m0, ⟨h0, rfl⟩, m1, ⟨h1, rfl⟩, m2, ⟨h2, rfl⟩, h3, rfl⟩
    refine ⟨?_, rfl⟩
    intro j hj
    match j, hj with
    | 0, _ => exact h0
    | 1, _ => exact h1
    | 2, _ => exact h2
    | 3, _ => exact h3
  · rintro ⟨h, rfl⟩
    exact ⟨_, ⟨h 0 (by omega), rfl⟩, _, ⟨h 1 (by omega), rfl⟩, _, ⟨h 2 (by omega), rfl⟩, h 3 (by omega), rfl⟩

theorem read_putPixel_outside (m : Mem) (base i q : Nat) (x : Pixel) (h : q < base + 4 * i ∨ base + 4 * i + 4 ≤ q) :
    Mem.read (putPixel m base i x) q = Mem.read m q := by
  unfold putPixel
  rw [Mem.read_write_other _ _ _ _ (by omega), Mem.read_write_other _ _ _ _ (by omega),
    Mem.read_write_other _ _ _ _ (by omega), Mem.read_write_other _ _ _ _ (by omega)]

theorem pixelAt_putPixel (m : Mem) (base i : Nat) (x : Pixel) : pixelAt (putPixel m base i x) base i = x := by
  simp [pixelAt, putPixel, Mem.read_write]

theorem pixelAt_congr (m m' : Mem) (base i : Nat)
    (h : ∀ q, base + 4 * i ≤ q → q < base + 4 * i + 4 → Mem.read m q = Mem.read m' q) :
    pixelAt m base i = pixelAt m' base i := by
  simp only [pixelAt, Pixel.mk.injEq]
  refine ⟨h _ ?_ ?_, h _ ?_ ?_, h _ ?_ ?_, h _ ?_ ?_⟩ <;> omega

/-- A checked pixel write keeps the memory legal. -/
theorem writePixel_legal (p : Platform) (m m' : Mem) (base i : Nat) (x : Pixel) (h : writePixel p m base i x = .ok m')
    (hw : Mem.wf m = true) (hs : Mem.inSpace m = true) : Mem.wf m' = true ∧ Mem.inSpace m' = true := by
  obtain ⟨hb, rfl⟩ := (writePixel_ok_iff _ _ _ _ _ _).mp h
  have hlt : ∀ j < 4, base + 4 * i + j < 2 ^ 32 := fun j hj => by
    have := ((check_iff_bytes p _ 1).mp (hb j hj)).1; omega
  unfold putPixel
  refine ⟨Mem.wf_write _ _ _ (Mem.wf_write _ _ _ (Mem.wf_write _ _ _ (Mem.wf_write _ _ _ hw))), ?_⟩
  exact Mem.inSpace_write _ _ _ (hlt 3 (by omega)) (Mem.inSpace_write _ _ _ (hlt 2 (by omega))
    (Mem.inSpace_write _ _ _ (hlt 1 (by omega)) (Mem.inSpace_write _ _ _ (hlt 0 (by omega)) hs)))

/-- The checked reads of the coefficients give what memory holds exactly when each passes the check. -/
theorem readCoefs_ok_iff (p : Platform) (m : Mem) (base : Nat) (n : Nat) : ∀ k c,
    readCoefs p m base n k = .ok c ↔
      (∀ j, k ≤ j → j < k + n → check p (base + 2 * j) 2 = true) ∧ coefsAt m base n k = c := by
  induction n with
  | zero => intro k c; simp [readCoefs, coefsAt]; intro _ j h1 h2; omega
  | succ n ih =>
    intro k c
    simp only [readCoefs, coefsAt, bind_ok_iff, memRead_ok_iff, ih, Except.ok.injEq]
    constructor
    · rintro ⟨x, ⟨h, rfl⟩, rest, ⟨h', rfl⟩, rfl⟩
      refine ⟨fun j h1 h2 => ?_, rfl⟩
      rcases Nat.eq_or_lt_of_le h1 with rfl | h1
      · exact h
      · exact h' j h1 (by omega)
    · rintro ⟨h, rfl⟩
      exact ⟨_, ⟨h k (by omega) (by omega), rfl⟩, _, ⟨fun j h1 h2 => h j (by omega) (by omega), rfl⟩, rfl⟩

/-- The coefficient array is latched exactly when all of it passes the access check (R170, R200). -/
theorem readCoefs_array (p : Platform) (m : Mem) (base n : Nat) (c : List Half) (hn : 0 < n) :
    readCoefs p m base n 0 = .ok c ↔ check p base (2 * n) = true ∧ coefsAt m base n 0 = c := by
  rw [readCoefs_ok_iff p m base n 0 c]
  refine and_congr_left fun _ => ?_
  constructor
  · intro h
    rw [check_iff_bytesOk _ _ _ (by omega)]
    intro j hj
    have := bytesOk_of_check _ _ _ (h (j / 2) (by omega) (by omega)) (j % 2) (by omega)
    rwa [show base + 2 * (j / 2) + j % 2 = base + j by omega] at this
  · intro h j _ hj
    exact check_part _ _ _ _ _ h (by omega) (by omega)

theorem coefsAt_length (m : Mem) (base n : Nat) : ∀ k, (coefsAt m base n k).length = n := by
  induction n with
  | zero => intro k; rfl
  | succ n ih => intro k; simp [coefsAt, ih]

/-- Coefficient j of the array is the signed 16-bit value at base + 2 j (R16, R64). -/
theorem coefsAt_getD (m : Mem) (base n : Nat) : ∀ k j, j < n →
    (coefsAt m base n k).getD j 0#16 = BitVec.ofNat 16 (Mem.readLE m (base + 2 * (k + j)) 2) := by
  induction n with
  | zero => intro k j h; omega
  | succ n ih =>
    intro k j h
    cases j with
    | zero => simp [coefsAt]
    | succ j =>
      rw [coefsAt, List.getD_cons_succ, ih (k + 1) j (by omega), show k + 1 + j = k + (j + 1) by omega]

/-- The pixel loop keeps the memory legal. -/
theorem pixelLoop_legal (p : Platform) (dst : Nat) (f : Mem → Nat → Except Fault Pixel) (n : Nat) : ∀ i m m',
    pixelLoop p dst f n i m = .ok m' → Mem.wf m = true → Mem.inSpace m = true →
      Mem.wf m' = true ∧ Mem.inSpace m' = true := by
  induction n with
  | zero => intro i m m' h hw hs; simp only [pixelLoop, Except.ok.injEq] at h; exact h ▸ ⟨hw, hs⟩
  | succ n ih =>
    intro i m m' h hw hs
    simp only [pixelLoop, bind_ok_iff] at h
    obtain ⟨x, _, m1, h1, h2⟩ := h
    obtain ⟨hw1, hs1⟩ := writePixel_legal _ _ _ _ _ _ h1 hw hs
    exact ih _ _ _ h2 hw1 hs1

/-- The pixel loop writes no byte outside its destination range (R66). -/
theorem pixelLoop_outside (p : Platform) (dst : Nat) (f : Mem → Nat → Except Fault Pixel) (n : Nat) : ∀ i m m',
    pixelLoop p dst f n i m = .ok m' → ∀ q, q < dst + 4 * i ∨ dst + 4 * (i + n) ≤ q →
      Mem.read m' q = Mem.read m q := by
  induction n with
  | zero => intro i m m' h q _; simp only [pixelLoop, Except.ok.injEq] at h; rw [h]
  | succ n ih =>
    intro i m m' h q hq
    simp only [pixelLoop, bind_ok_iff] at h
    obtain ⟨x, _, m1, h1, h2⟩ := h
    obtain ⟨_, rfl⟩ := (writePixel_ok_iff _ _ _ _ _ _).mp h1
    rw [ih _ _ _ h2 q (by omega), read_putPixel_outside _ _ _ _ _ (by omega)]

/-- When the pixel loop completes, every destination byte passed the check and every pixel was computed from some
memory. -/
theorem pixelLoop_ok_checks (p : Platform) (dst : Nat) (f : Mem → Nat → Except Fault Pixel) (n : Nat) : ∀ i m m',
    pixelLoop p dst f n i m = .ok m' →
      bytesOk p (dst + 4 * i) (4 * n) ∧ ∀ j, i ≤ j → j < i + n → ∃ mm x, f mm j = .ok x := by
  induction n with
  | zero => intro i m m' _; exact ⟨fun j hj => by omega, fun j h1 h2 => by omega⟩
  | succ n ih =>
    intro i m m' h
    simp only [pixelLoop, bind_ok_iff] at h
    obtain ⟨x, hx, m1, h1, h2⟩ := h
    obtain ⟨hb, _⟩ := (writePixel_ok_iff _ _ _ _ _ _).mp h1
    obtain ⟨hd, hf⟩ := ih _ _ _ h2
    constructor
    · intro j hj
      by_cases h4 : j < 4
      · exact hb j h4
      · have := hd (j - 4) (by omega)
        rwa [show dst + 4 * (i + 1) + (j - 4) = dst + 4 * i + j by omega] at this
    · intro j h1' h2'
      rcases Nat.eq_or_lt_of_le h1' with rfl | h1'
      · exact ⟨m, x, hx⟩
      · exact hf j h1' (by omega)

/-- The pixel loop completes when its destination passes the check and each pixel's computation gives a value that does
not depend on what the loop has already written; pixel j of the destination is then that value. -/
theorem pixelLoop_spec (p : Platform) (dst : Nat) (f : Mem → Nat → Except Fault Pixel) (g : Nat → Pixel) (n : Nat) :
    ∀ i m, (∀ j, i ≤ j → j < i + n → ∀ mm,
        (∀ q, q < dst + 4 * i ∨ dst + 4 * j ≤ q → Mem.read mm q = Mem.read m q) → f mm j = .ok (g j)) →
      bytesOk p (dst + 4 * i) (4 * n) →
      ∃ m', pixelLoop p dst f n i m = .ok m' ∧ ∀ j, i ≤ j → j < i + n → pixelAt m' dst j = g j := by
  induction n with
  | zero => intro i m _ _; exact ⟨m, rfl, fun j h1 h2 => by omega⟩
  | succ n ih =>
    intro i m hf hb
    have hx := hf i (by omega) (by omega) m (fun q _ => rfl)
    have hput : writePixel p m dst i (g i) = .ok (putPixel m dst i (g i)) :=
      (writePixel_ok_iff _ _ _ _ _ _).mpr ⟨bytesOk_part _ _ _ _ _ hb (by omega) (by omega), rfl⟩
    obtain ⟨m', hm', hp⟩ := ih (i + 1) (putPixel m dst i (g i))
      (fun j h1 h2 mm hmm => hf j (by omega) (by omega) mm fun q hq => by
        rw [hmm q (by omega), read_putPixel_outside _ _ _ _ _ (by omega)])
      (bytesOk_part _ _ _ _ _ hb (by omega) (by omega))
    refine ⟨m', ?_, ?_⟩
    · simp only [pixelLoop, hx, ok_bind, hput, hm']
    · intro j h1 h2
      rcases Nat.eq_or_lt_of_le h1 with rfl | h1
      · rw [← pixelAt_putPixel m dst i (g i)]
        exact pixelAt_congr _ _ _ _ fun q hq1 hq2 => pixelLoop_outside _ _ _ _ _ _ _ hm' q (by omega)
      · exact hp j h1 (by omega)

/-- All that a kernel command can do when it completes (R48, R73). -/
theorem runKernel_ok_iff (s t : State) (coefBase nCoefs dst count l : Nat) (overlaps : Bool)
    (f : List Half → Mem → Nat → Except Fault Pixel) (hn : 0 < nCoefs) :
    runKernel s coefBase nCoefs dst count l overlaps f = .ok t ↔
      check s.platform coefBase (2 * nCoefs) = true ∧ overlaps = false ∧
        ∃ m, pixelLoop s.platform dst (f (coefsAt s.mem coefBase nCoefs 0)) count 0 s.mem = .ok m ∧
          t = State.advance { s with latch := coefsAt s.mem coefBase nCoefs 0, mem := m } l := by
  unfold runKernel
  simp only [bind_ok_iff, readCoefs_array _ _ _ _ _ hn]
  cases overlaps with
  | true => simp
  | false =>
    simp only [Bool.false_eq_true, if_false, bind_ok_iff, Except.ok.injEq, true_and]
    constructor
    · rintro ⟨c, ⟨h, rfl⟩, m, hm, rfl⟩; exact ⟨h, m, hm, rfl⟩
    · rintro ⟨h, m, hm, rfl⟩; exact ⟨_, ⟨h, rfl⟩, m, hm, rfl⟩

/-- The checked reads of a row give what memory holds when the row's bytes pass the check (R201). -/
theorem readRow_ok_iff (p : Platform) (m : Mem) (row : Nat) (n : Nat) : ∀ i ps,
    readRow p m row n i = .ok ps ↔
      bytesOk p (row + 4 * i) (4 * n) ∧ (List.range n).map (fun d => pixelAt m row (i + d)) = ps := by
  induction n with
  | zero => intro i ps; simp [readRow, bytesOk]
  | succ n ih =>
    intro i ps
    have hmap : (List.range (n + 1)).map (fun d => pixelAt m row (i + d)) =
        pixelAt m row i :: (List.range n).map (fun d => pixelAt m row (i + 1 + d)) := by
      rw [List.range_succ_eq_map]
      simp [Function.comp_def, Nat.add_assoc, Nat.add_comm 1]
    simp only [readRow, bind_ok_iff, readPixel_ok_iff, ih, hmap, Except.ok.injEq]
    constructor
    · rintro ⟨x, ⟨h, rfl⟩, rest, ⟨h', rfl⟩, rfl⟩
      refine ⟨fun j hj => ?_, rfl⟩
      by_cases h4 : j < 4
      · exact h j h4
      · have := h' (j - 4) (by omega)
        rwa [show row + 4 * (i + 1) + (j - 4) = row + 4 * i + j by omega] at this
    · rintro ⟨h, rfl⟩
      exact ⟨_, ⟨bytesOk_part _ _ _ _ _ h (by omega) (by omega), rfl⟩, _,
        ⟨bytesOk_part _ _ _ _ _ h (by omega) (by omega), rfl⟩, rfl⟩

/-- The window of output pixel x: k pixels of every row, in reading order (R201, R203). -/
def windowAt (m : Mem) (k x : Nat) (rows : List Nat) : List Pixel :=
  rows.flatMap fun row => (List.range k).map fun dx => pixelAt m row (x + dx)

/-- The checked reads of a window give what memory holds exactly when every row's part passes the check. -/
theorem readWindow_ok_iff (p : Platform) (m : Mem) (k x : Nat) (rows : List Nat) : ∀ ps,
    readWindow p m k x rows = .ok ps ↔
      (∀ row ∈ rows, bytesOk p (row + 4 * x) (4 * k)) ∧ windowAt m k x rows = ps := by
  induction rows with
  | nil => intro ps; simp [readWindow, windowAt]
  | cons row rows ih =>
    intro ps
    simp only [readWindow, bind_ok_iff, readRow_ok_iff, ih, Except.ok.injEq, List.forall_mem_cons]
    constructor
    · rintro ⟨a, ⟨h, rfl⟩, rest, ⟨h', rfl⟩, rfl⟩
      exact ⟨⟨h, h'⟩, by simp [windowAt]⟩
    · rintro ⟨⟨h, h'⟩, rfl⟩
      exact ⟨_, ⟨h, rfl⟩, _, ⟨h', rfl⟩, by simp [windowAt]⟩

end Sys2Proof.Machine
end

