-- ==== Sys2Proof/Laws/Engines.lean ====
section
/-! SUPPORT. The shared bodies of the colour-matrix and convolution commands: when they complete and what they leave. -/

namespace Sys2Proof.Machine

theorem matrixOverlap_false_iff (dst src count : Nat) :
    matrixOverlap dst src count = false ↔ dst = src ∨ count = 0 ∨ dst + 4 * count ≤ src ∨ src + 4 * count ≤ dst := by
  unfold matrixOverlap
  rw [Bool.and_eq_false_iff, ← Bool.not_eq_true (rangesMeet _ _ _ _), rangesMeet_iff]
  simp only [Bool.not_eq_false', decide_eq_true_eq]
  omega

/-- The pixel loop of a colour-matrix command whose accesses pass the check and whose ranges are the same or apart. -/
theorem matrix_loop (f : List Half → Pixel → Pixel) (dst src coefBase count : Word) (s : State)
    (ho : matrixOverlap dst.toNat src.toNat count.toNat = false)
    (hs : bytesOk s.platform src.toNat (4 * count.toNat)) (hd : bytesOk s.platform dst.toNat (4 * count.toNat)) :
    ∃ m', pixelLoop s.platform dst.toNat
      (fun m i => do
        let x ← readPixel s.platform m src.toNat i
        .ok (f (coefsAt s.mem coefBase.toNat 16 0) x)) count.toNat 0 s.mem = .ok m' ∧
      ∀ i < count.toNat, pixelAt m' dst.toNat i =
        f (coefsAt s.mem coefBase.toNat 16 0) (pixelAt s.mem src.toNat i) := by
  rw [matrixOverlap_false_iff] at ho
  obtain ⟨m', hm', hp⟩ := pixelLoop_spec s.platform dst.toNat
    (fun m i => do
      let x ← readPixel s.platform m src.toNat i
      .ok (f (coefsAt s.mem coefBase.toNat 16 0) x))
    (fun j => f (coefsAt s.mem coefBase.toNat 16 0) (pixelAt s.mem src.toNat j)) count.toNat 0 s.mem
    (fun j _ hj mm hmm => by
      have hr : readPixel s.platform mm src.toNat j = .ok (pixelAt s.mem src.toNat j) := by
        rw [readPixel_ok_iff]
        exact ⟨bytesOk_part _ _ _ _ _ hs (by omega) (by omega),
          pixelAt_congr _ _ _ _ fun q h1 h2 => hmm q (by omega)⟩
      simp only [hr, ok_bind])
    (by simpa using hd)
  exact ⟨m', hm', fun i hi => hp i (by omega) (by omega)⟩

/-- A colour-matrix command completes exactly when its coefficients, source and destination pass the access check and its
ranges are the same or apart (R170, R171, R173). -/
theorem colourMatrix_ok_iff (f : List Half → Pixel → Pixel) (dst src coefBase count : Word) (s : State) :
    (∃ t, colourMatrix f dst src coefBase count s = .ok t) ↔
      check s.platform coefBase.toNat 32 = true ∧ matrixOverlap dst.toNat src.toNat count.toNat = false ∧
        bytesOk s.platform src.toNat (4 * count.toNat) ∧ bytesOk s.platform dst.toNat (4 * count.toNat) := by
  unfold colourMatrix
  simp only [runKernel_ok_iff _ _ _ 16 _ _ _ _ _ (by omega : 0 < 16)]
  constructor
  · rintro ⟨t, h1, h2, m, hm, _⟩
    obtain ⟨hd, hf⟩ := pixelLoop_ok_checks _ _ _ _ _ _ _ hm
    refine ⟨h1, h2, ?_, by simpa using hd⟩
    intro j hj
    obtain ⟨mm, x, hx⟩ := hf (j / 4) (by omega) (by omega)
    simp only [bind_ok_iff, readPixel_ok_iff] at hx
    obtain ⟨_, ⟨hb, _⟩, _⟩ := hx
    have := hb (j % 4) (by omega)
    rwa [show src.toNat + 4 * (j / 4) + j % 4 = src.toNat + j by omega] at this
  · rintro ⟨h1, h2, hs, hd⟩
    obtain ⟨m', hm', _⟩ := matrix_loop f dst src coefBase count s h2 hs hd
    exact ⟨_, h1, h2, m', hm', rfl⟩

/-- What a completed colour-matrix command leaves: every destination pixel is the function of its source pixel, every
other byte and all other state but CMDPTR and the latch stay (R173, R66). -/
theorem colourMatrix_result (f : List Half → Pixel → Pixel) (dst src coefBase count : Word) (s t : State)
    (h : colourMatrix f dst src coefBase count s = .ok t) :
    t = State.advance { s with latch := coefsAt s.mem coefBase.toNat 16 0, mem := t.mem } 5 ∧
      (∀ i < count.toNat, pixelAt t.mem dst.toNat i =
        f (coefsAt s.mem coefBase.toNat 16 0) (pixelAt s.mem src.toNat i)) ∧
      (∀ q, q < dst.toNat ∨ dst.toNat + 4 * count.toNat ≤ q → Mem.read t.mem q = Mem.read s.mem q) ∧
      (Mem.wf s.mem = true → Mem.inSpace s.mem = true → Mem.wf t.mem = true ∧ Mem.inSpace t.mem = true) := by
  have hall := (colourMatrix_ok_iff f dst src coefBase count s).mp ⟨t, h⟩
  obtain ⟨_, ho, hs, hd⟩ := hall
  unfold colourMatrix at h
  rw [runKernel_ok_iff _ _ _ 16 _ _ _ _ _ (by omega : 0 < 16)] at h
  obtain ⟨_, _, m, hm, rfl⟩ := h
  obtain ⟨m', hm', hp⟩ := matrix_loop f dst src coefBase count s ho hs hd
  have hmm : m' = m := by rw [hm] at hm'; exact (Except.ok.inj hm').symm
  subst hmm
  refine ⟨rfl, hp, fun q hq => ?_, fun hw hsp => ?_⟩
  · exact pixelLoop_outside _ _ _ _ _ _ _ hm q (by omega)
  · exact pixelLoop_legal _ _ _ _ _ _ _ hm hw hsp

theorem convolutionOverlap_false_iff (k dst count : Nat) (rows : List Nat) (hk : 0 < k) :
    convolutionOverlap k dst count rows = false ↔
      count = 0 ∨ ∀ row ∈ rows, dst + 4 * count ≤ row ∨ row + 4 * (count + (k - 1)) ≤ dst := by
  unfold convolutionOverlap
  simp only [List.any_eq_false, rangesMeet_iff, rowBytes]
  by_cases hc : count = 0
  · simp [hc]
  · simp only [hc, if_false, false_or]
    refine forall_congr' fun row => forall_congr' fun _ => ?_
    omega

/-- The pixel loop of a convolution whose accesses pass the check and whose destination meets no row window. -/
theorem convolution_loop (k : Nat) (dst : Word) (rows : List Word) (coefBase count : Word) (s : State) (hk : 0 < k)
    (h2 : convolutionOverlap k dst.toNat count.toNat (rows.map (·.toNat)) = false)
    (hr : ∀ row ∈ rows, bytesOk s.platform row.toNat (rowBytes k count.toNat))
    (hd : bytesOk s.platform dst.toNat (4 * count.toNat)) :
    ∃ m', pixelLoop s.platform dst.toNat
      (fun m x => do
        let window ← readWindow s.platform m k x (rows.map (·.toNat))
        .ok (convolve (coefsAt s.mem coefBase.toNat (k * k) 0) window)) count.toNat 0 s.mem = .ok m' ∧
      ∀ i < count.toNat, pixelAt m' dst.toNat i =
        convolve (coefsAt s.mem coefBase.toNat (k * k) 0) (windowAt s.mem k i (rows.map (·.toNat))) := by
  rw [convolutionOverlap_false_iff _ _ _ _ hk] at h2
  obtain ⟨m', hm', hp⟩ := pixelLoop_spec s.platform dst.toNat
    (fun m x => do
      let window ← readWindow s.platform m k x (rows.map (·.toNat))
      .ok (convolve (coefsAt s.mem coefBase.toNat (k * k) 0) window))
    (fun i => convolve (coefsAt s.mem coefBase.toNat (k * k) 0) (windowAt s.mem k i (rows.map (·.toNat))))
    count.toNat 0 s.mem
    (fun j _ hj mm hmm => by
      have hw : readWindow s.platform mm k j (rows.map (·.toNat)) =
          .ok (windowAt s.mem k j (rows.map (·.toNat))) := by
        rw [readWindow_ok_iff]
        constructor
        · intro row hrow
          obtain ⟨w, hw, rfl⟩ := List.mem_map.mp hrow
          have := hr w hw
          unfold rowBytes at this
          rw [if_neg (by omega)] at this
          exact bytesOk_part _ _ _ _ _ this (by omega) (by omega)
        · unfold windowAt
          refine List.flatMap_congr fun row hrow => ?_
          refine List.map_congr_left fun dx hdx => ?_
          rw [List.mem_range] at hdx
          have := (h2.resolve_left (by omega)) row hrow
          exact pixelAt_congr _ _ _ _ fun q h1 h2 => hmm q (by omega)
      simp only [hw, ok_bind])
    (by simpa using hd)
  exact ⟨m', hm', fun i hi => hp i (by omega) (by omega)⟩

/-- A convolution completes exactly when its coefficients, its row windows and its destination pass the access check and
the destination meets no row window (R200 to R203). -/
theorem convolution_ok_iff (k l : Nat) (dst : Word) (rows : List Word) (coefBase count : Word) (s : State)
    (hk : 0 < k) :
    (∃ t, convolution k l dst rows coefBase count s = .ok t) ↔
      check s.platform coefBase.toNat (2 * (k * k)) = true ∧
        convolutionOverlap k dst.toNat count.toNat (rows.map (·.toNat)) = false ∧
        (∀ row ∈ rows, bytesOk s.platform row.toNat (rowBytes k count.toNat)) ∧
        bytesOk s.platform dst.toNat (4 * count.toNat) := by
  unfold convolution
  simp only [runKernel_ok_iff _ _ _ (k * k) _ _ _ _ _ (Nat.mul_pos hk hk)]
  constructor
  · rintro ⟨t, h1, h2, m, hm, _⟩
    obtain ⟨hd, hf⟩ := pixelLoop_ok_checks _ _ _ _ _ _ _ hm
    refine ⟨h1, h2, ?_, by simpa using hd⟩
    intro row hrow j hj
    unfold rowBytes at hj
    split at hj
    · omega
    · next hc =>
      have hx : ∃ x, x < count.toNat ∧ 4 * x ≤ j ∧ j < 4 * x + 4 * k := by
        by_cases hjc : j / 4 < count.toNat
        · exact ⟨j / 4, hjc, by omega, by omega⟩
        · exact ⟨count.toNat - 1, by omega, by omega, by omega⟩
      obtain ⟨x, hx1, hx2, hx3⟩ := hx
      obtain ⟨mm, px, hpx⟩ := hf x (by omega) (by omega)
      simp only [bind_ok_iff, readWindow_ok_iff] at hpx
      obtain ⟨_, ⟨hb, _⟩, _⟩ := hpx
      have := hb row.toNat (List.mem_map.mpr ⟨row, hrow, rfl⟩) (j - 4 * x) (by omega)
      rwa [show row.toNat + 4 * x + (j - 4 * x) = row.toNat + j by omega] at this
  · rintro ⟨h1, h2, hr, hd⟩
    obtain ⟨m', hm', _⟩ := convolution_loop k dst rows coefBase count s hk h2 hr hd
    exact ⟨_, h1, h2, m', hm', rfl⟩
/-- What a completed convolution leaves: every destination pixel is the convolution of its window, every other byte and
all other state but CMDPTR and the latch stay (R203, R66). -/
theorem convolution_result (k l : Nat) (dst : Word) (rows : List Word) (coefBase count : Word) (s t : State)
    (hk : 0 < k) (h : convolution k l dst rows coefBase count s = .ok t) :
    t = State.advance { s with latch := coefsAt s.mem coefBase.toNat (k * k) 0, mem := t.mem } l ∧
      (∀ i < count.toNat, pixelAt t.mem dst.toNat i =
        convolve (coefsAt s.mem coefBase.toNat (k * k) 0) (windowAt s.mem k i (rows.map (·.toNat)))) ∧
      (∀ q, q < dst.toNat ∨ dst.toNat + 4 * count.toNat ≤ q → Mem.read t.mem q = Mem.read s.mem q) ∧
      (Mem.wf s.mem = true → Mem.inSpace s.mem = true → Mem.wf t.mem = true ∧ Mem.inSpace t.mem = true) := by
  obtain ⟨_, h2, hr, hd⟩ := (convolution_ok_iff k l dst rows coefBase count s hk).mp ⟨t, h⟩
  unfold convolution at h
  rw [runKernel_ok_iff _ _ _ (k * k) _ _ _ _ _ (Nat.mul_pos hk hk)] at h
  obtain ⟨_, _, m, hm, rfl⟩ := h
  obtain ⟨m', hm', hp⟩ := convolution_loop k dst rows coefBase count s hk h2 hr hd
  have hmm : m' = m := by rw [hm] at hm'; exact (Except.ok.inj hm').symm
  subst hmm
  refine ⟨rfl, hp, fun q hq => ?_, fun hw hsp => ?_⟩
  · exact pixelLoop_outside _ _ _ _ _ _ _ hm q (by omega)
  · exact pixelLoop_legal _ _ _ _ _ _ _ hm hw hsp

end Sys2Proof.Machine
end

