-- ==== Sys2Proof/Laws/Lanes.lean ====
section
/-! SUPPORT. Lanes of a packed register, and what each lane operation leaves in each lane. -/

namespace Sys2Proof.Machine

theorem getLsbD_packLanes (w : Nat) (hw : 0 < w) (xs : List (BitVec w)) : ∀ b, b < 128 →
    (packLanes w xs).getLsbD b = (xs.getD (b / w) 0#w).getLsbD (b % w) := by
  induction xs with
  | nil => intro b _; simp [packLanes]
  | cons y ys ih =>
    intro b hb
    simp only [packLanes, BitVec.getLsbD_or, BitVec.getLsbD_shiftLeft, BitVec.getLsbD_setWidth, hb, decide_true,
      Bool.true_and]
    by_cases h : b < w
    · simp [h, Nat.div_eq_of_lt h, Nat.mod_eq_of_lt h]
    · have h1 : b / w = (b - w) / w + 1 := by
        rw [← Nat.add_div_right _ hw, Nat.sub_add_cancel (by omega)]
      have h2 : b % w = (b - w) % w := by rw [← Nat.mod_eq_sub_mod (by omega)]
      rw [ih (b - w) (by omega), h1, h2, List.getD_cons_succ, BitVec.getLsbD_of_ge y b (by omega)]
      simp [h]

/-- Lane j of a packed register is the j-th element. -/
theorem lane_packLanes (w : Nat) (xs : List (BitVec w)) (j : Nat) (hw : 0 < w) (hj : w * (j + 1) ≤ 128) :
    lane w (packLanes w xs) j = xs.getD j 0#w := by
  apply BitVec.eq_of_getLsbD_eq
  intro i hi
  have hb : w * j + i < 128 := by rw [Nat.mul_succ] at hj; omega
  rw [lane, BitVec.getLsbD_extractLsb', getLsbD_packLanes w hw xs _ hb, Nat.mul_add_div hw, Nat.div_eq_of_lt hi,
    Nat.mul_add_mod, Nat.mod_eq_of_lt hi]
  simp [hi]

/-- Byte lane j of a loaded value is the byte at offset j (R64, R141). -/
theorem lane_ofNat (x j : Nat) (hj : j < 16) : lane 8 (BitVec.ofNat 128 x) j = BitVec.ofNat 8 (x / 256 ^ j) := by
  apply BitVec.eq_of_getLsbD_eq
  intro i hi
  have : 256 ^ j = 2 ^ (8 * j) := by rw [show (256 : Nat) = 2 ^ 8 by rfl, ← Nat.pow_mul]
  have hb : 8 * j + i < 128 := by omega
  rw [lane, BitVec.getLsbD_extractLsb', BitVec.getLsbD_ofNat, BitVec.getLsbD_ofNat, this, Nat.testBit_div_two_pow]
  simp only [hi, hb, decide_true, Bool.true_and, Nat.add_comm i]

theorem lane_widen (x : V128) (j : Nat) (hj : j < 4) : lane 32 (widen x) j = (lane 16 x j).signExtend 32 := by
  rw [widen, lane_packLanes _ _ _ (by omega) (by omega)]
  simp [List.getD_eq_getElem?_getD, hj]

theorem lane_narrow16_lo (lo hi : V128) (j : Nat) (hj : j < 4) :
    lane 16 (narrow16 lo hi) j = satU16 (lane 32 lo j).toInt := by
  rw [narrow16, lane_packLanes _ _ _ (by omega) (by omega)]
  simp [List.getD_eq_getElem?_getD, List.getElem?_append, hj]

theorem lane_narrow16_hi (lo hi : V128) (j : Nat) (hj : j < 4) :
    lane 16 (narrow16 lo hi) (4 + j) = satU16 (lane 32 hi j).toInt := by
  rw [narrow16, lane_packLanes _ _ _ (by omega) (by omega)]
  simp [List.getD_eq_getElem?_getD, List.getElem?_append, hj]

theorem lane_narrow8_lo (lo hi : V128) (j : Nat) (hj : j < 8) :
    lane 8 (narrow8 lo hi) j = clampU8 ((lane 16 lo j).toNat : Int) := by
  rw [narrow8, lane_packLanes _ _ _ (by omega) (by omega)]
  simp [List.getD_eq_getElem?_getD, List.getElem?_append, hj]

theorem lane_narrow8_hi (lo hi : V128) (j : Nat) (hj : j < 8) :
    lane 8 (narrow8 lo hi) (8 + j) = clampU8 ((lane 16 hi j).toNat : Int) := by
  rw [narrow8, lane_packLanes _ _ _ (by omega) (by omega)]
  simp [List.getD_eq_getElem?_getD, List.getElem?_append, hj]

theorem lane_mulLow (a b : V128) (j : Nat) (hj : j < 4) :
    lane 32 (mulLow a b) j = BitVec.ofInt 32 ((lane 32 a j).toInt * (lane 32 b j).toInt) := by
  rw [mulLow, lane_packLanes _ _ _ (by omega) (by omega)]
  simp [List.getD_eq_getElem?_getD, hj]

/-- sat_u16 by cases, as a number (R15). -/
theorem satU16_toNat (s : Int) : ((satU16 s).toNat : Int) = if s < 0 then 0 else if 65535 < s then 65535 else s := by
  unfold satU16
  split
  · rfl
  · split
    · rfl
    · simp only [BitVec.toNat_ofInt]; omega

/-- clamp_u8 by cases, as a number (R15). -/
theorem clampU8_toNat (s : Int) : ((clampU8 s).toNat : Int) = if s < 0 then 0 else if 255 < s then 255 else s := by
  unfold clampU8
  split
  · rfl
  · split
    · rfl
    · simp only [BitVec.toNat_ofInt]; omega

theorem asr8_eq (s : Int) : asr8 s = s / 256 := by
  unfold asr8; exact Int.fdiv_eq_ediv_of_nonneg s (by omega)

end Sys2Proof.Machine
end

