-- ==== Sys2Proof/Laws/PerInstr.lean ====
section
/-! SUPPORT. Statements made per instruction, about the instruction as it is encoded. -/

namespace Sys2Proof.Laws

/-- The words of an instruction are a well-formed command of 1, 2, 5, 7 or 9 words (R90, R95, R98). -/
def EncodeLegal.Statement (i : Instr) : Prop :=
  (encode i).wellFormed = true ∧ i.words = (encode i).operands.length + 1 ∧ i.words ∈ [1, 2, 5, 7, 9]

theorem legalFirst_vld : ∀ vd : VReg, legalFirst (firstWord 0x10 vd 0 0) = true ∧
    lengthOf (firstWord 0x10 vd 0 0) = some 2 := by decide

theorem legalFirst_vst : ∀ vs1 : VReg, legalFirst (firstWord 0x11 0 vs1 0) = true ∧
    lengthOf (firstWord 0x11 0 vs1 0) = some 2 := by decide

theorem legalFirst_vwiden : ∀ vd vs1 : VReg, legalFirst (firstWord 0x20 vd vs1 0) = true ∧
    lengthOf (firstWord 0x20 vd vs1 0) = some 1 := by decide

theorem legalFirst_vnarrow16 : ∀ vd vs1 vs2 : VReg, legalFirst (firstWord 0x21 vd vs1 vs2) = true ∧
    lengthOf (firstWord 0x21 vd vs1 vs2) = some 1 := by decide +kernel

theorem legalFirst_vpack8 : ∀ vd vs1 vs2 : VReg, legalFirst (firstWord 0x22 vd vs1 vs2) = true ∧
    lengthOf (firstWord 0x22 vd vs1 vs2) = some 1 := by decide +kernel

theorem legalFirst_vmullo : ∀ vd vs1 vs2 : VReg, legalFirst (firstWord 0x23 vd vs1 vs2) = true ∧
    lengthOf (firstWord 0x23 vd vs1 vs2) = some 1 := by decide +kernel

theorem legalFirst_cm4x4 : legalFirst (firstWord 0x30 0 0 0) = true ∧ lengthOf (firstWord 0x30 0 0 0) = some 5 := by
  decide

theorem legalFirst_cm3x3 : legalFirst (firstWord 0x31 0 0 0) = true ∧ lengthOf (firstWord 0x31 0 0 0) = some 5 := by
  decide

theorem legalFirst_cmdot : legalFirst (firstWord 0x32 0 0 0) = true ∧ lengthOf (firstWord 0x32 0 0 0) = some 5 := by
  decide

theorem legalFirst_conv3x3 : legalFirst (firstWord 0x40 0 0 0) = true ∧ lengthOf (firstWord 0x40 0 0 0) = some 7 := by
  decide

theorem legalFirst_conv5x5 : legalFirst (firstWord 0x41 0 0 0) = true ∧ lengthOf (firstWord 0x41 0 0 0) = some 9 := by
  decide

/-- A first word that is legal and gives the command's length makes it well formed. -/
theorem EncodeLegal.intro (i : Instr) (hl : legalFirst (encode i).first = true)
    (hn : lengthOf (encode i).first = some ((encode i).operands.length + 1))
    (hw : (encode i).operands.length + 1 ∈ [1, 2, 5, 7, 9]) : EncodeLegal.Statement i :=
  ⟨by simp [Command.wellFormed, hl, hn], rfl, hw⟩

theorem EncodeLegal.endStream : EncodeLegal.Statement .endStream :=
  EncodeLegal.intro _ (by decide) (by decide) (by simp [encode])

theorem EncodeLegal.nop : EncodeLegal.Statement .nop :=
  EncodeLegal.intro _ (by decide) (by decide) (by simp [encode])

theorem EncodeLegal.vld (vd : VReg) (addr : Word) : EncodeLegal.Statement (.vld vd addr) :=
  EncodeLegal.intro _ (legalFirst_vld vd).1 (legalFirst_vld vd).2 (by simp [encode])

theorem EncodeLegal.vst (vs1 : VReg) (addr : Word) : EncodeLegal.Statement (.vst vs1 addr) :=
  EncodeLegal.intro _ (legalFirst_vst vs1).1 (legalFirst_vst vs1).2 (by simp [encode])

theorem EncodeLegal.vwiden (vd vs1 : VReg) : EncodeLegal.Statement (.vwiden vd vs1) :=
  EncodeLegal.intro _ (legalFirst_vwiden vd vs1).1 (legalFirst_vwiden vd vs1).2 (by simp [encode])

theorem EncodeLegal.vnarrow16 (vd vs1 vs2 : VReg) : EncodeLegal.Statement (.vnarrow16 vd vs1 vs2) :=
  EncodeLegal.intro _ (legalFirst_vnarrow16 vd vs1 vs2).1 (legalFirst_vnarrow16 vd vs1 vs2).2 (by simp [encode])

theorem EncodeLegal.vpack8 (vd vs1 vs2 : VReg) : EncodeLegal.Statement (.vpack8 vd vs1 vs2) :=
  EncodeLegal.intro _ (legalFirst_vpack8 vd vs1 vs2).1 (legalFirst_vpack8 vd vs1 vs2).2 (by simp [encode])

theorem EncodeLegal.vmullo (vd vs1 vs2 : VReg) : EncodeLegal.Statement (.vmullo vd vs1 vs2) :=
  EncodeLegal.intro _ (legalFirst_vmullo vd vs1 vs2).1 (legalFirst_vmullo vd vs1 vs2).2 (by simp [encode])

theorem EncodeLegal.cm4x4 (dst src coef count : Word) : EncodeLegal.Statement (.cm4x4 dst src coef count) :=
  EncodeLegal.intro _ legalFirst_cm4x4.1 legalFirst_cm4x4.2 (by simp [encode])

theorem EncodeLegal.cm3x3 (dst src coef count : Word) : EncodeLegal.Statement (.cm3x3 dst src coef count) :=
  EncodeLegal.intro _ legalFirst_cm3x3.1 legalFirst_cm3x3.2 (by simp [encode])

theorem EncodeLegal.cmdot (dst src coef count : Word) : EncodeLegal.Statement (.cmdot dst src coef count) :=
  EncodeLegal.intro _ legalFirst_cmdot.1 legalFirst_cmdot.2 (by simp [encode])

theorem EncodeLegal.conv3x3 (dst row0 row1 row2 coef count : Word) : EncodeLegal.Statement (.conv3x3 dst row0 row1 row2 coef count) :=
  EncodeLegal.intro _ legalFirst_conv3x3.1 legalFirst_conv3x3.2 (by simp [encode])

theorem EncodeLegal.conv5x5 (dst row0 row1 row2 row3 row4 coef count : Word) : EncodeLegal.Statement (.conv5x5 dst row0 row1 row2 row3 row4 coef count) :=
  EncodeLegal.intro _ legalFirst_conv5x5.1 legalFirst_conv5x5.2 (by simp [encode])

end Sys2Proof.Laws
end

