-- ==== Sys2Proof/Laws/Step.lean ====
section
/-! SUPPORT. All that one command, one host action and one step can do, said once. -/

namespace Sys2Proof.Machine

theorem execCm4x4_next_iff (dst src cb count : Word) (s t : State) :
    exec (.cm4x4 dst src cb count) s = .next t ↔ colourMatrix f4x4 dst src cb count s = .ok t := outcome_next_iff _ _

theorem execCm3x3_next_iff (dst src cb count : Word) (s t : State) :
    exec (.cm3x3 dst src cb count) s = .next t ↔ colourMatrix f3x3 dst src cb count s = .ok t := outcome_next_iff _ _

theorem execCmdot_next_iff (dst src cb count : Word) (s t : State) :
    exec (.cmdot dst src cb count) s = .next t ↔ colourMatrix fDot dst src cb count s = .ok t := outcome_next_iff _ _

theorem execConv3x3_next_iff (dst r0 r1 r2 cb count : Word) (s t : State) :
    exec (.conv3x3 dst r0 r1 r2 cb count) s = .next t ↔ convolution 3 7 dst [r0, r1, r2] cb count s = .ok t :=
  outcome_next_iff _ _

theorem execConv5x5_next_iff (dst r0 r1 r2 r3 r4 cb count : Word) (s t : State) :
    exec (.conv5x5 dst r0 r1 r2 r3 r4 cb count) s = .next t ↔
      convolution 5 9 dst [r0, r1, r2, r3, r4] cb count s = .ok t := outcome_next_iff _ _

theorem execVwiden_next_iff (vd vs1 : VReg) (s t : State) :
    exec (.vwiden vd vs1) s = .next t ↔ s.written[vs1] = true ∧
      t = State.advance (State.setV s vd (widen s.v[vs1])) 1 :=
  (outcome_next_iff _ _).trans (unaryV_ok_iff _ _ _ _ _)

theorem execVnarrow16_next_iff (vd vs1 vs2 : VReg) (s t : State) :
    exec (.vnarrow16 vd vs1 vs2) s = .next t ↔ s.written[vs1] = true ∧ s.written[vs2] = true ∧
      t = State.advance (State.setV s vd (narrow16 s.v[vs1] s.v[vs2])) 1 :=
  (outcome_next_iff _ _).trans (binaryV_ok_iff _ _ _ _ _ _)

theorem execVpack8_next_iff (vd vs1 vs2 : VReg) (s t : State) :
    exec (.vpack8 vd vs1 vs2) s = .next t ↔ s.written[vs1] = true ∧ s.written[vs2] = true ∧
      t = State.advance (State.setV s vd (narrow8 s.v[vs1] s.v[vs2])) 1 :=
  (outcome_next_iff _ _).trans (binaryV_ok_iff _ _ _ _ _ _)

theorem execVmullo_next_iff (vd vs1 vs2 : VReg) (s t : State) :
    exec (.vmullo vd vs1 vs2) s = .next t ↔ s.written[vs1] = true ∧ s.written[vs2] = true ∧
      t = State.advance (State.setV s vd (mulLow s.v[vs1] s.v[vs2])) 1 :=
  (outcome_next_iff _ _).trans (binaryV_ok_iff _ _ _ _ _ _)

/-- The memory part of what a command can do: bytes outside its write accesses stay, and a legal memory stays legal. -/
def MemStep (i : Instr) (m m' : Mem) : Prop :=
  (∀ q, (∀ acc ∈ dataAccesses i, acc.write = true → q < acc.addr ∨ acc.addr + acc.n ≤ q) →
    Mem.read m' q = Mem.read m q) ∧
  (Mem.wf m = true → Mem.inSpace m = true → Mem.wf m' = true ∧ Mem.inSpace m' = true)

/-- Everything a command can do when it completes: END ends the run; a vector command writes its destination register;
any other command changes memory, by its write accesses only, and the latch. CMDPTR advances by the command's words. -/
theorem exec_next_cases (i : Instr) (s t : State) (h : exec i s = .next t) :
    (i = .endStream ∧ t = State.endRun (State.advance s 1)) ∨
    (i ≠ .endStream ∧ ∃ vd x, vectorDest i = some vd ∧ t = State.advance (State.setV s vd x) i.words) ∨
    (i ≠ .endStream ∧ vectorDest i = none ∧ ∃ c m, MemStep i s.mem m ∧
      t = State.advance { s with latch := c, mem := m } i.words) := by
  have hstay : ∀ i, MemStep i s.mem s.mem := fun i => ⟨fun _ _ => rfl, fun hw hs => ⟨hw, hs⟩⟩
  cases i with
  | endStream =>
    exact .inl ⟨rfl, (Host.Outcome.next.inj h).symm⟩
  | nop =>
    have h := Host.Outcome.next.inj h
    subst h
    exact .inr (.inr ⟨by simp, rfl, s.latch, s.mem, hstay _, rfl⟩)
  | vld vd addr =>
    obtain ⟨_, rfl⟩ := (execVld_next_iff _ _ _ _).mp h
    exact .inr (.inl ⟨by simp, vd, _, rfl, rfl⟩)
  | vst vs1 addr =>
    obtain ⟨_, hc, rfl⟩ := (execVst_next_iff _ _ _ _).mp h
    refine .inr (.inr ⟨by simp, rfl, s.latch, _, ⟨fun q hq => ?_, fun hw hs => ?_⟩, rfl⟩)
    · exact Mem.read_writeLE_outside _ _ _ _ _ (hq ⟨true, addr.toNat, 16⟩ (by simp [dataAccesses]) rfl)
    · exact memWrite_legal _ _ _ _ _ _ (memWrite_of_check _ _ _ _ _ hc) hw hs
  | vwiden vd vs1 =>
    obtain ⟨_, rfl⟩ := (execVwiden_next_iff _ _ _ _).mp h
    exact .inr (.inl ⟨by simp, vd, _, rfl, rfl⟩)
  | vnarrow16 vd vs1 vs2 =>
    obtain ⟨_, _, rfl⟩ := (execVnarrow16_next_iff _ _ _ _ _).mp h
    exact .inr (.inl ⟨by simp, vd, _, rfl, rfl⟩)
  | vpack8 vd vs1 vs2 =>
    obtain ⟨_, _, rfl⟩ := (execVpack8_next_iff _ _ _ _ _).mp h
    exact .inr (.inl ⟨by simp, vd, _, rfl, rfl⟩)
  | vmullo vd vs1 vs2 =>
    obtain ⟨_, _, rfl⟩ := (execVmullo_next_iff _ _ _ _ _).mp h
    exact .inr (.inl ⟨by simp, vd, _, rfl, rfl⟩)
  | cm4x4 dst src cb count =>
    obtain ⟨ht, _, hout, hleg⟩ := colourMatrix_result _ _ _ _ _ _ _ ((execCm4x4_next_iff _ _ _ _ _ _).mp h)
    exact .inr (.inr ⟨by simp, rfl, _, t.mem,
      ⟨fun q hq => hout q (hq ⟨true, _, _⟩ (by simp [dataAccesses, matrixAccesses]) rfl), hleg⟩, ht⟩)
  | cm3x3 dst src cb count =>
    obtain ⟨ht, _, hout, hleg⟩ := colourMatrix_result _ _ _ _ _ _ _ ((execCm3x3_next_iff _ _ _ _ _ _).mp h)
    exact .inr (.inr ⟨by simp, rfl, _, t.mem,
      ⟨fun q hq => hout q (hq ⟨true, _, _⟩ (by simp [dataAccesses, matrixAccesses]) rfl), hleg⟩, ht⟩)
  | cmdot dst src cb count =>
    obtain ⟨ht, _, hout, hleg⟩ := colourMatrix_result _ _ _ _ _ _ _ ((execCmdot_next_iff _ _ _ _ _ _).mp h)
    exact .inr (.inr ⟨by simp, rfl, _, t.mem,
      ⟨fun q hq => hout q (hq ⟨true, _, _⟩ (by simp [dataAccesses, matrixAccesses]) rfl), hleg⟩, ht⟩)
  | conv3x3 dst r0 r1 r2 cb count =>
    obtain ⟨ht, _, hout, hleg⟩ :=
      convolution_result _ _ _ _ _ _ _ _ (by omega) ((execConv3x3_next_iff _ _ _ _ _ _ _ _).mp h)
    exact .inr (.inr ⟨by simp, rfl, _, t.mem,
      ⟨fun q hq => hout q (hq ⟨true, _, _⟩ (by simp [dataAccesses, convolutionAccesses]) rfl), hleg⟩, ht⟩)
  | conv5x5 dst r0 r1 r2 r3 r4 cb count =>
    obtain ⟨ht, _, hout, hleg⟩ :=
      convolution_result _ _ _ _ _ _ _ _ (by omega) ((execConv5x5_next_iff _ _ _ _ _ _ _ _ _ _).mp h)
    exact .inr (.inr ⟨by simp, rfl, _, t.mem,
      ⟨fun q hq => hout q (hq ⟨true, _, _⟩ (by simp [dataAccesses, convolutionAccesses]) rfl), hleg⟩, ht⟩)

/-- An engine step goes on exactly when no access of it meets what the host touched (R74). -/
theorem withAccesses_next_iff (s t : State) (accs : List Access) (k : State → Host.Outcome State Fault Refusal) :
    withAccesses s accs k = .next t ↔ clash s accs = none ∧ k (State.note s accs) = .next t := by
  unfold withAccesses
  cases clash s accs <;> simp

/-- All that an engine step can do when it completes: the illegal-command stop, or the fetched command. -/
theorem engineStep_next_iff (s t : State) :
    engineStep s = .next t ↔
      (∃ w, fetch s.platform s.mem s.cmdptr = .ok (.illegal w) ∧ clash s (wordAccesses s.cmdptr 1 0) = none ∧
        t = State.takeIllegal (State.note s (wordAccesses s.cmdptr 1 0))) ∨
      (∃ i, fetch s.platform s.mem s.cmdptr = .ok (.command i) ∧ clash s (footprint s.cmdptr i) = none ∧
        exec i (State.note s (footprint s.cmdptr i)) = .next t) := by
  unfold engineStep
  cases hf : fetch s.platform s.mem s.cmdptr with
  | error f => simp
  | ok r =>
    cases r with
    | illegal w =>
      simp only [withAccesses_next_iff, Host.Outcome.next.injEq, Except.ok.injEq, Fetched.illegal.injEq, reduceCtorEq,
        false_and, exists_false, or_false, exists_eq_left']
      exact and_congr_right fun _ => eq_comm
    | command i => simp [withAccesses_next_iff]

/-- All that a host action can do when it completes: reset an idle core, read or write a register of the window or of another
core's, read or write data memory no unacknowledged engine access conflicts with. -/
theorem hostTurn_next_cases (op : HostOp) (s t : State) (h : hostTurn op s = .next t) :
    (op = .reset ∧ s.busy = false ∧ t = State.hostReset s) ∨
    (∃ addr w r, op = .read addr w ∧ hostTarget s.platform addr w = .ok (.own r) ∧ t = hostRegRead s r) ∨
    (∃ addr w x r, op = .write addr w x ∧ hostTarget s.platform addr w = .ok (.own r) ∧ t = writeReg s r x) ∨
    (∃ addr w r, op = .read addr w ∧ hostTarget s.platform addr w = .ok (.other r) ∧ t = otherRead s r) ∨
    (∃ addr w x r, op = .write addr w x ∧ hostTarget s.platform addr w = .ok (.other r) ∧ t = s) ∨
    (∃ addr w, op = .read addr w ∧ hostTarget s.platform addr w = .ok .memory ∧
      hostMemory s ⟨false, addr.toNat, widthBytes w⟩
        { s with hostData := BitVec.ofNat 32 (Mem.readLE s.mem addr.toNat (widthBytes w)) } = .next t) ∨
    (∃ addr w x, op = .write addr w x ∧ hostTarget s.platform addr w = .ok .memory ∧
      hostMemory s ⟨true, addr.toNat, widthBytes w⟩
        { s with mem := Mem.writeLE s.mem addr.toNat (widthBytes w) x.toNat } = .next t) := by
  cases op with
  | reset =>
    simp only [hostTurn] at h
    split at h
    · simp at h
    · next hb => exact .inl ⟨rfl, by simpa using hb, (Host.Outcome.next.inj h).symm⟩
  | read addr w =>
    simp only [hostTurn] at h
    split at h
    · simp at h
    · next r hr => exact .inr (.inl ⟨addr, w, r, rfl, hr, (Host.Outcome.next.inj h).symm⟩)
    · next r hr =>
      exact .inr (.inr (.inr (.inl ⟨addr, w, r, rfl, hr, (Host.Outcome.next.inj h).symm⟩)))
    · next hr => exact .inr (.inr (.inr (.inr (.inr (.inl ⟨addr, w, rfl, hr, h⟩)))))
  | write addr w x =>
    simp only [hostTurn] at h
    split at h
    · simp at h
    · next r hr => exact .inr (.inr (.inl ⟨addr, w, x, r, rfl, hr, (Host.Outcome.next.inj h).symm⟩))
    · next r hr =>
      exact .inr (.inr (.inr (.inr (.inl ⟨addr, w, x, r, rfl, hr, (Host.Outcome.next.inj h).symm⟩))))
    · next hr => exact .inr (.inr (.inr (.inr (.inr (.inr ⟨addr, w, x, rfl, hr, h⟩)))))

/-- All that a host access to data memory can do when it completes. -/
theorem hostMemory_next_iff (s s' t : State) (acc : Access) :
    hostMemory s acc s' = .next t ↔ s.used.any (fun x => conflicts x acc) = false ∧
      t = if s.busy then { s' with touched := acc :: s.touched } else s' := by
  unfold hostMemory
  cases s.used.any (fun x => conflicts x acc) with
  | true => simp
  | false =>
    simp only [Bool.false_eq_true, if_false, Host.Outcome.next.injEq, true_and]
    exact eq_comm

/-- What an access meeting a window can reach: a register of that window, by an aligned 32-bit access. -/
theorem windowTarget_ok_iff (base addr : Word) (w : Width) (k : WindowReg → HostTarget) (x : HostTarget) :
    windowTarget base addr w k = .ok x ↔
      w = .word ∧ addr.toNat % 4 = 0 ∧ ∃ r, windowReg (addr - base) = some r ∧ x = k r := by
  unfold windowTarget
  split
  · next h => cases windowReg (addr - base) <;> simp [h, eq_comm]
  · next h => simpa using fun a b => absurd ⟨a, b⟩ h

/-- Another core's window is found exactly when the range meets one. -/
theorem otherWindow_none_iff (p : Platform) (a n : Nat) : otherWindow p a n = none ↔ meetsOtherWindow p a n = false := by
  simp [otherWindow, meetsOtherWindow]

/-- A host access reaches data memory exactly when it meets no register window and every byte of it is valid memory. -/
theorem hostTarget_memory_iff (p : Platform) (addr : Word) (w : Width) :
    hostTarget p addr w = .ok .memory ↔ check p addr.toNat (widthBytes w) = true := by
  unfold hostTarget check
  cases ho : otherWindow p addr.toNat (widthBytes w) with
  | none =>
    rw [otherWindow_none_iff] at ho
    cases meetsOwnWindow p addr.toNat (widthBytes w) <;> simp [ho, windowTarget_ok_iff]
  | some b =>
    have hm : meetsOtherWindow p addr.toNat (widthBytes w) = true := by
      cases h : meetsOtherWindow p addr.toNat (widthBytes w) with
      | true => rfl
      | false => rw [(otherWindow_none_iff _ _ _).mpr h] at ho; cases ho
    cases meetsOwnWindow p addr.toNat (widthBytes w) <;> simp [hm, windowTarget_ok_iff]

/-- A host access to data memory lies in the address space. -/
theorem hostTarget_memory (p : Platform) (addr : Word) (w : Width) (h : hostTarget p addr w = .ok .memory) :
    addr.toNat + widthBytes w ≤ 2 ^ 32 := by
  have hc := (hostTarget_memory_iff _ _ _).mp h
  simp only [check, Bool.and_eq_true, decide_eq_true_eq] at hc
  exact hc.1.1.1

/-- All that a step can do when it completes: nothing on the engine's turn while idle, an engine step, or a host action. -/
theorem step_next_cases (s t : State) (h : step s = .next t) :
    ((∀ op ts, s.turns ≠ .host op :: ts) ∧ s.busy = false ∧ t = { s with turns := s.turns.tail }) ∨
    ((∀ op ts, s.turns ≠ .host op :: ts) ∧ s.busy = true ∧ engineStep { s with turns := s.turns.tail } = .next t) ∨
    (∃ op ts, s.turns = .host op :: ts ∧ hostTurn op { s with turns := ts } = .next t) := by
  unfold step engineTurn at h
  split at h
  · next hts =>
    have hs : { s with turns := s.turns.tail } = s := by rw [hts, List.tail_nil, ← hts]
    split at h
    · next hb => exact .inr (.inl ⟨by simp [hts], hb, by rw [hs]; exact h⟩)
    · next hb => exact .inl ⟨by simp [hts], by simpa using hb, by rw [hs]; exact (Host.Outcome.next.inj h).symm⟩
  · next ts hts =>
    split at h
    · next hb => exact .inr (.inl ⟨by simp [hts], hb, by rw [hts]; exact h⟩)
    · next hb =>
      exact .inl ⟨by simp [hts], by simpa using hb, by rw [hts]; exact (Host.Outcome.next.inj h).symm⟩
  · next op ts hts => exact .inr (.inr ⟨op, ts, hts, h⟩)

end Sys2Proof.Machine
end

