-- ==== Sys2Proof/Machine/Assembler.lean ====
section
/-! DEFINITION. Reading the assembler syntax of the spec (R102, R103): text to command-stream words. It is no part of the
machine's step; `assembly` of Decode.lean prints a command. -/

namespace Sys2Proof

/-- The pieces of a text between a separator. -/
def splitText (c : Char) : List Char → List (List Char)
  | [] => [[]]
  | x :: xs =>
    if x = c then [] :: splitText c xs
    else
      match splitText c xs with
      | [] => [[x]]
      | w :: ws => (x :: w) :: ws

/-- Space between tokens. -/
def isBlank (c : Char) : Bool := c == ' ' || c == '\t' || c == '\r'

/-- A text without the blanks at its two ends. -/
def trimText (t : List Char) : List Char := ((t.dropWhile isBlank).reverse.dropWhile isBlank).reverse

/-- The value of a digit of a base up to 16. -/
def digitValue (base : Nat) (c : Char) : Option Nat :=
  let n := c.toNat
  let d := if 48 ≤ n ∧ n ≤ 57 then n - 48 else if 97 ≤ n ∧ n ≤ 102 then n - 87 else if 65 ≤ n ∧ n ≤ 70 then n - 55 else 16
  if d < base then some d else none

/-- The number that digits write after `acc`. -/
def readDigits (base : Nat) : List Char → Nat → Option Nat
  | [], acc => some acc
  | c :: cs, acc =>
    match digitValue base c with
    | some d => readDigits base cs (acc * base + d)
    | none => none

/-- A number as a word, when it fits 32 bits. -/
def wordOf (n : Nat) : Option Word := if n < 2 ^ 32 then some (BitVec.ofNat 32 n) else none

/-- An unsigned integer literal, decimal or 0x hex (R102). -/
def readLiteral : List Char → Option Word
  | '0' :: 'x' :: c :: cs => (readDigits 16 (c :: cs) 0).bind wordOf
  | [] => none
  | c :: cs => (readDigits 10 (c :: cs) 0).bind wordOf

/-- A label's name: a letter or underscore, then letters, digits and underscores. DESIGN CHOICE (log entry 21). -/
def isLabel : List Char → Bool
  | [] => false
  | c :: cs => (c.isAlpha || c == '_') && cs.all fun d => d.isAlphanum || d == '_'

/-- A word to emit: a value, or a label standing for an address (R102). -/
inductive AsmWord where
  | value (w : Word)
  | label (name : List Char)
deriving DecidableEq, Repr

/-- An address, a count or the operand of `.word` (R102). -/
def readOperand (t : List Char) : Option AsmWord :=
  match readLiteral t with
  | some w => some (.value w)
  | none => if isLabel t then some (.label t) else none

/-- A register operand, v0 to v7 (R102). -/
def readRegister : List Char → Option VReg
  | ['v', d] => (digitValue 8 d).map fun n => Fin.ofNat 8 n
  | _ => none

/-- Every operand of a list. -/
def readOperands : List (List Char) → Option (List AsmWord)
  | [] => some []
  | t :: ts =>
    match readOperand t, readOperands ts with
    | some w, some ws => some (w :: ws)
    | _, _ => none

/-- The words of a command whose operands are `n` operand words (R103). -/
def readWordCommand (n : Nat) (i : Instr) (operands : List (List Char)) : Option (List AsmWord) :=
  if operands.length = n then (readOperands operands).map fun ws => .value (encode i).first :: ws else none

/-- The word of a command with three register operands (R103). -/
def readTwoSources (f : VReg → VReg → VReg → Instr) (d lo hi : List Char) : Option (List AsmWord) := do
  let vd ← readRegister d
  let vs1 ← readRegister lo
  let vs2 ← readRegister hi
  some [.value (encode (f vd vs1 vs2)).first]

/-- The words that a mnemonic and its operands emit (R102, R103); none for anything R103 does not list. -/
def readCommand (mnemonic : String) (operands : List (List Char)) : Option (List AsmWord) :=
  match mnemonic, operands with
  | ".word", [x] => (readOperand x).map fun w => [w]
  | "end", [] => some [.value (encode .endStream).first]
  | "nop", [] => some [.value (encode .nop).first]
  | "vld", [d, a] => do
    let vd ← readRegister d
    let x ← readOperand a
    some [.value (encode (.vld vd 0#32)).first, x]
  | "vst", [r, a] => do
    let vs1 ← readRegister r
    let x ← readOperand a
    some [.value (encode (.vst vs1 0#32)).first, x]
  | "vwiden", [d, r] => do
    let vd ← readRegister d
    let vs1 ← readRegister r
    some [.value (encode (.vwiden vd vs1)).first]
  | "vnarrow16", [d, lo, hi] => readTwoSources .vnarrow16 d lo hi
  | "vpack8", [d, lo, hi] => readTwoSources .vpack8 d lo hi
  | "vmullo", [d, a, b] => readTwoSources .vmullo d a b
  | "cm4x4", ops => readWordCommand 4 (.cm4x4 0#32 0#32 0#32 0#32) ops
  | "cm3x3", ops => readWordCommand 4 (.cm3x3 0#32 0#32 0#32 0#32) ops
  | "cmdot", ops => readWordCommand 4 (.cmdot 0#32 0#32 0#32 0#32) ops
  | "conv3x3", ops => readWordCommand 6 (.conv3x3 0#32 0#32 0#32 0#32 0#32 0#32) ops
  | "conv5x5", ops => readWordCommand 8 (.conv5x5 0#32 0#32 0#32 0#32 0#32 0#32 0#32 0#32) ops
  | _, _ => none

/-- A line without its label: nothing, or a mnemonic, blanks and operands separated by commas (R102). -/
def readStatement (t : List Char) : Option (List AsmWord) :=
  match trimText t with
  | [] => some []
  | u =>
    let rest := trimText (u.dropWhile fun c => !isBlank c)
    readCommand (String.ofList (u.takeWhile fun c => !isBlank c))
      (if rest.isEmpty then [] else (splitText ',' rest).map trimText)

/-- A line: its comment dropped, its label if it has one, its words (R102). -/
def readLine (t : List Char) : Option (Option (List Char) × List AsmWord) :=
  match splitText ':' (t.takeWhile (· != '#')) with
  | [s] => (readStatement s).map fun ws => (none, ws)
  | [l, s] => if isLabel (trimText l) then (readStatement s).map fun ws => (some (trimText l), ws) else none
  | _ => none

/-- Every line of a text. -/
def readLines : List (List Char) → Option (List (Option (List Char) × List AsmWord))
  | [] => some []
  | t :: ts =>
    match readLine t, readLines ts with
    | some l, some ls => some (l :: ls)
    | _, _ => none

/-- The address of every label, the first line's words lying from `a` on (R102); none when a label is defined twice. -/
def labelAddresses (a : Word) : List (Option (List Char) × List AsmWord) → Option (List (List Char × Word))
  | [] => some []
  | (l, ws) :: rest =>
    match labelAddresses (a + BitVec.ofNat 32 (4 * ws.length)) rest, l with
    | some table, none => some table
    | some table, some name => if (table.lookup name).isSome then none else some ((name, a) :: table)
    | none, _ => none

/-- The values of the words, labels replaced by their addresses; none for a label that is not defined. -/
def resolve (table : List (List Char × Word)) : List AsmWord → Option (List Word)
  | [] => some []
  | w :: ws =>
    let x := match w with
      | .value v => some v
      | .label name => table.lookup name
    match x, resolve table ws with
    | some v, some vs => some (v :: vs)
    | _, _ => none

/-- The command-stream words of an assembler text whose first word lies at `base` (R102, R103); none for a text that R102
and R103 do not give. -/
def assembleText (base : Word) (source : String) : Option (List Word) := do
  let lines ← readLines (splitText '\n' source.toList)
  let table ← labelAddresses base lines
  resolve table (lines.flatMap fun l => l.2)

end Sys2Proof
end

