-- ==== Sys2Proof/Tests/Slice0.lean ====
section
/-! SUPPORT. Small tests of the model on the vectors of the spec (`95_test_vectors.md`), the decode tests and the
well-formedness smoke tests. Every expected value is the spec's. -/

namespace Sys2Proof.Tests

open Sys2Proof.Machine

/-- Store bytes from an address on. -/
def store (m : Mem) (a : Nat) : List Nat → Mem
  | [] => m
  | b :: bs => store (Mem.write m a (BitVec.ofNat 8 b)) (a + 1) bs

/-- A memory holding these runs of bytes. -/
def memOf : List (Nat × List Nat) → Mem
  | [] => []
  | (a, bs) :: rest => store (memOf rest) a bs

/-- The reset state with these bytes in memory, CMDPTR at 0x1000 and the engine running. -/
def ready (blocks : List (Nat × List Nat)) : State :=
  { State.reset with cmdptr := 0x1000#32, busy := true, mem := memOf blocks }

/-- The next state of an outcome. -/
def nextOf (o : Host.Outcome State Fault Refusal) : Option State :=
  match o with
  | .next s => some s
  | .fault _ => none
  | .refused _ => none

/-- The fault of an outcome. -/
def faultOf (o : Host.Outcome State Fault Refusal) : Option Fault :=
  match o with
  | .next _ => none
  | .fault f => some f
  | .refused _ => none

/-- The refusal of an outcome. -/
def refusalOf (o : Host.Outcome State Fault Refusal) : Option Refusal :=
  match o with
  | .next _ => none
  | .fault _ => none
  | .refused r => some r

/-- `n` bytes of memory from an address on. -/
def bytesAt (s : State) (a n : Nat) : List Nat := (List.range n).map fun j => (Mem.read s.mem (a + j)).toNat

/-! Well-formedness: one ill-formed command for each check (R95, R98), which the check and the decoder refuse. -/

theorem test_wf_unassigned_opcode : Command.wellFormed ⟨0x00000000#32, []⟩ = false ∧
    decodeCommand ⟨0x00000000#32, []⟩ = none := by decide -- T1

theorem test_wf_vd_must_be_zero : Command.wellFormed ⟨0x00000101#32, []⟩ = false ∧
    decodeCommand ⟨0x00000101#32, []⟩ = none := by decide -- T3

theorem test_wf_vs1_must_be_zero : Command.wellFormed ⟨0x00000810#32, [0#32]⟩ = false ∧
    decodeCommand ⟨0x00000810#32, [0#32]⟩ = none := by decide -- T7

theorem test_wf_vs2_must_be_zero : Command.wellFormed ⟨0x00004120#32, []⟩ = false ∧
    decodeCommand ⟨0x00004120#32, []⟩ = none := by decide -- T11a

theorem test_wf_reserved_must_be_zero : Command.wellFormed ⟨0x00020021#32, []⟩ = false ∧
    decodeCommand ⟨0x00020021#32, []⟩ = none := by decide -- T11

theorem test_wf_operand_count : Command.wellFormed ⟨0x00000710#32, []⟩ = false ∧
    decodeCommand ⟨0x00000710#32, []⟩ = none := by decide -- R95

theorem test_wf_legal : Command.wellFormed ⟨0x0001FF23#32, []⟩ = true ∧
    Command.wellFormed ⟨0x00003811#32, [0x3000#32]⟩ = true := by decide -- T10, T8

/-- T5, T9, T11b, T11c: further illegal first words. -/
theorem test_illegal_words :
    [0x80000002#32, 0x00000111#32, 0x00000130#32, 0x00000003#32, 0x00000012#32, 0x00000024#32, 0x00000033#32,
      0x00000042#32, 0x000000FF#32].all (fun w => rowOf w == none && !legalFirst w) = true := by decide

/-! Decoding: a word of each command written out field by field (RSV, VS2, VS1, VD, OP) from R91, R94, R103. -/

theorem test_decode_end : decodeCommand ⟨0b000000000000000_000_000_000_00000001#32, []⟩ = some .endStream := by decide

theorem test_decode_nop : decodeCommand ⟨0b000000000000000_000_000_000_00000010#32, []⟩ = some .nop := by decide

theorem test_decode_vld : decodeCommand ⟨0b000000000000000_000_000_101_00010000#32, [0x2000#32]⟩ =
    some (.vld 5 0x2000#32) := by decide

theorem test_decode_vst : decodeCommand ⟨0b000000000000000_000_101_000_00010001#32, [0x3000#32]⟩ =
    some (.vst 5 0x3000#32) := by decide

theorem test_decode_vwiden : decodeCommand ⟨0b000000000000000_000_110_001_00100000#32, []⟩ =
    some (.vwiden 1 6) := by decide

theorem test_decode_vnarrow16 : decodeCommand ⟨0b000000000000000_001_011_100_00100001#32, []⟩ =
    some (.vnarrow16 4 3 1) := by decide

theorem test_decode_vpack8 : decodeCommand ⟨0b000000000000000_100_110_101_00100010#32, []⟩ =
    some (.vpack8 5 6 4) := by decide

theorem test_decode_vmullo : decodeCommand ⟨0b000000000000000_010_001_011_00100011#32, []⟩ =
    some (.vmullo 3 1 2) := by decide

theorem test_decode_cm4x4 :
    decodeCommand ⟨0b000000000000000_000_000_000_00110000#32, [1#32, 2#32, 3#32, 4#32]⟩ =
      some (.cm4x4 1#32 2#32 3#32 4#32) := by decide

theorem test_decode_cm3x3 :
    decodeCommand ⟨0b000000000000000_000_000_000_00110001#32, [1#32, 2#32, 3#32, 4#32]⟩ =
      some (.cm3x3 1#32 2#32 3#32 4#32) := by decide

theorem test_decode_cmdot :
    decodeCommand ⟨0b000000000000000_000_000_000_00110010#32, [1#32, 2#32, 3#32, 4#32]⟩ =
      some (.cmdot 1#32 2#32 3#32 4#32) := by decide

theorem test_decode_conv3x3 :
    decodeCommand ⟨0b000000000000000_000_000_000_01000000#32, [1#32, 2#32, 3#32, 4#32, 5#32, 6#32]⟩ =
      some (.conv3x3 1#32 2#32 3#32 4#32 5#32 6#32) := by decide

theorem test_decode_conv5x5 :
    decodeCommand ⟨0b000000000000000_000_000_000_01000001#32,
        [1#32, 2#32, 3#32, 4#32, 5#32, 6#32, 7#32, 8#32]⟩ =
      some (.conv5x5 1#32 2#32 3#32 4#32 5#32 6#32 7#32 8#32) := by decide

/-- The bytes of `vld v5, 0x2000` as they lie in memory (R63, R97), and what follows them is left over. -/
theorem test_decode_bytes :
    decode [0x10#8, 0x05#8, 0x00#8, 0x00#8, 0x00#8, 0x20#8, 0x00#8, 0x00#8, 0xAA#8] =
      .ok (.vld 5 0x2000#32, [0xAA#8]) := by rfl

/-- R97's examples, encoded. -/
theorem test_encode_examples :
    encode (.vwiden 1 0) = ⟨0x00000120#32, []⟩ ∧ encode (.vmullo 3 1 2) = ⟨0x00008B23#32, []⟩ ∧
      (encode (.vld 5 0#32)).first = 0x00000510#32 ∧ (encode (.vst 5 0#32)).first = 0x00002811#32 := by decide

theorem test_decodeTableWord : decodeTableWord 32 0x00008B23 = some (.vmullo 3 1 2) ∧
    decodeTableWord 32 0x31 = some (.cm3x3 0#32 0#32 0#32 0#32) ∧ decodeTableWord 32 0 = none := by decide

/-- R103. -/
theorem test_assembly : assembly (.vnarrow16 4 3 1) = "vnarrow16 v4, v3, v1" ∧ assembly .endStream = "end" := by decide

/-- R102, R103: the text of P1 and its words, as the spec lists them. -/
theorem test_assemble_P1 : assembleText 0x1000#32 "        # CMDPTR = 0x1000
        vld       v0, 0x2000        # 8 x i16
        vwiden    v1, v0            # low 4 lanes -> i32
        vld       v2, 0x2010        # 4 x i32 multipliers
        vmullo    v3, v1, v2
        vnarrow16 v4, v3, v1        # lo = v3, hi = v1
        vpack8    v5, v4, v4
        vst       v5, 0x3000
        end
" = some [0x00000010#32, 0x00002000#32, 0x00000120#32, 0x00000210#32, 0x00002010#32, 0x00008B23#32, 0x00005C21#32,
      0x00012522#32, 0x00002811#32, 0x00003000#32, 0x00000001#32] := by decide +kernel

/-- P2's and P3's first commands, P4's illegal word, a label and a line that R103 does not list. -/
theorem test_assemble_words :
    assembleText 0#32 "cm3x3  0x3000, 0x2000, 0x2100, 2" =
      some [0x31#32, 0x3000#32, 0x2000#32, 0x2100#32, 2#32] ∧
    assembleText 0#32 "conv3x3 0x3000, 0x2000, 0x2010, 0x2020, 0x2100, 2" =
      some [0x40#32, 0x3000#32, 0x2000#32, 0x2010#32, 0x2020#32, 0x2100#32, 2#32] ∧
    assembleText 0x1000#32 "nop\n.word 0x00004120 # illegal\nend" = some [2#32, 0x4120#32, 1#32] ∧
    assembleText 0x1000#32 "vld v5, here\nhere: end" = some [0x510#32, 0x1008#32, 1#32] ∧
    assembleText 0#32 "vld v8, 0" = none ∧ assembleText 0#32 "vld v5, there" = none := by decide +kernel

/-! Sequencing. -/

/-- T1: the illegal-command stop. -/
theorem test_step_illegal : (nextOf (step (ready []))).map
    (fun s => (s.cmdptr, s.busy, s.done, s.err, s.errcode)) = some (0x1000#32, false, false, true, 1#4) := by decide

/-- T2. -/
theorem test_step_end_T2 : (nextOf (step (ready [(0x1000, [1, 0, 0, 0])]))).map
    (fun s => (s.cmdptr, s.busy, s.done, s.err)) = some (0x1004#32, false, true, false) := by decide

/-- T11f: END at the last word of memory wraps CMDPTR. -/
theorem test_end_wraps_T11f : (nextOf (exec .endStream { ready [] with cmdptr := 0xFFFFFFFC#32 })).map
    (fun s => (s.cmdptr, s.done)) = some (0#32, true) := by decide

/-- T4. -/
theorem test_step_nop_T4 : (nextOf (step (ready [(0x1000, [2, 0, 0, 0])]))).map
    (fun s => (s.cmdptr, s.busy)) = some (0x1004#32, true) := by decide

/-- T11e. -/
theorem test_nop_wraps_T11e : (nextOf (exec .nop { ready [] with cmdptr := 0xFFFFFFFC#32 })).map (·.cmdptr)
    = some 0#32 := by decide

/-- R33: a command at 0xFFFFFFFC of length 2 takes its operand word from address 0. -/
theorem test_fetch_wraps : fetch Platform.default (memOf [(0xFFFFFFFC, [0x10, 5, 0, 0]), (0, [0, 0x20, 0, 0])])
    0xFFFFFFFC#32 = .ok (.command (.vld 5 0x2000#32)) := by rfl

/-- The bits above `nbits` are dropped and the next step runs the instruction (P4's restart word). -/
theorem test_withFetchWord : (nextOf (step (State.withFetchWord State.reset 32 0x1FFFFFFFF00000002))).map
    (fun s => (s.cmdptr, s.busy)) = some (4#32, true) ∧
    (nextOf (step (State.withFetchWord State.reset 32 0x00000710))).map
      (fun s => (s.cmdptr, s.written[7])) = some (8#32, true) := by decide

/-! Lane primitives. -/

/-- T29a. -/
theorem test_vld_T29a : (nextOf (exec (.vld 0 0x2000#32)
    (ready [(0x2000, [0, 1, 2, 3, 4, 5, 6, 7, 8, 9, 10, 11, 12, 13, 14, 15])]))).map (fun s => (s.v[0], s.written[0]))
      = some (0x0F0E0D0C0B0A09080706050403020100#128, true) := by decide

/-- R141: sixteen bytes at 0xFFFFFFF1 would wrap. -/
theorem test_vld_wrap_is_violation : faultOf (exec (.vld 2 0xFFFFFFF1#32) (ready [])) =
    some (.contractViolation .access 0xFFFFFFF1 16) := by decide

/-- R142's example. -/
theorem test_vst_example : (nextOf (exec (.vst 5 0x3000#32) (State.setV (ready []) 5 0xFF0A0A0A#128))).map
    (fun s => bytesAt s 0x3000 5) = some [0x0A, 0x0A, 0x0A, 0xFF, 0] := by decide

/-- P5: the unwritten register faults before the access check. -/
theorem test_vst_unwritten_P5 : faultOf (exec (.vst 7 0xFFFFFFF1#32) (ready [])) = some (.unwrittenRegister 7) := by
  decide

/-- T20. -/
theorem test_vwiden_T20 :
    (nextOf (exec (.vwiden 1 0) (State.setV (ready []) 0 0xDEF09ABC56781234FFFF80007FFF0000#128))).map (fun s => s.v[1])
      = some 0xFFFFFFFFFFFF800000007FFF00000000#128 := by decide

/-- T29c. -/
theorem test_vwiden_T29c : faultOf (exec (.vwiden 2 6) (ready [])) = some (.unwrittenRegister 6) := by decide

/-- T22. -/
theorem test_vnarrow16_T22 : (nextOf (exec (.vnarrow16 4 3 1)
    (State.setV (State.setV (ready []) 3 0x000100000000FFFF00000000FFFFFFFB#128) 1 0xFFFFFFFF0000012C800000007FFFFFFF#128))).map
      (fun s => s.v[4]) = some 0x0000012C0000FFFFFFFFFFFF00000000#128 := by decide

/-- R145: VS1 is checked before VS2. -/
theorem test_vnarrow16_order : faultOf (exec (.vnarrow16 0 5 6) (ready [])) = some (.unwrittenRegister 5) := by decide

/-- T24. -/
theorem test_vpack8_T24 : (nextOf (exec (.vpack8 0 1 2)
    (State.setV (State.setV (ready []) 1 0x0080FFFF80007FFF010000FF00010000#128) 2 0x010000FF0003000203E8010000FF00FE#128))).map
      (fun s => s.v[0]) = some 0xFFFF0302FFFFFFFE80FFFFFFFFFF0100#128 := by decide

/-- T27. -/
theorem test_vmullo_T27 : (nextOf (exec (.vmullo 0 1 2)
    (State.setV (State.setV (ready []) 1 0xFFFFFFFF00010000800000007FFFFFFF#128) 2 0xFFFFFFFF00010000FFFFFFFF00000002#128))).map
      (fun s => s.v[0]) = some 0x000000010000000080000000FFFFFFFE#128 := by decide

/-- T29: the sources are read before the destination is written. -/
theorem test_vmullo_T29 : (nextOf (exec (.vmullo 1 1 1)
    (State.setV (ready []) 1 0x000000070001000000000002FFFFFFFF#128))).map
      (fun s => s.v[1]) = some 0x00000031000000000000000400000001#128 := by decide

/-! Colour matrix. -/

/-- The coefficients of T31, little-endian. -/
def coefsT31 : List Nat := [128,0,128,0,0,0,0,0, 0,255,0,0,0,0,0,0, 0,0,0,0,0,2,0,0, 1,0,1,0,1,0,1,0]

/-- T31. -/
theorem test_cm4x4_T31 : (nextOf (exec (.cm4x4 0x3000#32 0x2000#32 0x2100#32 1#32)
    (ready [(0x2000, [200, 50, 10, 255]), (0x2100, coefsT31)]))).map
      (fun s => (bytesAt s 0x3000 4, s.cmdptr)) = some ([125, 0, 20, 2], 0x1014#32) := by decide

/-- T45, on two pixels: the latched coefficients are used though the output lands on them. -/
theorem test_cm4x4_latch_T45 : (nextOf (exec (.cm4x4 0x2100#32 0x2000#32 0x2100#32 2#32)
    (ready [(0x2000, [1, 2, 3, 4, 5, 6, 7, 8]),
      (0x2100, [0,1,0,0,0,0,0,0, 0,0,0,1,0,0,0,0, 0,0,0,0,0,1,0,0, 0,0,0,0,0,0,0,1])]))).map
        (fun s => bytesAt s 0x2100 8) = some [1, 2, 3, 4, 5, 6, 7, 8] := by decide

/-- S1, P2's first command: blue extraction. -/
theorem test_cm3x3_S1 : (nextOf (exec (.cm3x3 0x3000#32 0x2000#32 0x2100#32 2#32)
    (ready [(0x2000, [200, 50, 10, 255, 0, 128, 255, 17]),
      (0x2100, [0,0,0,0,0,1,0,0, 0,0,0,0,0,1,0,0, 0,0,0,0,0,1,0,0, 0,0,0,0,0,0,0,0])]))).map
        (fun s => bytesAt s 0x3000 8) = some [10, 10, 10, 255, 255, 255, 255, 17] := by decide

/-- T43: a partial overlap. -/
theorem test_cm3x3_overlap_T43 : faultOf (exec (.cm3x3 0x2004#32 0x2000#32 0x2100#32 2#32) (ready [])) =
    some (.contractViolation .overlap 0x2004 8) := by decide

/-- T44: in place. -/
theorem test_cmdot_T44 : (nextOf (exec (.cmdot 0x2000#32 0x2000#32 0x2140#32 2#32)
    (ready [(0x2000, [200, 50, 10, 255, 0, 128, 255, 17]), (0x2140, [0x4D, 0, 0x96, 0, 0x1D, 0])]))).map
      (fun s => bytesAt s 0x2000 8) = some [90, 90, 90, 255, 103, 103, 103, 17] := by decide

/-- T41: a negative sum gives 0, channel 3 passes through. -/
theorem test_cmdot_T41 : (nextOf (exec (.cmdot 0x3000#32 0x2000#32 0x2140#32 1#32)
    (ready [(0x2000, [1, 0, 0, 3]), (0x2140, [0xFF, 0xFF])]))).map
      (fun s => bytesAt s 0x3000 4) = some [0, 0, 0, 3] := by decide

/-! Convolution. -/

/-- The rows and the sharpening kernel of T50 (P3). -/
def rowsT50 : List (Nat × List Nat) :=
  [ (0x2000, [10, 10, 10, 255, 20, 20, 20, 255, 30, 30, 30, 255, 40, 40, 40, 255]),
    (0x2010, [10, 0, 200, 255, 100, 50, 60, 255, 30, 200, 70, 255, 0, 0, 0, 0]),
    (0x2020, [0, 0, 0, 0, 5, 5, 5, 5, 60, 10, 0, 255, 1, 2, 3, 4]),
    (0x2100, [0, 0, 0, 0xFF, 0, 0, 0, 0xFF, 0, 5, 0, 0xFF, 0, 0, 0, 0xFF, 0, 0]) ]

/-- T50. -/
theorem test_conv3x3_T50 :
    (nextOf (exec (.conv3x3 0x3000#32 0x2000#32 0x2010#32 0x2020#32 0x2100#32 2#32) (ready rowsT50))).map
      (fun s => (bytesAt s 0x3000 8, s.cmdptr)) = some ([255, 25, 5, 255, 0, 255, 255, 255], 0x101C#32) := by decide +kernel

/-- T56: the destination meets row1's window. -/
theorem test_conv3x3_overlap_T56 :
    faultOf (exec (.conv3x3 0x2018#32 0x2000#32 0x2010#32 0x2020#32 0x2100#32 2#32) (ready rowsT50)) =
      some (.contractViolation .overlap 0x2018 8) := by decide

/-- Five pixels (10 i + j, 255, 0, 128), j = 0..4. -/
def rowT57 (i : Nat) : List Nat := (List.range 5).flatMap fun j => [10 * i + j, 255, 0, 128]

/-- T57. -/
theorem test_conv5x5_T57 : (nextOf (exec
    (.conv5x5 0x3000#32 0x2000#32 0x2020#32 0x2040#32 0x2060#32 0x2080#32 0x2100#32 1#32)
    (ready [(0x2000, rowT57 0), (0x2020, rowT57 1), (0x2040, rowT57 2), (0x2060, rowT57 3), (0x2080, rowT57 4),
      (0x2100, (List.range 25).flatMap fun _ => [10, 0])]))).map
        (fun s => (bytesAt s 0x3000 4, s.cmdptr)) = some ([21, 249, 0, 125], 0x1024#32) := by decide +kernel

/-- R200, R205: with count 0 the 25 coefficients are read and nothing else; short of them it is a violation. -/
theorem test_conv5x5_count_zero : (nextOf (exec (.conv5x5 0#32 0#32 0#32 0#32 0#32 0#32 0xFFFFFFCE#32 0#32) (ready []))).isSome
    = true ∧ faultOf (exec (.conv5x5 0#32 0#32 0#32 0#32 0#32 0#32 0xFFFFFFCF#32 0#32) (ready [])) =
      some (.contractViolation .access 0xFFFFFFFF 2) := by decide

/-! The register window. -/

/-- An idle state with these status bits and this turn of the host. -/
def idle (done err ie : Bool) (op : HostOp) : State :=
  { State.reset with done := done, err := err, ie := ie, errcode := if err then 1#4 else 0#4, turns := [.host op] }

/-- T11g. -/
theorem test_host_start_T11g : (nextOf (step (idle true false true (.write 0x80000000#32 .word 1#32)))).map
    (fun s => (s.ie, s.done, s.busy)) = some (false, false, true) := by decide

/-- T11h. -/
theorem test_host_cmdptr_busy_T11h : (nextOf (hostTurn (.write 0x80000008#32 .word 0x2000#32) (ready []))).map (·.cmdptr)
    = some 0x1000#32 := by decide

/-- T11j. -/
theorem test_host_clear_err_T11j : (nextOf (step (idle false true true (.write 0x80000004#32 .word 4#32)))).map
    (fun s => (s.err, s.errcode, s.irq)) = some (false, 0#4, false) := by decide

/-- T11k. -/
theorem test_host_clear_done_T11k : (nextOf (step (idle true false true (.write 0x80000004#32 .word 2#32)))).map
    (fun s => (s.done, s.irq)) = some (false, false) := by decide

/-- T11l. -/
theorem test_host_cmdptr_T11l : (nextOf (step (idle false false false (.write 0x80000008#32 .word 0x1003#32)))).map (·.cmdptr)
    = some 0x1000#32 := by decide

/-- P4: STATUS reads 0x104 after the illegal stop. -/
theorem test_host_status_P4 : (nextOf (step (idle false true true (.read 0x80000004#32 .word)))).map
    (fun s => (s.hostData, s.irq)) = some (0x104#32, true) := by decide

/-- I9: a 16-bit access to the window is refused. -/
theorem test_host_window_refused : refusalOf (step (idle false false false (.read 0x80000000#32 .half))) =
    some (.windowAccess 0x80000000 2) := by decide

/-- R36, R246: on a platform of two cores, the word at offset 0x0C of the other window reads 0, and a START written there
changes nothing of this core. -/
theorem test_host_other_core :
    let s := { State.reset with platform := { Platform.default with otherMmio := [0x90000000#32] } }
    (nextOf (hostTurn (.read 0x9000000C#32 .word) { s with hostData := 7#32 })).map (fun t => (t.hostData, t.draws))
        = some (0#32, 1) ∧
      nextOf (hostTurn (.write 0x90000000#32 .word 1#32) s) = some s := by decide

/-- I8. -/
theorem test_host_reset_busy_refused : refusalOf (hostTurn .reset (ready [])) = some .resetWhileBusy := by decide

/-- R74: the host writes a byte the running stream has read. -/
theorem test_host_interference : faultOf (hostTurn (.write 0x2001#32 .byte 0#32)
    { ready [] with used := [{ write := false, addr := 0x2000, n := 16 }] }) =
      some (.contractViolation .hostInterference 0x2001 1) := by decide

/-- R74: the engine comes to a byte the host wrote while it ran. -/
theorem test_engine_meets_host_write : faultOf (step
    { ready [(0x1000, [2, 0, 0, 0])] with touched := [{ write := true, addr := 0x1003, n := 1 }] }) =
      some (.contractViolation .hostInterference 0x1000 4) := by decide

end Sys2Proof.Tests
end

