-- ==== Sys2Proof/Tests/Witnesses.lean ====
section
/-! SUPPORT. For every statement with hypotheses, a concrete state and operands that meet them all together; for a statement
of several clauses, one for each clause, at a boundary of its range. -/

namespace Sys2Proof.Tests

open Sys2Proof.Machine Sys2Proof.Claims

/-- A next state that passes a test, from the outcome's. -/
theorem next_of_any {o : Host.Outcome State Fault Refusal} {p : State → Bool} (h : (nextOf o).any p = true) :
    ∃ t, o = .next t ∧ p t = true := by
  cases o with
  | next t => exact ⟨t, rfl, h⟩
  | fault f => cases h
  | refused r => cases h

/-- A fault, from the outcome's. -/
theorem fault_of_isSome {o : Host.Outcome State Fault Refusal} (h : (faultOf o).isSome = true) : ∃ f, o = .fault f := by
  cases o with
  | next t => cases h
  | fault f => exact ⟨f, rfl⟩
  | refused r => cases h

/-- Every vector register but V7 written, CMDPTR at 0x1000, the engine running over these bytes. -/
def loaded (blocks : List (Nat × List Nat)) : State :=
  { ready blocks with
    v := Vector.replicate 8 0xFFFF8000000100FF7FFFFFFF80000005#128
    written := (Vector.replicate 8 true).set 7 false }

/-! Encoding. -/

theorem wit_EncodeOfDecodeIsIdentity : decodeCommand ⟨0x00008B23#32, []⟩ = some (.vmullo 3 1 2) := by decide

/-- The last word of the address space and the first, by the wrap of R33. -/
theorem wit_FetchReadsEncodedCommand :
    let m := memOf [(0xFFFFFFFC, [0x10, 5, 0, 0]), (0, [0, 0x20, 0, 0])]
    let i := Instr.vld 5 0x2000#32
    (0xFFFFFFFC#32).toNat % 4 = 0 ∧
    (∀ k < (encodeBytes i).length, Mem.read m (0xFFFFFFFC#32 + BitVec.ofNat 32 k).toNat = (encodeBytes i).getD k 0#8) ∧
    ∀ k < i.words, check Platform.default (0xFFFFFFFC#32 + BitVec.ofNat 32 (4 * k)).toNat 4 = true := by decide

/-! The step. -/

/-- Either form of the engine's turn, with a host access that does not conflict. -/
theorem wit_StepRunsDecodedCommand :
    let s := { loaded [(0x1000, [2, 0, 0, 0])] with touched := [{ write := true, addr := 0x1004, n := 4 }] }
    (engineTurnOf s [] ∧ engineTurnOf { s with turns := [.engine, .host .reset] } [.host .reset]) ∧ s.busy = true ∧
    fetch s.platform s.mem s.cmdptr = .ok (.command .nop) ∧
    ∀ x ∈ s.touched, ∀ y ∈ footprint s.cmdptr .nop, conflicts x y = false :=
  ⟨by decide, rfl, rfl, by decide⟩

theorem wit_IllegalWordStopsEngine :
    let s := { loaded [(0x1000, [0x20, 0x41, 0, 0])] with touched := [{ write := false, addr := 0x1000, n := 4 }] }
    engineTurnOf s [] ∧ s.busy = true ∧ check s.platform s.cmdptr.toNat 4 = true ∧
    legalFirst (BitVec.ofNat 32 (Mem.readLE s.mem s.cmdptr.toNat 4)) = false ∧
    ∀ x ∈ s.touched, conflicts x ⟨false, s.cmdptr.toNat, 4⟩ = false := by decide

/-- The first word in the window; the second operand word of a convolution in it. -/
theorem wit_FetchFaultsInOrder :
    check Platform.default (0x80000000#32).toNat 4 = false ∧
    (let m := memOf [(0x7FFFFFF8, [0x40, 0, 0, 0])]
     let a := 0x7FFFFFF8#32
     check Platform.default a.toNat 4 = true ∧ legalFirst (BitVec.ofNat 32 (Mem.readLE m a.toNat 4)) = true ∧
     lengthOf (BitVec.ofNat 32 (Mem.readLE m a.toNat 4)) = some 7 ∧
     (∀ j, 0 < j → j < 2 → check Platform.default (a + BitVec.ofNat 32 (4 * j)).toNat 4 = true) ∧
     check Platform.default (a + BitVec.ofNat 32 (4 * 2)).toNat 4 = false) := by
  refine ⟨by decide, by decide, by decide, by decide, ?_, by decide⟩
  intro j h0 h2
  obtain rfl : j = 1 := by omega
  decide

theorem wit_IdleEngineAndHostTurns :
    (engineTurnOf State.reset [] ∧ State.reset.busy = false) ∧
    (idle true false true .reset).turns = Turn.host .reset :: [] := by decide

/-! Lane primitives. -/

/-- The last address whose sixteen bytes are in the address space, and the next. -/
theorem wit_VldLoadsSixteenBytes : check (loaded []).platform (0xFFFFFFF0#32).toNat 16 = true ∧
    check (loaded []).platform (0xFFFFFFF1#32).toNat 16 = false := by decide

theorem wit_VstStoresSixteenBytes :
    ((loaded []).written[(6 : VReg)] = true ∧ check (loaded []).platform (0x7FFFFFF0#32).toNat 16 = true) ∧
    (loaded []).written[(7 : VReg)] = false ∧
    ((loaded []).written[(0 : VReg)] = true ∧ check (loaded []).platform (0x7FFFFFF1#32).toNat 16 = false) := by decide

theorem wit_VwidenSignExtends : (loaded []).written[(0 : VReg)] = true ∧ (loaded []).written[(7 : VReg)] = false := by
  decide

/-- For the three two-source commands: both sources written, the first not, the second not. -/
theorem wit_Vnarrow16Saturates : ((loaded []).written[(0 : VReg)] = true ∧ (loaded []).written[(6 : VReg)] = true) ∧
    (loaded []).written[(7 : VReg)] = false ∧
    ((loaded []).written[(6 : VReg)] = true ∧ (loaded []).written[(7 : VReg)] = false) := by decide

theorem wit_Vpack8SaturatesUnsigned : ((loaded []).written[(1 : VReg)] = true ∧ (loaded []).written[(1 : VReg)] = true) ∧
    (loaded []).written[(7 : VReg)] = false ∧
    ((loaded []).written[(0 : VReg)] = true ∧ (loaded []).written[(7 : VReg)] = false) := by decide

theorem wit_VmulloKeepsLowHalf : ((loaded []).written[(2 : VReg)] = true ∧ (loaded []).written[(3 : VReg)] = true) ∧
    (loaded []).written[(7 : VReg)] = false ∧
    ((loaded []).written[(0 : VReg)] = true ∧ (loaded []).written[(7 : VReg)] = false) := by decide

/-- a = 0, b = 1, c = 2, d = 3, p = 0 (a source too), q = 7. -/
theorem wit_NarrowInTwoStagesIsClamp :
    (loaded []).written[(0 : VReg)] = true ∧ (loaded []).written[(1 : VReg)] = true ∧
    (loaded []).written[(2 : VReg)] = true ∧ (loaded []).written[(3 : VReg)] = true ∧
    (2 : VReg) ≠ 0 ∧ (3 : VReg) ≠ 0 ∧ (0 : VReg) ≠ 7 := by decide

theorem wit_WidenThenNarrowKeepsNonNegative : (loaded []).written[(4 : VReg)] = true := by decide

theorem wit_StoreThenLoadReturnsRegister :
    (loaded []).written[(4 : VReg)] = true ∧ check (loaded []).platform (0xFFFFFFF0#32).toNat 16 = true := by decide

/-! Colour matrix. -/

/-- Apart and touching, the same range, and no pixel with the two ranges at one address. -/
theorem wit_Cm4x4TransformsPixels :
    let p := (loaded []).platform
    (check p (0xFFFFFFE0#32).toNat 32 = true ∧
      ((0x2008#32) = (0x2000#32) ∨ apart (0x2008#32).toNat (4 * (2#32).toNat) (0x2000#32).toNat (4 * (2#32).toNat)) ∧
      check p (0x2000#32).toNat (4 * (2#32).toNat) = true ∧ check p (0x2008#32).toNat (4 * (2#32).toNat) = true) ∧
    (((0x2004#32) = (0x2000#32) ∨ apart (0x2004#32).toNat (4 * (0#32).toNat) (0x2000#32).toNat (4 * (0#32).toNat)) ∧
      check p (0x80000000#32).toNat (4 * (0#32).toNat) = true) ∧
    ((0x2000#32) = (0x2000#32) ∨ apart (0x2000#32).toNat (4 * (3#32).toNat) (0x2000#32).toNat (4 * (3#32).toNat)) := by
  decide

/-- In place. -/
theorem wit_Cm3x3TransformsPixels :
    let p := (loaded []).platform
    check p (0x2100#32).toNat 32 = true ∧
    ((0x2000#32) = (0x2000#32) ∨ apart (0x2000#32).toNat (4 * (3#32).toNat) (0x2000#32).toNat (4 * (3#32).toNat)) ∧
    check p (0x2000#32).toNat (4 * (3#32).toNat) = true ∧ check p (0x2000#32).toNat (4 * (3#32).toNat) = true := by decide

/-- The destination over the coefficients. -/
theorem wit_CmdotProjectsPixels :
    let p := (loaded []).platform
    check p (0x2100#32).toNat 32 = true ∧
    ((0x2100#32) = (0x2000#32) ∨ apart (0x2100#32).toNat (4 * (3#32).toNat) (0x2000#32).toNat (4 * (3#32).toNat)) ∧
    check p (0x2000#32).toNat (4 * (3#32).toNat) = true ∧ check p (0x2100#32).toNat (4 * (3#32).toNat) = true := by decide

/-- One byte in common. -/
theorem wit_MatrixOverlapIsViolation :
    check (loaded []).platform (0x2100#32).toNat 32 = true ∧ (0x2007#32) ≠ (0x2000#32) ∧
    ¬ apart (0x2007#32).toNat (4 * (2#32).toNat) (0x2000#32).toNat (4 * (2#32).toNat) ∧ Instr.cmdot ∈ matrixCommands ∧
    ((0x2008#32) = (0x2000#32) ∨ apart (0x2008#32).toNat (4 * (2#32).toNat) (0x2000#32).toNat (4 * (2#32).toNat)) :=
  ⟨by decide, by decide, by decide, by simp [matrixCommands], by decide⟩

/-- The last coefficient past the end of the address space; the source, then the destination, reaching the window. -/
theorem wit_MatrixAccessFaults :
    let p := (loaded []).platform
    Instr.cm3x3 ∈ matrixCommands ∧
    ((∀ j < 15, check p ((0xFFFFFFE1#32).toNat + 2 * j) 2 = true) ∧ check p ((0xFFFFFFE1#32).toNat + 2 * 15) 2 = false) ∧
    (check p (0x2100#32).toNat 32 = true ∧
      ((0x2000#32) = (0x7FFFFFFC#32) ∨
        apart (0x2000#32).toNat (4 * (2#32).toNat) (0x7FFFFFFC#32).toNat (4 * (2#32).toNat)) ∧
      check p (0x7FFFFFFC#32).toNat (4 * (2#32).toNat) = false) ∧
    (((0x7FFFFFFC#32) = (0x2000#32) ∨
        apart (0x7FFFFFFC#32).toNat (4 * (2#32).toNat) (0x2000#32).toNat (4 * (2#32).toNat)) ∧
      check p (0x7FFFFFFC#32).toNat (4 * (2#32).toNat) = false) :=
  ⟨by simp [matrixCommands], by decide, by decide, by decide⟩

theorem wit_Cm4x4IdentityKeepsPixels :
    let s := loaded [(0x2000, [200, 50, 10, 255, 0, 128, 255, 17]),
      (0x2100, [0,1,0,0,0,0,0,0, 0,0,0,1,0,0,0,0, 0,0,0,0,0,1,0,0, 0,0,0,0,0,0,0,1])]
    check s.platform (0x2100#32).toNat 32 = true ∧
    ((0x3000#32) = (0x2000#32) ∨ apart (0x3000#32).toNat (4 * (2#32).toNat) (0x2000#32).toNat (4 * (2#32).toNat)) ∧
    check s.platform (0x2000#32).toNat (4 * (2#32).toNat) = true ∧
    check s.platform (0x3000#32).toNat (4 * (2#32).toNat) = true ∧
    ∀ r < 4, ∀ k < 4, coefOf s.mem (0x2100#32).toNat (4 * r + k) = if r = k then 256 else 0 := by decide +kernel

theorem wit_MatrixCountSplits :
    2 + 1 < 2 ^ 32 ∧ Instr.cmdot ∈ matrixCommands ∧ apart (0x3000#32).toNat (4 * (2 + 1)) (0x2140#32).toNat 32 ∧
    ∃ t, exec (.cmdot 0x3000#32 0x2000#32 0x2140#32 (BitVec.ofNat 32 (2 + 1)))
      (loaded [(0x2000, [200, 50, 10, 255]), (0x2140, [0x4D, 0, 0x96, 0, 0x1D, 0])]) = .next t := by
  refine ⟨by decide, by simp [matrixCommands], by decide, ?_⟩
  obtain ⟨t, h, -⟩ := next_of_any (p := fun _ => true) (o := exec (.cmdot 0x3000#32 0x2000#32 0x2140#32
    (BitVec.ofNat 32 (2 + 1))) (loaded [(0x2000, [200, 50, 10, 255]), (0x2140, [0x4D, 0, 0x96, 0, 0x1D, 0])]))
    (by decide +kernel)
  exact ⟨t, h⟩

theorem wit_AccumulatorsNeverWrap :
    (List.replicate 25 (Pixel.mk 255#8 255#8 255#8 255#8)).length ≤ 25 ∧
      Pixel.c3 ∈ [Pixel.c0, Pixel.c1, Pixel.c2, Pixel.c3] := ⟨by decide, by simp⟩

/-- 255, 256 and 65535, 65536, 65280 and -1: the values where the ranges end. -/
theorem wit_RoundingIsNotObservable :
    (descale (-1) = 0#8 ∧ descale 255 = 0#8) ∧ (descale 256 = 1#8 ∧ descale 65535 = 255#8) ∧
      (descale 65279 = 254#8 ∧ descale 65280 = 255#8 ∧ descale 65536 = 255#8) := by decide

/-! Convolution. -/

/-- Rows that overlap each other, the destination touching the last, over the coefficients. -/
theorem wit_Conv3x3ConvolvesPixels :
    let p := (loaded []).platform
    check p (0x2010#32).toNat 18 = true ∧
    (∀ row ∈ [0x2000#32, 0x2000#32, 0x1FF0#32],
      apart (0x2010#32).toNat (4 * (2#32).toNat) row.toNat (4 * ((2#32).toNat + 2))) ∧
    ((2#32) ≠ 0#32 →
      ∀ row ∈ [0x2000#32, 0x2000#32, 0x1FF0#32], check p row.toNat (4 * ((2#32).toNat + 2)) = true) ∧
    check p (0x2010#32).toNat (4 * (2#32).toNat) = true := by
  simp only [List.mem_cons, List.not_mem_nil, or_false, forall_eq_or_imp, forall_eq]
  decide +kernel

/-- No pixel: rows that may not be accessed do not matter. -/
theorem wit_Conv5x5ConvolvesPixels :
    let p := (loaded []).platform
    check p (0xFFFFFFCE#32).toNat 50 = true ∧
    (∀ row ∈ [0x80000000#32, 0#32, 0#32, 0#32, 0xFFFFFFFF#32],
      apart (0x80000000#32).toNat (4 * (0#32).toNat) row.toNat (4 * ((0#32).toNat + 4))) ∧
    ((0#32) ≠ 0#32 → ∀ row ∈ [0x80000000#32, 0#32, 0#32, 0#32, 0xFFFFFFFF#32],
      check p row.toNat (4 * ((0#32).toNat + 4)) = true) ∧
    check p (0x80000000#32).toNat (4 * (0#32).toNat) = true := by
  simp only [List.mem_cons, List.not_mem_nil, or_false, forall_eq_or_imp, forall_eq]
  decide +kernel

/-- The same with one pixel. -/
theorem wit_Conv5x5ConvolvesPixels_one :
    let p := (loaded []).platform
    check p (0x2100#32).toNat 50 = true ∧
    (∀ row ∈ [0x2000#32, 0x2014#32, 0x2028#32, 0x203C#32, 0x2050#32],
      apart (0x3000#32).toNat (4 * (1#32).toNat) row.toNat (4 * ((1#32).toNat + 4))) ∧
    ((1#32) ≠ 0#32 → ∀ row ∈ [0x2000#32, 0x2014#32, 0x2028#32, 0x203C#32, 0x2050#32],
      check p row.toNat (4 * ((1#32).toNat + 4)) = true) ∧
    check p (0x3000#32).toNat (4 * (1#32).toNat) = true := by
  simp only [List.mem_cons, List.not_mem_nil, or_false, forall_eq_or_imp, forall_eq]
  decide +kernel

/-- The last pixel of the last row's window, past its N pixels. -/
theorem wit_ConvolutionOverlapIsViolation :
    let p := (loaded []).platform
    (check p (0x2100#32).toNat 18 = true ∧
      ∃ row ∈ [0x2000#32, 0x2010#32, 0x2020#32],
        ¬ apart (0x202F#32).toNat (4 * (2#32).toNat) row.toNat (4 * ((2#32).toNat + 2))) ∧
    (check p (0x2100#32).toNat 50 = true ∧
      ∃ row ∈ [0x2000#32, 0x2014#32, 0x2028#32, 0x203C#32, 0x2050#32],
        ¬ apart (0x2063#32).toNat (4 * (1#32).toNat) row.toNat (4 * ((1#32).toNat + 4))) := by
  simp only [List.mem_cons, List.not_mem_nil, or_false, exists_eq_or_imp, exists_eq_left]
  decide +kernel

/-- The destination touching the end of the last window. -/
theorem wit_ConvolutionOverlapIsViolation_apart :
    (∀ row ∈ [0x2000#32, 0x2010#32, 0x2020#32],
      apart (0x2030#32).toNat (4 * (2#32).toNat) row.toNat (4 * ((2#32).toNat + 2))) ∧
    ∀ row ∈ [0x2000#32, 0x2014#32, 0x2028#32, 0x203C#32, 0x2050#32],
      apart (0x2064#32).toNat (4 * (1#32).toNat) row.toNat (4 * ((1#32).toNat + 4)) := by
  simp only [List.mem_cons, List.not_mem_nil, or_false, forall_eq_or_imp, forall_eq]
  decide +kernel

theorem wit_ConvolutionAccessFaults :
    let p := (loaded []).platform
    ((∀ j < 8, check p ((0xFFFFFFEF#32).toNat + 2 * j) 2 = true) ∧ check p ((0xFFFFFFEF#32).toNat + 2 * 8) 2 = false) ∧
    ((∀ j < 24, check p ((0xFFFFFFCF#32).toNat + 2 * j) 2 = true) ∧ check p ((0xFFFFFFCF#32).toNat + 2 * 24) 2 = false) ∧
    (check p (0x2100#32).toNat 18 = true ∧ (1#32) ≠ 0#32 ∧
      (∀ row ∈ [0x2000#32, 0x2010#32, 0x7FFFFFF8#32],
        apart (0x3000#32).toNat (4 * (1#32).toNat) row.toNat (4 * ((1#32).toNat + 2))) ∧
      (check p (0x3000#32).toNat (4 * (1#32).toNat) = false ∨
        ∃ row ∈ [0x2000#32, 0x2010#32, 0x7FFFFFF8#32], check p row.toNat (4 * ((1#32).toNat + 2)) = false)) ∧
    (check p (0x2100#32).toNat 50 = true ∧ (1#32) ≠ 0#32 ∧
      (∀ row ∈ [0x2000#32, 0x2014#32, 0x2028#32, 0x203C#32, 0x2050#32],
        apart (0x80000000#32).toNat (4 * (1#32).toNat) row.toNat (4 * ((1#32).toNat + 4))) ∧
      (check p (0x80000000#32).toNat (4 * (1#32).toNat) = false ∨
        ∃ row ∈ [0x2000#32, 0x2014#32, 0x2028#32, 0x203C#32, 0x2050#32],
          check p row.toNat (4 * ((1#32).toNat + 4)) = false)) := by
  simp only [List.mem_cons, List.not_mem_nil, or_false, forall_eq_or_imp, forall_eq, exists_eq_or_imp, exists_eq_left]
  decide +kernel

theorem wit_Conv3x3IdentityCopiesCentreRow :
    let s := loaded ((0x2108, [0, 1]) :: rowsT50.take 3)
    check s.platform (0x2100#32).toNat 18 = true ∧
    (∀ row ∈ [0x2000#32, 0x2010#32, 0x2020#32],
      apart (0x3000#32).toNat (4 * (2#32).toNat) row.toNat (4 * ((2#32).toNat + 2))) ∧
    ((2#32) ≠ 0#32 →
      ∀ row ∈ [0x2000#32, 0x2010#32, 0x2020#32], check s.platform row.toNat (4 * ((2#32).toNat + 2)) = true) ∧
    check s.platform (0x3000#32).toNat (4 * (2#32).toNat) = true ∧
    ∀ k < 9, coefOf s.mem (0x2100#32).toNat k = if k = 4 then 256 else 0 := by
  simp only [List.mem_cons, List.not_mem_nil, or_false, forall_eq_or_imp, forall_eq]
  decide +kernel

/-- One row of five equal pixels for every row, and one weight of 256. -/
def flat : State := loaded [(0x2000, List.replicate 20 7), (0x2100, [0, 1])]

theorem wit_ConstantWindowGivesScaledValue_3x3 :
    0 < (1#32).toNat ∧ 3 < 4 ∧
    (∃ t, exec (.conv3x3 0x3000#32 0x2000#32 0x2000#32 0x2000#32 0x2100#32 1#32) flat = .next t) ∧
    (∀ row ∈ [0x2000#32, 0x2000#32, 0x2000#32], ∀ dx < 3,
      channel flat.mem row.toNat (0 + dx) 3 = ((7#8).toNat : Int)) ∧
    0 ≤ ∑ k ∈ Finset.range 9, coefOf flat.mem (0x2100#32).toNat k ∧
    ∑ k ∈ Finset.range 9, coefOf flat.mem (0x2100#32).toNat k = 256 := by
  refine ⟨by decide, by decide, ?_,
    by simp only [List.mem_cons, List.not_mem_nil, or_false, forall_eq_or_imp, forall_eq]; decide +kernel,
    by decide +kernel, by decide +kernel⟩
  obtain ⟨t, h, -⟩ := next_of_any (p := fun _ => true)
    (o := exec (.conv3x3 0x3000#32 0x2000#32 0x2000#32 0x2000#32 0x2100#32 1#32) flat) (by decide +kernel)
  exact ⟨t, h⟩

theorem wit_ConstantWindowGivesScaledValue_5x5 :
    0 < (1#32).toNat ∧ 0 < 4 ∧
    (∃ t, exec (.conv5x5 0x3000#32 0x2000#32 0x2000#32 0x2000#32 0x2000#32 0x2000#32 0x2100#32 1#32) flat = .next t) ∧
    (∀ row ∈ [0x2000#32, 0x2000#32, 0x2000#32, 0x2000#32, 0x2000#32], ∀ dx < 5,
      channel flat.mem row.toNat (0 + dx) 0 = ((7#8).toNat : Int)) ∧
    0 ≤ ∑ k ∈ Finset.range 25, coefOf flat.mem (0x2100#32).toNat k ∧
    ∑ k ∈ Finset.range 25, coefOf flat.mem (0x2100#32).toNat k = 256 := by
  refine ⟨by decide, by decide, ?_,
    by simp only [List.mem_cons, List.not_mem_nil, or_false, forall_eq_or_imp, forall_eq]; decide +kernel,
    by decide +kernel, by decide +kernel⟩
  obtain ⟨t, h, -⟩ := next_of_any (p := fun _ => true)
    (o := exec (.conv5x5 0x3000#32 0x2000#32 0x2000#32 0x2000#32 0x2000#32 0x2000#32 0x2100#32 1#32) flat)
    (by decide +kernel)
  exact ⟨t, h⟩

theorem wit_ConvolutionCountSplits :
    1 + 1 < 2 ^ 32 ∧ apart (0x3000#32).toNat (4 * (1 + 1)) (0x2100#32).toNat 18 ∧
    ∃ t, exec (.conv3x3 0x3000#32 0x2000#32 0x2010#32 0x2020#32 0x2100#32 (BitVec.ofNat 32 (1 + 1)))
      (ready rowsT50) = .next t := by
  refine ⟨by decide, by decide, ?_⟩
  obtain ⟨t, h, -⟩ := next_of_any (p := fun _ => true)
    (o := exec (.conv3x3 0x3000#32 0x2000#32 0x2010#32 0x2020#32 0x2100#32 (BitVec.ofNat 32 (1 + 1))) (ready rowsT50))
    (by decide +kernel)
  exact ⟨t, h⟩

theorem wit_ConvolutionCountSplits_5x5 :
    1 + 0 < 2 ^ 32 ∧ apart (0x3000#32).toNat (4 * (1 + 0)) (0x2100#32).toNat 50 ∧
    ∃ t, exec (.conv5x5 0x3000#32 0x2000#32 0x2000#32 0x2000#32 0x2000#32 0x2000#32 0x2100#32 (BitVec.ofNat 32 (1 + 0)))
      flat = .next t := by
  refine ⟨by decide, by decide, ?_⟩
  obtain ⟨t, h, -⟩ := next_of_any (p := fun _ => true) (o := exec (.conv5x5 0x3000#32 0x2000#32 0x2000#32 0x2000#32
    0x2000#32 0x2000#32 0x2100#32 (BitVec.ofNat 32 (1 + 0))) flat) (by decide +kernel)
  exact ⟨t, h⟩

/-! All commands. -/

/-- The bytes just below and just past a VST's sixteen, and past a CM4X4's pixel. -/
theorem wit_CommandsWriteOnlyTheirDestination :
    (∃ t, exec (.vst 0 0x3000#32) (loaded []) = .next t) ∧
    (0x2FFF < (0x3000#32).toNat ∨ (0x3000#32).toNat + 16 ≤ 0x2FFF) ∧
    (0x3010 < (0x3000#32).toNat ∨ (0x3000#32).toNat + 16 ≤ 0x3010) ∧
    (∃ t, exec (.cm4x4 0x3000#32 0x2000#32 0x2100#32 1#32) (loaded []) = .next t) ∧
    (0x3004 < (0x3000#32).toNat ∨ (0x3000#32).toNat + 4 * (1#32).toNat ≤ 0x3004) := by
  refine ⟨?_, by decide, by decide, ?_, by decide⟩
  · obtain ⟨t, h, -⟩ := next_of_any (p := fun _ => true) (o := exec (.vst 0 0x3000#32) (loaded [])) (by decide +kernel)
    exact ⟨t, h⟩
  · obtain ⟨t, h, -⟩ := next_of_any (p := fun _ => true)
      (o := exec (.cm4x4 0x3000#32 0x2000#32 0x2100#32 1#32) (loaded [])) (by decide +kernel)
    exact ⟨t, h⟩

theorem wit_EveryCommandAdvancesByItsLength :
    lengthOf (encode (.vld 3 0#32)).first = some 2 ∧ ∃ t, exec (.vld 3 0#32) (loaded []) = .next t :=
  ⟨by decide, by
    obtain ⟨t, h, -⟩ := next_of_any (p := fun _ => true) (o := exec (.vld 3 0#32) (loaded [])) (by decide)
    exact ⟨t, h⟩⟩

/-- The named register, and one that is not. -/
theorem wit_OnlyVdRegisterIsWritten : (∃ t, exec (.vwiden 7 0) (loaded []) = .next t) ∧
    some (7 : VReg) = some 7 ∧ some (7 : VReg) ≠ some 6 :=
  ⟨⟨_, rfl⟩, by decide, by decide⟩

theorem wit_CommandsLeaveControlState : (∃ t, exec .nop (loaded []) = .next t) ∧ Instr.nop ≠ .endStream :=
  ⟨⟨_, rfl⟩, by decide⟩

/-- Two register files that differ in V7 only; a command that completes and one that faults. -/
theorem wit_UnwrittenContentsCannotBeSeen :
    agreeOnWritten (loaded []).written (loaded []).v ((loaded []).v.set 7 1#128) ∧
    (loaded []).v ≠ (loaded []).v.set 7 1#128 ∧
    (∃ t, exec (.vwiden 7 0) (loaded []) = .next t) ∧ ∃ f, exec (.vwiden 0 7) (loaded []) = .fault f :=
  ⟨by decide, by decide, ⟨_, rfl⟩, ⟨_, rfl⟩⟩

theorem wit_OldLatchCannotBeSeen :
    (∃ t, exec (.cm4x4 0x3000#32 0x2000#32 0x2100#32 0#32) (loaded []) = .next t) ∧
    ∃ f, exec (.cm4x4 0x3000#32 0x2000#32 0xFFFFFFE1#32 0#32) (loaded []) = .fault f := by
  constructor
  · obtain ⟨t, h, -⟩ := next_of_any (p := fun _ => true)
      (o := exec (.cm4x4 0x3000#32 0x2000#32 0x2100#32 0#32) (loaded [])) (by decide +kernel)
    exact ⟨t, h⟩
  · exact fault_of_isSome (by decide +kernel)

/-! The register window, reset and the host. -/

/-- A platform of two cores. -/
def twoCores : State := { State.reset with platform := { Platform.default with otherMmio := [0x90000000#32] } }

theorem wit_StartRunsTheEngine :
    windowPlaced (idle false true true .reset) ∧ (idle false true true .reset).busy = false ∧
    (1#32).getLsbD 0 = true ∧ (3#32).getLsbD 0 = true := by decide

/-- Each bit of the write, set and clear. -/
theorem wit_StatusBitsAreWriteOneToClear : windowPlaced (loaded []) ∧ (6#32).getLsbD 1 = true ∧
    (6#32).getLsbD 2 = true ∧ (1#32).getLsbD 1 = false ∧ (1#32).getLsbD 2 = false := by decide

theorem wit_CmdptrWritableOnlyWhenIdle : windowPlaced State.reset ∧ State.reset.busy = false ∧
    windowPlaced (loaded []) ∧ (loaded []).busy = true ∧ Aligned (loaded []) := by decide

/-- START = 0 on an idle engine, START = 1 on a running one. -/
theorem wit_CtrlWriteWithoutStartSetsOnlyIe :
    (windowPlaced State.reset ∧ ((2#32).getLsbD 0 = false ∨ State.reset.busy = true)) ∧
    windowPlaced (loaded []) ∧ ((3#32).getLsbD 0 = false ∨ (loaded []).busy = true) := by decide

/-- A window of BASE_MMIO 0x80000000, and one at the very end of the address space. -/
theorem wit_WindowReadsGiveTheFields : windowPlaced State.reset ∧
    windowPlaced { State.reset with platform := { Platform.default with baseMmio := 0xFFFFFFF0#32 } } := by decide

/-- A read of STATUS and a read of data memory; each kind of target. -/
theorem wit_HostReadsChangeNoCoreState :
    (∃ t, hostTurn (.read 0x80000004#32 .word) State.reset = .next t) ∧
    (∃ t, hostTurn (.read 0xFFFFFFFF#32 .byte) (loaded []) = .next t) ∧
    hostTarget State.reset.platform 0x80000004#32 .word = .ok (.own .status) ∧
    hostTarget twoCores.platform 0x90000008#32 .word = .ok (.other .cmdptr) ∧
    hostTarget State.reset.platform 0xFFFFFFFF#32 .byte = .ok .memory := by
  refine ⟨?_, ?_, rfl, rfl, rfl⟩
  · obtain ⟨t, h, -⟩ := next_of_any (p := fun _ => true) (o := hostTurn (.read 0x80000004#32 .word) State.reset) (by decide)
    exact ⟨t, h⟩
  · obtain ⟨t, h, -⟩ := next_of_any (p := fun _ => true) (o := hostTurn (.read 0xFFFFFFFF#32 .byte) (loaded [])) (by decide)
    exact ⟨t, h⟩

/-- The first and the last word of another core's window. -/
theorem wit_HostReadsChangeNoCoreState_other :
    (∀ b ∈ twoCores.platform.otherMmio, b.toNat % 16 = 0) ∧
    (meetsOwnWindow twoCores.platform (0x90000000#32).toNat 4 = false ∧
      meetsOtherWindow twoCores.platform (0x90000000#32).toNat 4 = true ∧ (0x90000000#32).toNat % 4 = 0) ∧
    (meetsOwnWindow twoCores.platform (0x9000000C#32).toNat 4 = false ∧
      meetsOtherWindow twoCores.platform (0x9000000C#32).toNat 4 = true ∧ (0x9000000C#32).toNat % 4 = 0) :=
  ⟨by simp [twoCores], by decide, by decide⟩

/-- A narrow access to each window, an unaligned one, and one that only reaches the window's first byte. -/
theorem wit_OtherWindowAccessesAreRefused :
    let p := twoCores.platform
    (meetsOtherWindow p (0x9000000E#32).toNat (widthBytes .half) = true ∧
      (Width.half ≠ .word ∨ (0x9000000E#32).toNat % 4 ≠ 0)) ∧
    (meetsOwnWindow p (0x80000004#32).toNat (widthBytes .half) = true ∧
      (Width.half ≠ .word ∨ (0x80000004#32).toNat % 4 ≠ 0)) ∧
    (meetsOwnWindow p (0x80000002#32).toNat (widthBytes .word) = true ∧
      (Width.word ≠ .word ∨ (0x80000002#32).toNat % 4 ≠ 0)) ∧
    (meetsOwnWindow p (0x7FFFFFFD#32).toNat (widthBytes .word) = true ∧
      (Width.word ≠ .word ∨ (0x7FFFFFFD#32).toNat % 4 ≠ 0)) := by decide

theorem wit_InterruptLineIsLevel : ∃ t, exec .endStream (loaded []) = .next t := ⟨_, rfl⟩

theorem wit_ResetOnlyWhenIdle : (loaded []).busy = true ∧ (idle true false true .reset).busy = false := by decide

theorem wit_HostCannotReachVectorRegisters :
    HostOp.write 0x80000000#32 .word 3#32 ≠ .reset ∧
    (∃ t, hostTurn (.write 0x80000000#32 .word 3#32) State.reset = .next t) ∧
    (∃ f, hostTurn (.write 0x2000#32 .byte 3#32) { State.reset with used := [⟨true, 0x2000, 16⟩] } = .fault f) ∧
    hostTurn (.read 0x80000000#32 .half) State.reset = .refused (.windowAccess 0x80000000 2) := by
  refine ⟨by decide, ?_, fault_of_isSome (by decide), rfl⟩
  obtain ⟨t, h, -⟩ := next_of_any (p := fun _ => true) (o := hostTurn (.write 0x80000000#32 .word 3#32) State.reset)
    (by decide)
  exact ⟨t, h⟩

/-- The host's write meets the last byte of a read, its read the first byte of a write; a write that touches no used byte,
a read that touches a read one; the engine's NOP word was written by the host, and an illegal word. -/
theorem wit_SharedBytesAreViolations :
    let s := { loaded [(0x1000, [2, 0, 0, 0])] with
      used := [{ write := false, addr := 0x2000, n := 16 }, { write := true, addr := 0x3000, n := 16 }]
      touched := [{ write := true, addr := 0x1003, n := 1 }] }
    check s.platform (0x200F#32).toNat (widthBytes .byte) = true ∧
    (∃ y ∈ s.used, rangesMeet y.addr y.n (0x200F#32).toNat (widthBytes .byte) = true) ∧
    (check s.platform (0x2FFF#32).toNat (widthBytes .half) = true ∧
      ∃ y ∈ s.used, y.write = true ∧ rangesMeet y.addr y.n (0x2FFF#32).toNat (widthBytes .half) = true) ∧
    (check s.platform (0xFFFFFFFC#32).toNat (widthBytes .word) = true ∧
      ∀ y ∈ s.used, rangesMeet y.addr y.n (0xFFFFFFFC#32).toNat (widthBytes .word) = false) ∧
    (∀ y ∈ s.used, y.write = true → rangesMeet y.addr y.n (0x200F#32).toNat (widthBytes .byte) = false) ∧
    (engineTurnOf s [] ∧ s.busy = true ∧ fetch s.platform s.mem s.cmdptr = .ok (.command .nop) ∧
      ∃ x ∈ s.touched, ∃ y ∈ footprint s.cmdptr .nop, (x.write = true ∨ y.write = true) ∧
        rangesMeet x.addr x.n y.addr y.n = true) ∧
    (let s' := { loaded [] with touched := [{ write := true, addr := 0x0FFF, n := 2 }] }
     engineTurnOf s' [] ∧ s'.busy = true ∧ fetch s'.platform s'.mem s'.cmdptr = .ok (.illegal 0#32) ∧
      ∃ x ∈ s'.touched, x.write = true ∧ rangesMeet x.addr x.n s'.cmdptr.toNat 4 = true) :=
  ⟨by decide, by decide, by decide, by decide, by decide, ⟨by decide, rfl, rfl, by decide⟩, by decide, rfl, rfl, by decide⟩

/-! Every step. -/

theorem wit_EveryStepKeepsInvariant :
    State.Inv (loaded [(0x1000, [2, 0, 0, 0])]) ∧ ∃ t, step (loaded [(0x1000, [2, 0, 0, 0])]) = .next t := by
  refine ⟨by decide, ?_⟩
  obtain ⟨t, h, -⟩ := next_of_any (p := fun _ => true) (o := step (loaded [(0x1000, [2, 0, 0, 0])])) (by decide)
  exact ⟨t, h⟩

/-- A run that END ends and one that an illegal word ends. -/
theorem wit_RunEndsOnlyByEndOrIllegalWord :
    (State.Inv (loaded [(0x1000, [1, 0, 0, 0])]) ∧ (loaded [(0x1000, [1, 0, 0, 0])]).busy = true ∧
      ∃ t, step (loaded [(0x1000, [1, 0, 0, 0])]) = .next t ∧ t.busy = false) ∧
    (State.Inv (loaded []) ∧ (loaded []).busy = true ∧ ∃ t, step (loaded []) = .next t ∧ t.busy = false) := by
  refine ⟨⟨by decide, by decide, ?_⟩, by decide, by decide, ?_⟩
  · obtain ⟨t, h, hb⟩ := next_of_any (p := fun t => !t.busy) (o := step (loaded [(0x1000, [1, 0, 0, 0])])) (by decide)
    exact ⟨t, h, by simpa using hb⟩
  · obtain ⟨t, h, hb⟩ := next_of_any (p := fun t => !t.busy) (o := step (loaded [])) (by decide)
    exact ⟨t, h, by simpa using hb⟩

/-- The run that an illegal word ends keeps V6 marked. -/
theorem wit_WrittenMarksStay : (∀ ts, (loaded []).turns ≠ Turn.host .reset :: ts) ∧
    (∃ t, step (loaded []) = .next t) ∧ (loaded []).written[(6 : VReg)] = true := by
  refine ⟨?_, ?_, by decide⟩
  · intro ts h
    cases h
  · obtain ⟨t, h, -⟩ := next_of_any (p := fun _ => true) (o := step (loaded [])) (by decide)
    exact ⟨t, h⟩

end Sys2Proof.Tests
end

section
/-! PROOFS. Count splitting of the kernel commands (R179, R207): a command of m + n pixels equals one of m and one of n. -/

namespace Sys2Proof.Machine

open Sys2Proof.Claims

/-! What a range of pixels holds after a kernel command, and that two such ranges in a row make one. -/

/-- `after` holds pixel `g i` at each of the `count` pixels from `base` and agrees with `before` everywhere else. -/
def Stores (g : Nat → Pixel) (base count : Nat) (before after : Mem) : Prop :=
  (∀ i < count, pixelAt after base i = g i) ∧ sameOutside before after base (4 * count)

/-- Pixel i of the row m pixels on is pixel m + i of the row. -/
theorem pixelAt_add_pixels (mem : Mem) (base m i : Nat) : pixelAt mem (base + 4 * m) i = pixelAt mem base (m + i) := by
  rw [pixelAt, pixelAt, show base + 4 * m + 4 * i = base + 4 * (m + i) by omega]

/-- Equal pixels have equal bytes. -/
theorem read_eq_of_pixelAt_eq {m m' : Mem} {base i : Nat} (h : pixelAt m base i = pixelAt m' base i) (c : Nat)
    (hc : c < 4) : Mem.read m (base + 4 * i + c) = Mem.read m' (base + 4 * i + c) := by
  obtain ⟨h0, h1, h2, h3⟩ := Pixel.mk.inj h
  match c, hc with
  | 0, _ => exact h0
  | 1, _ => exact h1
  | 2, _ => exact h2
  | 3, _ => exact h3

/-- The pixels stored and the memory before them fix every byte of the memory after them. -/
theorem Stores.read_unique {g : Nat → Pixel} {base count : Nat} {before a b : Mem} (ha : Stores g base count before a)
    (hb : Stores g base count before b) (q : Nat) : Mem.read a q = Mem.read b q := by
  by_cases hq : q < base ∨ base + 4 * count ≤ q
  · rw [ha.2 q hq, hb.2 q hq]
  · have hi : (q - base) / 4 < count := by omega
    have := read_eq_of_pixelAt_eq ((ha.1 _ hi).trans (hb.1 _ hi).symm) ((q - base) % 4) (by omega)
    rwa [show base + 4 * ((q - base) / 4) + (q - base) % 4 = q by omega] at this

/-- Storing m pixels, and then n pixels just after them, stores m + n pixels. Where n is 0 it does not matter where the
second range lies. -/
theorem Stores.append {g g' : Nat → Pixel} {base base' m n : Nat} {a b c : Mem} (h : Stores g base m a b)
    (h' : Stores g' base' n b c) (hbase : 0 < n → base' = base + 4 * m) (hg : ∀ i < n, g' i = g (m + i)) :
    Stores g base (m + n) a c := by
  obtain ⟨hpix, hout⟩ := h
  obtain ⟨hpix', hout'⟩ := h'
  have hkept : ∀ q, q < base + 4 * m ∨ base + 4 * (m + n) ≤ q → Mem.read c q = Mem.read b q :=
    fun q hq => hout' q (by omega)
  refine ⟨fun i hi => ?_, fun q hq => by rw [hkept q (by omega), hout q (by omega)]⟩
  by_cases him : i < m
  · rw [← hpix i him]
    exact pixelAt_congr _ _ _ _ fun q _ _ => hkept q (by omega)
  · have := hpix' (i - m) (by omega)
    rwa [hg _ (by omega), hbase (by omega), pixelAt_add_pixels, show m + (i - m) = i by omega] at this

/-- The coefficients depend only on the bytes of their array. -/
theorem coefsAt_congr (m m' : Mem) (base n : Nat) : ∀ k,
    (∀ q, base + 2 * k ≤ q → q < base + 2 * (k + n) → Mem.read m q = Mem.read m' q) →
      coefsAt m base n k = coefsAt m' base n k := by
  induction n with
  | zero => intro k _; rfl
  | succ n ih =>
    intro k h
    rw [coefsAt, coefsAt, Mem.readLE_congr m m' 2 _ fun j hj => h _ (by omega) (by omega),
      ih (k + 1) fun q h1 h2 => h q (by omega) (by omega)]

/-- A store that lies apart from the coefficient array keeps the coefficients. -/
theorem Stores.coefsAt_eq {g : Nat → Pixel} {base count : Nat} {a b : Mem} (h : Stores g base count a b)
    (coefBase n : Nat) (hap : apart base (4 * count) coefBase (2 * n)) :
    coefsAt b coefBase n 0 = coefsAt a coefBase n 0 :=
  coefsAt_congr _ _ _ _ _ fun q _ _ => h.2 q (by omega)

/-! Addresses past the first m pixels. -/

/-- The address m pixels on, where it does not wrap. -/
theorem toNat_add_pixels (a : Word) (m : Nat) (h : a.toNat + 4 * m < 2 ^ 32) :
    (a + BitVec.ofNat 32 (4 * m)).toNat = a.toNat + 4 * m := by
  rw [BitVec.toNat_add, BitVec.toNat_ofNat]
  omega

/-- A nonempty range whose bytes pass the check ends within the address space (R62). -/
theorem bytesOk_end_le {p : Platform} {a n : Nat} (h : bytesOk p a n) (hn : 0 < n) : a + n ≤ 2 ^ 32 :=
  ((check_iff_bytes p a n).mp ((check_iff_bytesOk p a n hn).mpr h)).1

/-- Past the first m pixels of a checked range that has bytes after them, the address does not wrap. -/
theorem toNat_add_pixels_of_bytesOk {p : Platform} {a : Word} {m len : Nat} (h : bytesOk p a.toNat (4 * m + len))
    (hlen : 0 < len) : (a + BitVec.ofNat 32 (4 * m)).toNat = a.toNat + 4 * m := by
  have := bytesOk_end_le h (by omega)
  exact toNat_add_pixels a m (by omega)

/-- What follows the first m pixels of a checked range passes the check. -/
theorem bytesOk_add_pixels {p : Platform} {a : Word} {m len : Nat} (h : bytesOk p a.toNat (4 * m + len)) :
    bytesOk p (a + BitVec.ofNat 32 (4 * m)).toNat len := by
  rcases Nat.eq_zero_or_pos len with rfl | hlen
  · exact fun j hj => absurd hj (Nat.not_lt_zero j)
  · rw [toNat_add_pixels_of_bytesOk h hlen]
    exact bytesOk_part _ _ _ _ _ h (by omega) (by omega)

/-! Colour matrix (R179). -/

/-- A completed colour-matrix command stores its output pixels and keeps the platform. -/
theorem colourMatrix_stores {f : List Half → Pixel → Pixel} {dst src cb count : Word} {s t : State}
    (h : colourMatrix f dst src cb count s = .ok t) :
    Stores (fun i => f (coefsAt s.mem cb.toNat 16 0) (pixelAt s.mem src.toNat i)) dst.toNat count.toNat s.mem t.mem ∧
      t.platform = s.platform := by
  obtain ⟨ht, hpix, hout, _⟩ := colourMatrix_result f dst src cb count s t h
  exact ⟨⟨hpix, hout⟩, by rw [ht]; rfl⟩

/-- A colour-matrix command splits at any pixel: the first part writes neither the coefficients nor the source pixels of
the second. -/
theorem colourMatrix_split {f : List Half → Pixel → Pixel} {dst src cb whole head rest : Word} {s t : State}
    (hsum : whole.toNat = head.toNat + rest.toNat) (hap : apart dst.toNat (4 * whole.toNat) cb.toNat 32)
    (h : colourMatrix f dst src cb whole s = .ok t) :
    ∃ u w, colourMatrix f dst src cb head s = .ok u ∧
      colourMatrix f (dst + BitVec.ofNat 32 (4 * head.toNat)) (src + BitVec.ofNat 32 (4 * head.toNat)) cb rest u =
        .ok w ∧
      ∀ q, Mem.read w.mem q = Mem.read t.mem q := by
  obtain ⟨hcoef, hover, hsrc, hdst⟩ := (colourMatrix_ok_iff f dst src cb whole s).mp ⟨t, h⟩
  obtain ⟨hst, _⟩ := colourMatrix_stores h
  rw [matrixOverlap_false_iff] at hover
  rw [hsum, Nat.mul_add] at hsrc hdst
  obtain ⟨u, hu⟩ := (colourMatrix_ok_iff f dst src cb head s).mpr
    ⟨hcoef, (matrixOverlap_false_iff _ _ _).mpr (by omega), bytesOk_part _ _ _ _ _ hsrc (by omega) (by omega),
      bytesOk_part _ _ _ _ _ hdst (by omega) (by omega)⟩
  obtain ⟨hsu, hplatform⟩ := colourMatrix_stores hu
  have hsrc' := fun hn : 0 < rest.toNat => toNat_add_pixels_of_bytesOk hsrc (by omega)
  have hdst' := fun hn : 0 < rest.toNat => toNat_add_pixels_of_bytesOk hdst (by omega)
  obtain ⟨w, hw⟩ := (colourMatrix_ok_iff f (dst + BitVec.ofNat 32 (4 * head.toNat))
      (src + BitVec.ofNat 32 (4 * head.toNat)) cb rest u).mpr (hplatform ▸
    ⟨hcoef, (matrixOverlap_false_iff _ _ _).mpr (by omega), bytesOk_add_pixels hsrc, bytesOk_add_pixels hdst⟩)
  obtain ⟨hsw, _⟩ := colourMatrix_stores hw
  refine ⟨u, w, hu, hw, (hsu.append hsw hdst' fun i hi => ?_).read_unique (hsum ▸ hst)⟩
  have hpix : pixelAt u.mem (src + BitVec.ofNat 32 (4 * head.toNat)).toNat i =
      pixelAt s.mem src.toNat (head.toNat + i) := by
    rw [hsrc' (by omega), pixelAt_add_pixels]
    exact pixelAt_congr _ _ _ _ fun q _ _ => hsu.2 q (by omega)
  simp only [hsu.coefsAt_eq cb.toNat 16 (by omega), hpix]

/-! Convolution (R207). -/

/-- The rows of the second part, read past the first m pixels, lie within the rows of the whole. -/
theorem rowBytes_add_le (k m n : Nat) : 4 * m + rowBytes k n ≤ rowBytes k (m + n) := by
  unfold rowBytes
  split <;> split <;> omega

/-- The rows of the first part lie within the rows of the whole. -/
theorem rowBytes_le_add (k m n : Nat) : rowBytes k m ≤ rowBytes k (m + n) := by
  unfold rowBytes
  split <;> split <;> omega

/-- A convolution of at least one pixel reads bytes of each row. -/
theorem rowBytes_pos (k : Nat) {n : Nat} (hn : 0 < n) : 0 < rowBytes k n := by
  rw [rowBytes, if_neg (by omega)]
  omega

/-- A window of `a` at output pixel `i` is the window of `b` at output pixel `m + i` when the rows of `a` start m pixels on
and the memories agree on the pixels read. -/
theorem windowAt_add_pixels {a b : Mem} {k i m : Nat} {rows : List Word}
    (hrow : ∀ row ∈ rows, (row + BitVec.ofNat 32 (4 * m)).toNat = row.toNat + 4 * m)
    (hmem : ∀ row ∈ rows, ∀ q, row.toNat + 4 * (m + i) ≤ q → q < row.toNat + 4 * (m + i + k) →
      Mem.read a q = Mem.read b q) :
    windowAt a k i ((rows.map (· + BitVec.ofNat 32 (4 * m))).map (·.toNat)) =
      windowAt b k (m + i) (rows.map (·.toNat)) := by
  unfold windowAt
  rw [List.flatMap_map, List.flatMap_map, List.flatMap_map]
  refine List.flatMap_congr fun row hr => List.map_congr_left fun dx hdx => ?_
  rw [List.mem_range] at hdx
  rw [hrow row hr, pixelAt_add_pixels, ← Nat.add_assoc]
  exact pixelAt_congr _ _ _ _ fun q _ _ => hmem row hr q (by omega) (by omega)

/-- A completed convolution stores its output pixels and keeps the platform. -/
theorem convolution_stores {k l : Nat} {dst : Word} {rows : List Word} {cb count : Word} {s t : State} (hk : 0 < k)
    (h : convolution k l dst rows cb count s = .ok t) :
    Stores (fun i => convolve (coefsAt s.mem cb.toNat (k * k) 0) (windowAt s.mem k i (rows.map (·.toNat)))) dst.toNat
      count.toNat s.mem t.mem ∧ t.platform = s.platform := by
  obtain ⟨ht, hpix, hout, _⟩ := convolution_result k l dst rows cb count s t hk h
  exact ⟨⟨hpix, hout⟩, by rw [ht]; rfl⟩

/-- A destination that meets no row window still meets none when both are cut to the first m pixels. -/
theorem convolutionOverlap_head {k dst m n : Nat} {rows : List Nat} (hk : 0 < k)
    (h : convolutionOverlap k dst (m + n) rows = false) : convolutionOverlap k dst m rows = false := by
  rw [convolutionOverlap_false_iff _ _ _ _ hk] at h ⊢
  refine h.imp (by omega) fun h row hr => ?_
  have := h row hr
  omega

/-- A destination that meets no row window still meets none when both are cut to the pixels from pixel m on. -/
theorem convolutionOverlap_rest {k m n : Nat} {dst : Word} {rows : List Word} (hk : 0 < k)
    (h : convolutionOverlap k dst.toNat (m + n) (rows.map (·.toNat)) = false)
    (hdst : 0 < n → (dst + BitVec.ofNat 32 (4 * m)).toNat = dst.toNat + 4 * m)
    (hrow : 0 < n → ∀ row ∈ rows, (row + BitVec.ofNat 32 (4 * m)).toNat = row.toNat + 4 * m) :
    convolutionOverlap k (dst + BitVec.ofNat 32 (4 * m)).toNat n
      ((rows.map (· + BitVec.ofNat 32 (4 * m))).map (·.toNat)) = false := by
  rw [convolutionOverlap_false_iff _ _ _ _ hk, List.forall_mem_map] at h ⊢
  rw [List.forall_mem_map]
  refine (Nat.eq_zero_or_pos n).imp_right fun hn row hr => ?_
  have := (h.resolve_left (by omega)) row hr
  rw [hrow hn row hr, hdst hn]
  omega

/-- A convolution splits at any pixel: the first part writes neither the coefficients nor any row window. -/
theorem convolution_split {k l : Nat} {dst : Word} {rows : List Word} {cb whole head rest : Word} {s t : State}
    (hk : 0 < k) (hsum : whole.toNat = head.toNat + rest.toNat)
    (hap : apart dst.toNat (4 * whole.toNat) cb.toNat (2 * (k * k)))
    (h : convolution k l dst rows cb whole s = .ok t) :
    ∃ u w, convolution k l dst rows cb head s = .ok u ∧
      convolution k l (dst + BitVec.ofNat 32 (4 * head.toNat)) (rows.map (· + BitVec.ofNat 32 (4 * head.toNat))) cb
        rest u = .ok w ∧
      ∀ q, Mem.read w.mem q = Mem.read t.mem q := by
  obtain ⟨hcoef, hover, hrows, hdst⟩ := (convolution_ok_iff k l dst rows cb whole s hk).mp ⟨t, h⟩
  obtain ⟨hst, _⟩ := convolution_stores hk h
  rw [hsum] at hover hrows
  rw [hsum, Nat.mul_add] at hdst
  obtain ⟨u, hu⟩ := (convolution_ok_iff k l dst rows cb head s hk).mpr
    ⟨hcoef, convolutionOverlap_head hk hover,
      fun row hr => bytesOk_part _ _ _ _ _ (hrows row hr) le_rfl (Nat.add_le_add_left (rowBytes_le_add ..) _),
      bytesOk_part _ _ _ _ _ hdst (by omega) (by omega)⟩
  obtain ⟨hsu, hplatform⟩ := convolution_stores hk hu
  have hrest : ∀ row ∈ rows, bytesOk s.platform row.toNat (4 * head.toNat + rowBytes k rest.toNat) := fun row hr =>
    bytesOk_part _ _ _ _ _ (hrows row hr) le_rfl (Nat.add_le_add_left (rowBytes_add_le ..) _)
  have hrow' := fun (hn : 0 < rest.toNat) row hr => toNat_add_pixels_of_bytesOk (hrest row hr) (rowBytes_pos k hn)
  have hdst' := fun hn : 0 < rest.toNat => toNat_add_pixels_of_bytesOk hdst (by omega)
  obtain ⟨w, hw⟩ := (convolution_ok_iff k l (dst + BitVec.ofNat 32 (4 * head.toNat))
      (rows.map (· + BitVec.ofNat 32 (4 * head.toNat))) cb rest u hk).mpr (hplatform ▸
    ⟨hcoef, convolutionOverlap_rest hk hover hdst' hrow',
      List.forall_mem_map.mpr fun row hr => bytesOk_add_pixels (hrest row hr), bytesOk_add_pixels hdst⟩)
  obtain ⟨hsw, _⟩ := convolution_stores hk hw
  refine ⟨u, w, hu, hw, (hsu.append hsw hdst' fun i hi => ?_).read_unique (hsum ▸ hst)⟩
  have hwindow : windowAt u.mem k i ((rows.map (· + BitVec.ofNat 32 (4 * head.toNat))).map (·.toNat)) =
      windowAt s.mem k (head.toNat + i) (rows.map (·.toNat)) := by
    rw [convolutionOverlap_false_iff _ _ _ _ hk, List.forall_mem_map] at hover
    refine windowAt_add_pixels (hrow' (by omega)) fun row hr q _ _ => hsu.2 q ?_
    have := (hover.resolve_left (by omega)) row hr
    omega
  simp only [hsu.coefsAt_eq cb.toNat (k * k) (by omega), hwindow]

/-! The two laws. -/

/-- The count words of a whole and of its two parts: none wraps, so they add up as the counts do. -/
theorem toNat_count_parts {m n : Nat} (h : m + n < 2 ^ 32) :
    (BitVec.ofNat 32 (m + n)).toNat = m + n ∧ (BitVec.ofNat 32 m).toNat = m ∧
      (BitVec.ofNat 32 (m + n)).toNat = (BitVec.ofNat 32 m).toNat + (BitVec.ofNat 32 n).toNat := by
  simp only [BitVec.toNat_ofNat]
  omega

/-- Each colour-matrix command is the shared body with its own pixel function. -/
theorem matrixCommand_next_iff {command : Word → Word → Word → Word → Instr} (h : command ∈ matrixCommands) :
    ∃ f, ∀ dst src cb count s t,
      exec (command dst src cb count) s = .next t ↔ colourMatrix f dst src cb count s = .ok t := by
  simp only [matrixCommands, List.mem_cons, List.not_mem_nil, or_false] at h
  obtain rfl | rfl | rfl := h
  · exact ⟨f4x4, execCm4x4_next_iff⟩
  · exact ⟨f3x3, execCm3x3_next_iff⟩
  · exact ⟨fDot, execCmdot_next_iff⟩

/-- Settles O28: the command stores f of each source pixel, so the two parts store what the whole does. -/
theorem matrixCountSplits : Obligations.MatrixCountSplits := by
  intro s t dst src cb m n hmn command hcommand hap h
  obtain ⟨f, hexec⟩ := matrixCommand_next_iff hcommand
  simp only [hexec] at h ⊢
  obtain ⟨hwhole, hhead, hsum⟩ := toNat_count_parts hmn
  have hsplit := colourMatrix_split hsum (by rwa [hwhole]) h
  rwa [hhead] at hsplit

/-- Settles O37: the command stores the convolution of each window, so the two parts store what the whole does. -/
theorem convolutionCountSplits : Obligations.ConvolutionCountSplits := by
  intro s t dst row0 row1 row2 row3 row4 cb m n hmn
  obtain ⟨hwhole, hhead, hsum⟩ := toNat_count_parts hmn
  simp only [execConv3x3_next_iff, execConv5x5_next_iff]
  constructor
  · intro hap h
    simpa only [hhead, List.map_cons, List.map_nil] using convolution_split (by decide) hsum (by rwa [hwhole]) h
  · intro hap h
    simpa only [hhead, List.map_cons, List.map_nil] using convolution_split (by decide) hsum (by rwa [hwhole]) h

end Sys2Proof.Machine

end

section
/-! PROOFS. The invariant of the machine (R32, R38, R60, R232): each update of the core keeps it, so every step does. -/

namespace Sys2Proof.Machine

/-- The invariant speaks of CMDPTR, the STATUS fields and data memory only. -/
theorem State.Inv.of_eq {s t : State} (h : State.Inv s) (hcmdptr : t.cmdptr = s.cmdptr) (hbusy : t.busy = s.busy)
    (hdone : t.done = s.done) (herr : t.err = s.err) (herrcode : t.errcode = s.errcode) (hmem : t.mem = s.mem) :
    State.Inv t := by
  simpa only [State.Inv, Aligned, StatusLegal, MemLegal, hcmdptr, hbusy, hdone, herr, herrcode, hmem] using h

/-- Clearing the lowest two bits of a word rounds it down to a multiple of 4 (R39). -/
theorem toNat_clear_low_bits (x : Word) : (x &&& 0xFFFFFFFC#32).toNat = 4 * (x.toNat / 4) := by
  have hx := x.isLt
  rw [show 0xFFFFFFFC#32 = BitVec.allOnes 32 <<< 2 by rfl, ← BitVec.shiftLeft_ushiftRight, BitVec.toNat_shiftLeft,
    BitVec.toNat_ushiftRight, Nat.shiftLeft_eq, Nat.shiftRight_eq_div_pow]
  omega

/-- A word address stays one when a whole number of words is added, modulo 2^32 (R33). -/
theorem State.Inv.advance {s : State} (h : State.Inv s) (l : Nat) : State.Inv (State.advance s l) := by
  obtain ⟨haligned, hstatus, hmem⟩ := h
  refine ⟨?_, hstatus, hmem⟩
  rw [Aligned, State.advance_cmdptr, BitVec.toNat_add, BitVec.toNat_ofNat]
  omega

theorem State.Inv.endRun {s : State} (h : State.Inv s) (hbusy : s.busy = true) : State.Inv (State.endRun s) := by
  obtain ⟨haligned, ⟨hrunning, -, hcode⟩, hmem⟩ := h
  have herr := (hrunning hbusy).2
  exact ⟨haligned, ⟨by simp, by simp [herr], hcode⟩, hmem⟩

theorem State.Inv.takeIllegal {s : State} (h : State.Inv s) (hbusy : s.busy = true) :
    State.Inv (State.takeIllegal s) := by
  obtain ⟨haligned, ⟨hrunning, -, -⟩, hmem⟩ := h
  have hdone := (hrunning hbusy).1
  exact ⟨haligned, ⟨by simp, by simp [hdone], by simp⟩, hmem⟩

theorem State.Inv.start {s : State} (h : State.Inv s) : State.Inv (State.start s) :=
  ⟨h.1, ⟨by simp, by simp, by simp⟩, h.2.2⟩

/-- The running engine's command keeps the invariant. -/
theorem exec_inv {i : Instr} {s t : State} (h : exec i s = .next t) (hinv : State.Inv s) (hbusy : s.busy = true) :
    State.Inv t := by
  obtain ⟨-, rfl⟩ | ⟨-, vd, x, -, rfl⟩ | ⟨-, -, c, m, ⟨-, hlegal⟩, rfl⟩ := exec_next_cases i s t h
  · exact (hinv.advance 1).endRun hbusy
  · exact State.Inv.advance (hinv.of_eq rfl rfl rfl rfl rfl rfl) _
  · obtain ⟨haligned, hstatus, hwf, hspace⟩ := hinv
    exact State.Inv.advance (s := { s with latch := c, mem := m }) ⟨haligned, hstatus, hlegal hwf hspace⟩ _

theorem engineStep_inv {s t : State} (h : engineStep s = .next t) (hinv : State.Inv s) (hbusy : s.busy = true) :
    State.Inv t := by
  have hnote : ∀ accs, State.Inv (State.note s accs) := fun _ => hinv.of_eq rfl rfl rfl rfl rfl rfl
  obtain ⟨w, -, -, rfl⟩ | ⟨i, -, -, hexec⟩ := (engineStep_next_iff s t).mp h
  · exact (hnote _).takeIllegal hbusy
  · exact exec_inv hexec (hnote _) hbusy

/-- Clearing DONE, or ERR and ERRCODE together, keeps the STATUS fields legal (R43). -/
theorem writeStatus_inv {s : State} (h : State.Inv s) (x : Word) : State.Inv (writeStatus s x) := by
  obtain ⟨haligned, ⟨hrunning, hone, hcode⟩, hmem⟩ := h
  refine ⟨haligned, ⟨fun hb => ?_, ?_, ?_⟩, hmem⟩
  · obtain ⟨hdone, herr⟩ := hrunning hb
    simp [hdone, herr]
  · rw [Bool.and_eq_false_iff] at hone
    rcases hone with hone | hone <;> simp [hone]
  · rw [writeStatus_errcode, writeStatus_err, hcode]
    cases x.getLsbD 2 <;> simp

theorem writeReg_inv {s : State} (h : State.Inv s) (r : WindowReg) (x : Word) : State.Inv (writeReg s r x) := by
  cases r with
  | ctrl =>
    simp only [writeReg, writeCtrl]
    split
    · exact State.Inv.start (h.of_eq rfl rfl rfl rfl rfl rfl)
    · exact h.of_eq rfl rfl rfl rfl rfl rfl
  | status => exact writeStatus_inv h x
  | cmdptr =>
    simp only [writeReg, writeCmdptr]
    split
    · exact h
    · exact ⟨by rw [Aligned, toNat_clear_low_bits]; omega, h.2⟩
  | reserved => exact h

/-- A host access to data memory that completes keeps the invariant when its effect does. -/
theorem hostMemory_inv {s s' t : State} {acc : Access} (h : hostMemory s acc s' = .next t) (hinv : State.Inv s') :
    State.Inv t := by
  obtain ⟨-, rfl⟩ := (hostMemory_next_iff s s' t acc).mp h
  split
  · exact hinv.of_eq rfl rfl rfl rfl rfl rfl
  · exact hinv

theorem hostTurn_inv {op : HostOp} {s t : State} (h : hostTurn op s = .next t) (hinv : State.Inv s) :
    State.Inv t := by
  obtain ⟨-, -, rfl⟩ | ⟨addr, w, r, -, -, rfl⟩ | ⟨addr, w, x, r, -, -, rfl⟩ | ⟨addr, w, r, -, -, rfl⟩ |
    ⟨addr, w, x, r, -, -, rfl⟩ | ⟨addr, w, -, -, hm⟩ | ⟨addr, w, x, -, htarget, hm⟩ := hostTurn_next_cases op s t h
  · exact ⟨rfl, ⟨by simp, rfl, rfl⟩, hinv.2.2⟩
  · exact hinv.of_eq (by simp) (by simp) (by simp) (by simp) (by simp) (by simp)
  · exact writeReg_inv hinv r x
  · exact hinv.of_eq rfl rfl rfl rfl rfl rfl
  · exact hinv
  · exact hostMemory_inv hm (hinv.of_eq rfl rfl rfl rfl rfl rfl)
  · obtain ⟨haligned, hstatus, hwf, hspace⟩ := hinv
    exact hostMemory_inv hm ⟨haligned, hstatus, Mem.wf_writeLE _ _ _ _ hwf,
      Mem.inSpace_writeLE _ _ _ _ (hostTarget_memory _ _ _ htarget) hspace⟩

/-- Settles O57: an idle engine's turn changes no field of the invariant, and the other two kinds of step keep it. -/
theorem everyStepKeepsInvariant : Obligations.EveryStepKeepsInvariant := by
  intro s t hinv h
  have hturns : ∀ ts, State.Inv { s with turns := ts } := fun _ => hinv
  obtain ⟨-, -, rfl⟩ | ⟨-, hbusy, hengine⟩ | ⟨op, ts, -, hhost⟩ := step_next_cases s t h
  · exact hturns _
  · exact engineStep_inv hengine (hturns _) hbusy
  · exact hostTurn_inv hhost (hturns _)

/-- Settles O58: CMDPTR is 0, every STATUS field is 0 and memory lists no byte. -/
theorem resetMeetsInvariant : Obligations.ResetMeetsInvariant :=
  ⟨by decide, ⟨by decide, by decide, by decide⟩, by decide, by decide⟩

/-- Settles O54: the values the reset state's definition lists; every mark is the replicated false. -/
theorem resetStateValues : Obligations.ResetStateValues :=
  ⟨rfl, by decide, by decide, by decide, rfl, fun r => by simp [State.reset]⟩

end Sys2Proof.Machine

end

section
/-! PROOFS. Frames of the commands: CMDPTR advances by the command's length (R33, R95), only the register VD names is
written and marked (R46, R47), and no other control state changes (R35, R130). -/

namespace Sys2Proof.Laws

/-- The words of every instruction are a well-formed command (R98). -/
theorem EncodeLegal.all : ∀ i : Instr, EncodeLegal.Statement i
  | .endStream => EncodeLegal.endStream
  | .nop => EncodeLegal.nop
  | .vld .. => EncodeLegal.vld ..
  | .vst .. => EncodeLegal.vst ..
  | .vwiden .. => EncodeLegal.vwiden ..
  | .vnarrow16 .. => EncodeLegal.vnarrow16 ..
  | .vpack8 .. => EncodeLegal.vpack8 ..
  | .vmullo .. => EncodeLegal.vmullo ..
  | .cm4x4 .. => EncodeLegal.cm4x4 ..
  | .cm3x3 .. => EncodeLegal.cm3x3 ..
  | .cmdot .. => EncodeLegal.cmdot ..
  | .conv3x3 .. => EncodeLegal.conv3x3 ..
  | .conv5x5 .. => EncodeLegal.conv5x5 ..

end Sys2Proof.Laws

namespace Sys2Proof.Machine

/-- The first word of an encoded instruction is legal, and its opcode gives the instruction's length (R95, R98). -/
theorem encode_first (i : Instr) :
    legalFirst (encode i).first = true ∧ lengthOf (encode i).first = some i.words := by
  have hwf := (Laws.EncodeLegal.all i).1
  rwa [Command.wellFormed, Bool.and_eq_true, beq_iff_eq] at hwf

/-- A completed command advances CMDPTR by its words. -/
theorem exec_cmdptr {i : Instr} {s t : State} (h : exec i s = .next t) :
    t.cmdptr = s.cmdptr + BitVec.ofNat 32 (4 * i.words) := by
  obtain ⟨rfl, rfl⟩ | ⟨-, vd, x, -, rfl⟩ | ⟨-, -, c, m, -, rfl⟩ := exec_next_cases i s t h <;> rfl

/-- Settles O39: the length the opcode gives is the number of words that CMDPTR advances by. -/
theorem everyCommandAdvancesByItsLength : Obligations.EveryCommandAdvancesByItsLength := by
  intro i s t l hl h
  rw [(encode_first i).2, Option.some_inj] at hl
  rw [← hl, exec_cmdptr h]

/-- A completed command marks its destination register and leaves every other register and mark. -/
theorem exec_vector_frame {i : Instr} {s t : State} (h : exec i s = .next t) (r : VReg) :
    (vectorDest i = some r → t.written[r] = true) ∧
      (vectorDest i ≠ some r → t.v[r] = s.v[r] ∧ t.written[r] = s.written[r]) := by
  obtain ⟨rfl, rfl⟩ | ⟨-, vd, x, hvd, rfl⟩ | ⟨-, hvd, c, m, -, rfl⟩ := exec_next_cases i s t h
  · exact ⟨nofun, fun _ => ⟨rfl, rfl⟩⟩
  · rw [hvd, ne_eq, Option.some_inj]
    constructor
    · rintro rfl
      exact State.setV_written_self s vd x
    · intro hne
      exact ⟨State.setV_v_other s vd r x (Ne.symm hne), State.setV_written_other s vd r x (Ne.symm hne)⟩
  · rw [hvd]
    exact ⟨nofun, fun _ => ⟨rfl, rfl⟩⟩

/-- Settles O40: the register the statement names for each command is the command's destination. -/
theorem onlyVdRegisterIsWritten : Obligations.OnlyVdRegisterIsWritten := by
  intro i s t h r named
  have hnamed : named = vectorDest i := by cases i <;> rfl
  rw [hnamed]
  exact exec_vector_frame h r

/-- Settles O41: END changes CMDPTR, BUSY and DONE; a register's value and mark, memory and the latch are all that any
other command changes besides CMDPTR. -/
theorem commandsLeaveControlState : Obligations.CommandsLeaveControlState := by
  intro i s t h
  obtain ⟨rfl, rfl⟩ | ⟨-, vd, x, -, rfl⟩ | ⟨-, -, c, m, -, rfl⟩ := exec_next_cases i s t h
  · simp
  · simp
  · simp

/-- A completed command clears no mark. -/
theorem exec_keeps_marks {i : Instr} {s t : State} (h : exec i s = .next t) {r : VReg} (hr : s.written[r] = true) :
    t.written[r] = true := by
  obtain ⟨hnamed, hother⟩ := exec_vector_frame h r
  by_cases hvd : vectorDest i = some r
  · exact hnamed hvd
  · exact (hother hvd).2.trans hr

end Sys2Proof.Machine

end

section
/-! PROOFS. What a command's outcome rests on: the platform, memory and the registers marked written (R47 to R49). -/

namespace Sys2Proof.Machine

open Sys2Proof.Claims

/-- A command cannot tell `s'` from `s` before it completes: they agree on all that its checks, loads and register reads
look at. -/
structure SameInputs (s s' : State) : Prop where
  platform : s'.platform = s.platform
  mem : s'.mem = s.mem
  readV : ∀ r, Machine.readV s' r = Machine.readV s r

/-- What a completed command of `l` words does to the state it runs in. -/
inductive Effect where
  | endRun
  | keep (l : Nat)
  | register (vd : VReg) (x : V128) (l : Nat)
  | store (m : Mem) (l : Nat)
  | kernel (latch : List Half) (m : Mem) (l : Nat)

/-- The state after an effect. -/
def Effect.apply (s : State) : Effect → State
  | .endRun => State.endRun (State.advance s 1)
  | .keep l => State.advance s l
  | .register vd x l => State.advance (State.setV s vd x) l
  | .store m l => State.advance { s with mem := m } l
  | .kernel c m l => State.advance { s with latch := c, mem := m } l

/-- A computation has one result for all states with the inputs of `s`: the same fault, or the same effect. -/
def Determined (s : State) (k : State → Except Fault State) : Prop :=
  (∃ f, ∀ s', SameInputs s s' → k s' = .error f) ∨ ∃ e : Effect, ∀ s', SameInputs s s' → k s' = .ok (e.apply s')

theorem Determined.ok (s : State) (e : Effect) : Determined s fun s' => .ok (e.apply s') := .inr ⟨e, fun _ _ => rfl⟩

theorem Determined.error (s : State) (f : Fault) : Determined s fun _ => .error f := .inl ⟨f, fun _ _ => rfl⟩

/-- A computation that begins with a part which sees the inputs only is determined when it is from each of the part's
values on. -/
theorem Determined.bind {α : Type} {s : State} {q : State → Except Fault α} {k : α → State → Except Fault State}
    (hq : ∀ s', SameInputs s s' → q s' = q s) (hk : ∀ x, Determined s (k x)) :
    Determined s fun s' => q s' >>= fun x => k x s' := by
  cases h : q s with
  | error f => exact .inl ⟨f, fun s' hs => by simp only [hq s' hs, h, error_bind]⟩
  | ok x =>
    refine (hk x).imp ?_ ?_
    · rintro ⟨f, hf⟩
      exact ⟨f, fun s' hs => by simp only [hq s' hs, h, ok_bind, hf s' hs]⟩
    · rintro ⟨e, he⟩
      exact ⟨e, fun s' hs => by simp only [hq s' hs, h, ok_bind, he s' hs]⟩

theorem Determined.readV {s : State} (r : VReg) {k : V128 → State → Except Fault State}
    (hk : ∀ x, Determined s (k x)) : Determined s fun s' => Machine.readV s' r >>= fun x => k x s' :=
  .bind (fun _ hs => hs.readV r) hk

theorem unaryV_determined (s : State) (f : V128 → V128) (vd vs1 : VReg) : Determined s (unaryV f vd vs1) :=
  .readV vs1 fun x => .ok s (.register vd (f x) 1)

theorem binaryV_determined (s : State) (f : V128 → V128 → V128) (vd vs1 vs2 : VReg) :
    Determined s (binaryV f vd vs1 vs2) :=
  .readV vs1 fun x => .readV vs2 fun y => .ok s (.register vd (f x y) 1)

/-- A kernel command whose pixels are computed from the inputs is determined: the latch it uses is the one it loads. -/
theorem runKernel_determined (s : State) (coefBase nCoefs dst count l : Nat) (overlaps : Bool)
    (f : State → List Half → Mem → Nat → Except Fault Pixel) (hf : ∀ s', SameInputs s s' → f s' = f s) :
    Determined s fun s' => runKernel s' coefBase nCoefs dst count l overlaps (f s') := by
  refine .bind (fun s' hs => by rw [hs.platform, hs.mem]) fun c => ?_
  cases overlaps with
  | true => exact .error s _
  | false =>
    exact .bind (q := fun s' => pixelLoop s'.platform dst (f s' c) count 0 s'.mem)
      (fun s' hs => by rw [hs.platform, hs.mem, hf s' hs]) fun m => .ok s (.kernel c m l)

theorem colourMatrix_determined (s : State) (f : List Half → Pixel → Pixel) (dst src coefBase count : Word) :
    Determined s (colourMatrix f dst src coefBase count) :=
  runKernel_determined s _ _ _ _ _ _
    (fun s' c m i => do
      let x ← readPixel s'.platform m src.toNat i
      .ok (f c x))
    fun s' hs => by rw [hs.platform]

theorem convolution_determined (s : State) (k l : Nat) (dst : Word) (rows : List Word) (coefBase count : Word) :
    Determined s (convolution k l dst rows coefBase count) :=
  runKernel_determined s _ _ _ _ _ _
    (fun s' w m x => do
      let window ← readWindow s'.platform m k x (rows.map BitVec.toNat)
      .ok (convolve w window))
    fun s' hs => by rw [hs.platform]

/-- Every command is a determined computation. -/
theorem exec_eq_outcome (i : Instr) (s : State) : ∃ k, Determined s k ∧ ∀ s', exec i s' = outcome (k s') := by
  cases i with
  | endStream => exact ⟨_, .ok s .endRun, fun _ => rfl⟩
  | nop => exact ⟨_, .ok s (.keep 1), fun _ => rfl⟩
  | vld vd addr =>
    refine ⟨_, ?_, fun _ => rfl⟩
    exact .bind (q := fun s' => memRead s'.platform s'.mem addr.toNat 16)
      (fun s' hs => by rw [hs.platform, hs.mem]) fun x => .ok s (.register vd (BitVec.ofNat 128 x) 2)
  | vst vs1 addr =>
    refine ⟨_, ?_, fun _ => rfl⟩
    exact .readV vs1 fun x => .bind (q := fun s' => memWrite s'.platform s'.mem addr.toNat 16 x.toNat)
      (fun s' hs => by rw [hs.platform, hs.mem]) fun m => .ok s (.store m 2)
  | vwiden vd vs1 => exact ⟨_, unaryV_determined s widen vd vs1, fun _ => rfl⟩
  | vnarrow16 vd vs1 vs2 => exact ⟨_, binaryV_determined s narrow16 vd vs1 vs2, fun _ => rfl⟩
  | vpack8 vd vs1 vs2 => exact ⟨_, binaryV_determined s narrow8 vd vs1 vs2, fun _ => rfl⟩
  | vmullo vd vs1 vs2 => exact ⟨_, binaryV_determined s mulLow vd vs1 vs2, fun _ => rfl⟩
  | cm4x4 dst src cb count => exact ⟨_, colourMatrix_determined s f4x4 dst src cb count, fun _ => rfl⟩
  | cm3x3 dst src cb count => exact ⟨_, colourMatrix_determined s f3x3 dst src cb count, fun _ => rfl⟩
  | cmdot dst src cb count => exact ⟨_, colourMatrix_determined s fDot dst src cb count, fun _ => rfl⟩
  | conv3x3 dst r0 r1 r2 cb count =>
    exact ⟨_, convolution_determined s 3 7 dst [r0, r1, r2] cb count, fun _ => rfl⟩
  | conv5x5 dst r0 r1 r2 r3 r4 cb count =>
    exact ⟨_, convolution_determined s 5 9 dst [r0, r1, r2, r3, r4] cb count, fun _ => rfl⟩

/-- In two states that a command cannot tell apart it raises the same fault or completes with the same effect. -/
theorem exec_of_sameInputs (i : Instr) {s s' : State} (hs : SameInputs s s') :
    (∃ f, exec i s = .fault f ∧ exec i s' = .fault f) ∨
      ∃ e : Effect, exec i s = .next (e.apply s) ∧ exec i s' = .next (e.apply s') := by
  obtain ⟨k, hk, hexec⟩ := exec_eq_outcome i s
  have hself : SameInputs s s := ⟨rfl, rfl, fun _ => rfl⟩
  rw [hexec, hexec]
  refine hk.imp ?_ ?_
  · rintro ⟨f, hf⟩
    exact ⟨f, by rw [hf s hself, outcome_error], by rw [hf s' hs, outcome_error]⟩
  · rintro ⟨e, he⟩
    exact ⟨e, by rw [he s hself, outcome_ok], by rw [he s' hs, outcome_ok]⟩

/-- A read of a register gives the same in two states that agree on the registers marked written (R47). -/
theorem readV_of_agree {s : State} {v' : Vector V128 8} (h : agreeOnWritten s.written s.v v') (r : VReg) :
    readV { s with v := v' } r = readV s r := by
  cases hr : s.written[r] with
  | true => rw [readV_of_written s r hr, readV_of_written { s with v := v' } r hr, h r hr]
  | false => rw [readV_unwritten s r hr, readV_unwritten { s with v := v' } r hr]

/-- A register written in both files leaves them agreeing on the registers marked written. -/
theorem agreeOnWritten_setV {s : State} {v' : Vector V128 8} (h : agreeOnWritten s.written s.v v') (vd : VReg)
    (x : V128) : agreeOnWritten (State.setV s vd x).written (State.setV s vd x).v
      (State.setV { s with v := v' } vd x).v := by
  intro r hr
  by_cases hvd : r = vd
  · rw [hvd, State.setV_v_self, State.setV_v_self]
  · rw [State.setV_written_other _ _ _ _ hvd] at hr
    rw [State.setV_v_other _ _ _ _ hvd, State.setV_v_other _ _ _ _ hvd]
    exact h r hr

/-- An effect keeps two states that differ in registers not marked written differing only so. -/
theorem Effect.apply_agree {s : State} {v' : Vector V128 8} (h : agreeOnWritten s.written s.v v') (e : Effect) :
    e.apply { s with v := v' } = { e.apply s with v := (e.apply { s with v := v' }).v } ∧
      agreeOnWritten (e.apply s).written (e.apply s).v (e.apply { s with v := v' }).v := by
  cases e with
  | register vd x l => exact ⟨rfl, agreeOnWritten_setV h vd x⟩
  | endRun => exact ⟨rfl, h⟩
  | keep l => exact ⟨rfl, h⟩
  | store m l => exact ⟨rfl, h⟩
  | kernel c m l => exact ⟨rfl, h⟩

/-- Settles O43: a command reads a register through its mark, so it cannot tell the two states apart. -/
theorem unwrittenContentsCannotBeSeen : Obligations.UnwrittenContentsCannotBeSeen := by
  intro i s v' hagree
  obtain ⟨f, h, h'⟩ | ⟨e, h, h'⟩ :=
    exec_of_sameInputs i (s := s) (s' := { s with v := v' }) ⟨rfl, rfl, readV_of_agree hagree⟩
  · simp [h, h']
  · obtain ⟨hrest, hafter⟩ := e.apply_agree hagree
    simp only [h, h', reduceCtorEq, false_implies, implies_true, true_and, Host.Outcome.next.injEq, forall_eq',
      exists_eq_left']
    exact ⟨hrest, hafter⟩

/-- Settles O44: no command reads the latch before it loads it; a kernel command replaces it and any other keeps it. -/
theorem oldLatchCannotBeSeen : Obligations.OldLatchCannotBeSeen := by
  intro i s c
  obtain ⟨f, h, h'⟩ | ⟨e, h, h'⟩ :=
    exec_of_sameInputs i (s := s) (s' := { s with latch := c }) ⟨rfl, rfl, fun _ => rfl⟩
  · simp [h, h']
  · simp only [h, h', reduceCtorEq, false_implies, implies_true, true_and, Host.Outcome.next.injEq, forall_eq']
    cases e with
    | kernel c' m l => exact .inl rfl
    | endRun => exact .inr rfl
    | keep l => exact .inr rfl
    | register vd x l => exact .inr rfl
    | store m l => exact .inr rfl

end Sys2Proof.Machine

end

section
/-! PROOFS. The register window: which register a host access reaches (R36, R40, R70), what a write does to the fields
(R37 to R43) and what a read gives. -/

namespace Sys2Proof.Machine

open Sys2Proof.Claims

/-! Which target an access reaches. -/

/-- A window has a register at exactly the word offsets below 16 (R36). -/
theorem windowReg_isSome_iff (offset : Word) :
    (∃ r, windowReg offset = some r) ↔ offset.toNat % 4 = 0 ∧ offset.toNat < 16 := by
  have hcases : (∃ r, windowReg offset = some r) ↔
      offset = 0#32 ∨ offset = 4#32 ∨ offset = 8#32 ∨ offset = 12#32 := by
    unfold windowReg
    split_ifs <;> simp_all
  rw [hcases]
  simp only [← BitVec.toNat_inj, BitVec.toNat_ofNat]
  omega

/-- An access in the window at `base`, `offset` bytes on, reaches that offset's register. -/
theorem windowTarget_of_offset {base offset : Word} {r : WindowReg} (k : WindowReg → HostTarget)
    (hbase : base.toNat % 16 = 0) (hr : windowReg offset = some r) :
    windowTarget base (base + offset) .word k = .ok (k r) := by
  obtain ⟨hword, hlt⟩ := (windowReg_isSome_iff offset).mp ⟨r, hr⟩
  refine (windowTarget_ok_iff _ _ _ _ _).mpr ⟨rfl, ?_, r, ?_, rfl⟩
  · rw [BitVec.toNat_add]
    omega
  · rwa [BitVec.add_comm, BitVec.add_sub_cancel]

/-- An access to a window that is not an aligned 32-bit one is refused (R40). -/
theorem windowTarget_refused {addr : Word} {w : Width} (base : Word) (k : WindowReg → HostTarget)
    (h : w ≠ .word ∨ addr.toNat % 4 ≠ 0) :
    windowTarget base addr w k = .error (.windowAccess addr.toNat (widthBytes w)) :=
  if_neg (by tauto)

/-- The host reaches each register of this core's window at its offset from BASE_MMIO. -/
theorem hostTarget_own {p : Platform} {offset : Word} {r : WindowReg} (hplaced : p.baseMmio.toNat % 16 = 0)
    (hr : windowReg offset = some r) : hostTarget p (p.baseMmio + offset) .word = .ok (.own r) := by
  obtain ⟨-, hlt⟩ := (windowReg_isSome_iff offset).mp ⟨r, hr⟩
  have hown : meetsOwnWindow p (p.baseMmio + offset).toNat (widthBytes .word) = true := by
    have hfits := p.baseMmio.isLt
    rw [meetsOwnWindow, rangesMeet_iff, BitVec.toNat_add, widthBytes]
    omega
  rw [hostTarget, if_pos hown, windowTarget_of_offset _ hplaced hr]

/-- A range that meets another core's window meets the one `otherWindow` finds. -/
theorem otherWindow_of_meets {p : Platform} {a n : Nat} (h : meetsOtherWindow p a n = true) :
    ∃ b ∈ p.otherMmio, otherWindow p a n = some b ∧ rangesMeet a n b.toNat 16 = true := by
  cases hb : otherWindow p a n with
  | none => rw [(otherWindow_none_iff p a n).mp hb] at h; cases h
  | some b =>
    exact ⟨b, List.mem_of_find?_eq_some hb, rfl,
      List.find?_some (p := fun c : Word => rangesMeet a n c.toNat 16) hb⟩

/-- An aligned 32-bit access outside this core's window that meets another core's reaches a register of it (R246). -/
theorem hostTarget_other {p : Platform} {addr : Word} (hplaced : ∀ b ∈ p.otherMmio, b.toNat % 16 = 0)
    (hown : meetsOwnWindow p addr.toNat 4 = false) (hother : meetsOtherWindow p addr.toNat 4 = true)
    (haligned : addr.toNat % 4 = 0) : ∃ r, hostTarget p addr .word = .ok (.other r) := by
  obtain ⟨b, hmem, hfound, hmeets⟩ := otherWindow_of_meets hother
  have hbase := hplaced b hmem
  rw [rangesMeet_iff] at hmeets
  have hsub : (addr - b).toNat = addr.toNat - b.toNat := BitVec.toNat_sub_of_le (BitVec.le_def.mpr (by omega))
  obtain ⟨r, hr⟩ := (windowReg_isSome_iff (addr - b)).mpr (by omega)
  refine ⟨r, ?_⟩
  rw [hostTarget, widthBytes, hown, hfound]
  exact (windowTarget_ok_iff _ _ _ _ _).mpr ⟨rfl, haligned, r, hr, rfl⟩

/-- A host access that meets a window and is not an aligned 32-bit one has no target. -/
theorem hostTarget_refused {p : Platform} {addr : Word} {w : Width}
    (hmeets : meetsOwnWindow p addr.toNat (widthBytes w) = true ∨ meetsOtherWindow p addr.toNat (widthBytes w) = true)
    (h : w ≠ .word ∨ addr.toNat % 4 ≠ 0) :
    hostTarget p addr w = .error (.windowAccess addr.toNat (widthBytes w)) := by
  cases hown : meetsOwnWindow p addr.toNat (widthBytes w) with
  | true => rw [hostTarget, if_pos hown, windowTarget_refused _ _ h]
  | false =>
    obtain ⟨b, -, hfound, -⟩ := otherWindow_of_meets (hmeets.resolve_left (by simp [hown]))
    rw [hostTarget, hown, hfound]
    exact windowTarget_refused _ _ h

/-! What the host's turn does at each target. -/

theorem hostTurn_write_own {s : State} {offset : Word} {r : WindowReg} (hplaced : windowPlaced s)
    (hr : windowReg offset = some r) (x : Word) :
    hostTurn (.write (s.platform.baseMmio + offset) .word x) s = .next (writeReg s r x) := by
  rw [hostTurn, hostTarget_own hplaced hr]

theorem hostTurn_read_own {s : State} {offset : Word} {r : WindowReg} (hplaced : windowPlaced s)
    (hr : windowReg offset = some r) :
    hostTurn (.read (s.platform.baseMmio + offset) .word) s = .next (hostRegRead s r) := by
  rw [hostTurn, hostTarget_own hplaced hr]

/-- CTRL stands at BASE_MMIO itself. -/
theorem hostTurn_write_ctrl {s : State} (hplaced : windowPlaced s) (x : Word) :
    hostTurn (.write s.platform.baseMmio .word x) s = .next (writeCtrl s x) := by
  simpa [writeReg] using hostTurn_write_own hplaced (offset := 0#32) (r := .ctrl) rfl x

theorem hostTurn_read_ctrl {s : State} (hplaced : windowPlaced s) :
    hostTurn (.read s.platform.baseMmio .word) s = .next (hostRegRead s .ctrl) := by
  simpa using hostTurn_read_own hplaced (offset := 0#32) (r := .ctrl) rfl

/-- A read of the window returns the register's value. -/
@[simp] theorem hostRegRead_hostData (s : State) (r : WindowReg) : (hostRegRead s r).hostData = readReg s r := by
  cases r <;> simp [hostRegRead]

/-- A read of STATUS that gives BUSY = 0 empties the record of the engine's accesses (R74, R76). -/
theorem hostRegRead_status_used {s : State} (h : s.busy = false) : (hostRegRead s .status).used = [] := by
  simp [hostRegRead, acknowledge, h]

/-- Any other read of the window keeps that record. -/
theorem hostRegRead_used {s : State} {r : WindowReg} (h : r ≠ .status ∨ s.busy = true) :
    (hostRegRead s r).used = s.used := by
  cases r with
  | status => simp [hostRegRead, acknowledge, h.resolve_left (by simp)]
  | ctrl => rfl
  | cmdptr => rfl
  | reserved => rfl

/-- A read of the window changes the value returned and that record only (R41). -/
theorem hostRegRead_eq (s : State) (r : WindowReg) :
    hostRegRead s r = { s with hostData := readReg s r, used := (hostRegRead s r).used } := by
  cases r with
  | status => cases hb : s.busy <;> simp [hostRegRead, acknowledge, hb]
  | ctrl => rfl
  | cmdptr => rfl
  | reserved => rfl

/-! The fields. -/

/-- Settles O45: with START = 1 an idle engine takes the starting branch of the CTRL write. -/
theorem startRunsTheEngine : Obligations.StartRunsTheEngine := by
  intro s x hplaced hidle hstart
  rw [hostTurn_write_ctrl hplaced, writeCtrl, hidle, hstart]
  rfl

/-- Settles O48: with START = 0, or BUSY = 1, the CTRL write takes its other branch. -/
theorem ctrlWriteWithoutStartSetsOnlyIe : Obligations.CtrlWriteWithoutStartSetsOnlyIe := by
  intro s x hplaced h
  rw [hostTurn_write_ctrl hplaced, writeCtrl, if_neg]
  rcases h with h | h
  · rw [h, Bool.false_and]
    exact Bool.false_ne_true
  · simp [h]

/-- Settles O46: writing 1 clears the field, writing 0 keeps it. -/
theorem statusBitsAreWriteOneToClear : Obligations.StatusBitsAreWriteOneToClear := by
  intro s x hplaced
  have hclear : ∀ b c : Bool, (b && !c) = if c then false else b := by decide
  rw [hostTurn_write_own hplaced (r := .status) rfl, writeReg, writeStatus, hclear, hclear]

/-- Settles O47: the mask of the write and of the read rounds down to a word address, which an aligned CMDPTR is. -/
theorem cmdptrWritableOnlyWhenIdle : Obligations.CmdptrWritableOnlyWhenIdle := by
  intro s x hplaced
  have hwrite := hostTurn_write_own hplaced (offset := 8#32) (r := .cmdptr) rfl x
  refine ⟨fun hidle => ⟨_, toNat_clear_low_bits x, ?_⟩, fun hbusy => ?_, fun haligned => ?_⟩
  · rw [hwrite, writeReg, writeCmdptr, hidle]
    rfl
  · rw [hwrite, writeReg, writeCmdptr, if_pos hbusy]
  · have hread : readCmdptr s = s.cmdptr := by
      rw [Aligned] at haligned
      apply BitVec.eq_of_toNat_eq
      rw [readCmdptr, toNat_clear_low_bits]
      omega
    rw [hostTurn_read_own hplaced (r := .cmdptr) rfl]
    simp [hostRegRead, readReg, hread]

/-- CTRL reads IE in bit 1 and zeros elsewhere (R37). -/
theorem getLsbD_readCtrl (s : State) : ∀ b < 32, (readCtrl s).getLsbD b = (b == 1 && s.ie) := by
  unfold readCtrl
  cases s.ie <;> decide

/-- STATUS reads BUSY, DONE and ERR in bits 0 to 2, ERRCODE from bit 8 on, and zeros elsewhere (R38). -/
theorem getLsbD_readStatus (s : State) (b : Nat) (hb : b < 32) : (readStatus s).getLsbD b =
    (b == 0 && s.busy || b == 1 && s.done || b == 2 && s.err || decide (8 ≤ b) && s.errcode.getLsbD (b - 8)) := by
  have hlow : ∀ x y z : Bool, bit x + 2 * bit y + 4 * bit z < 2 ^ 8 ∧ ∀ b < 8,
      (bit x + 2 * bit y + 4 * bit z).testBit b = (b == 0 && x || b == 1 && y || b == 2 && z) := by decide
  obtain ⟨hlt, hbits⟩ := hlow s.busy s.done s.err
  rw [readStatus, BitVec.getLsbD_ofNat, Nat.add_comm, show 256 = 2 ^ 8 by rfl, Nat.testBit_two_pow_mul_add _ hlt]
  by_cases h8 : b < 8
  · simp [h8, hb, hbits b h8]
  · simp [h8, hb, show b ≠ 0 ∧ b ≠ 1 ∧ b ≠ 2 by omega, BitVec.getLsbD, show 8 ≤ b by omega]

/-- Settles O49: a read returns the register's value, whose bits are the fields. -/
theorem windowReadsGiveTheFields : Obligations.WindowReadsGiveTheFields := by
  intro s hplaced
  refine ⟨⟨_, hostTurn_read_ctrl hplaced, ?_⟩, ⟨_, hostTurn_read_own hplaced (r := .status) rfl, ?_⟩,
    ⟨_, hostTurn_read_own hplaced (r := .reserved) rfl, ?_⟩⟩
  · rw [hostRegRead_hostData]
    exact getLsbD_readCtrl s
  · rw [hostRegRead_hostData]
    exact getLsbD_readStatus s
  · rw [hostRegRead_hostData, readReg]

/-- Settles O52: the line is read off IE, DONE and ERR, and each action sets those as its equations say. -/
theorem interruptLineIsLevel : Obligations.InterruptLineIsLevel := by
  intro s
  refine ⟨by simp [State.irq], ?_, by simp [State.irq], by simp [State.irq], by simp [State.irq],
    by simp [State.irq, writeCtrl]⟩
  intro t h
  obtain rfl := Host.Outcome.next.inj h
  simp [State.irq]

/-- Settles O51: such an access has no target, so both host actions refuse it. -/
theorem otherWindowAccessesAreRefused : Obligations.OtherWindowAccessesAreRefused := by
  intro s addr w x hmeets h
  have htarget := hostTarget_refused hmeets h
  constructor
  · rw [hostTurn, htarget]
  · rw [hostTurn, htarget]

end Sys2Proof.Machine

end

section
/-! PROOFS. The host and the core's state: reads change none of it (R41), the vector registers are out of the host's
reach (R46, R48), and marks stay until a reset (R47). -/

namespace Sys2Proof.Machine

/-! Reads. -/

/-- Settles O50: what a read changes is written out at each of the three targets it can reach. -/
theorem hostReadsChangeNoCoreState : Obligations.HostReadsChangeNoCoreState := by
  constructor
  · intro s t addr w h
    rw [hostTurn] at h
    cases htarget : hostTarget s.platform addr w with
    | error r => simp [htarget] at h
    | ok target =>
      rw [htarget] at h
      cases target with
      | own r =>
        obtain rfl := Host.Outcome.next.inj h
        refine ⟨by simpa using hostRegRead_eq s r, fun r' hr => ?_, nofun, nofun⟩
        obtain rfl : r = r' := by simpa using hr
        exact ⟨by simp, by simp, by simp, fun hr hidle => hr ▸ hostRegRead_status_used hidle, hostRegRead_used⟩
      | other r =>
        obtain rfl := Host.Outcome.next.inj h
        refine ⟨rfl, nofun, fun r' hr => ?_, nofun⟩
        obtain rfl : r = r' := by simpa using hr
        exact ⟨rfl, rfl, rfl, rfl⟩
      | memory =>
        obtain ⟨-, rfl⟩ := (hostMemory_next_iff _ _ _ _).mp h
        cases hb : s.busy with
        | true => exact ⟨rfl, nofun, nofun, fun _ => ⟨rfl, rfl, rfl, rfl⟩⟩
        | false => exact ⟨rfl, nofun, nofun, fun _ => ⟨rfl, rfl, rfl, rfl⟩⟩
  · intro s addr x hplaced hown hother haligned
    obtain ⟨r, hr⟩ := hostTarget_other hplaced hown hother haligned
    exact ⟨by rw [hostTurn, hr], otherReg (Config.otherCoreWord s.draws) r, by rw [hostTurn, hr]; rfl⟩

/-! The vector registers. -/

/-- The outcome with its next state, if it has one, changed by `f`. -/
def mapNext (f : State → State) : Host.Outcome State Fault Refusal → Host.Outcome State Fault Refusal
  | .next s => .next (f s)
  | .fault e => .fault e
  | .refused r => .refused r

/-- `s` with other contents in the vector registers, their marks and the latch. -/
def State.withVectors (v' : Vector V128 8) (written' : Vector Bool 8) (latch' : List Half) (s : State) : State :=
  { s with v := v', written := written', latch := latch' }

section
variable (v' : Vector V128 8) (written' : Vector Bool 8) (latch' : List Half) (s : State)

/-- A window read looks at no vector register and keeps them. -/
theorem hostRegRead_withVectors (r : WindowReg) :
    hostRegRead (s.withVectors v' written' latch') r = (hostRegRead s r).withVectors v' written' latch' := by
  cases r with
  | status =>
    rw [hostRegRead, hostRegRead, acknowledge, acknowledge, apply_ite (State.withVectors v' written' latch')]
    rfl
  | ctrl => rfl
  | cmdptr => rfl
  | reserved => rfl

/-- A window write looks at no vector register and keeps them. -/
theorem writeReg_withVectors (r : WindowReg) (x : Word) :
    writeReg (s.withVectors v' written' latch') r x = (writeReg s r x).withVectors v' written' latch' := by
  cases r with
  | ctrl =>
    rw [writeReg, writeReg, writeCtrl, writeCtrl, apply_ite (State.withVectors v' written' latch')]
    rfl
  | status => rfl
  | cmdptr =>
    rw [writeReg, writeReg, writeCmdptr, writeCmdptr, apply_ite (State.withVectors v' written' latch')]
    rfl
  | reserved => rfl

/-- Nor does an access to data memory. -/
theorem hostMemory_withVectors (acc : Access) (s' : State) :
    hostMemory (s.withVectors v' written' latch') acc (s'.withVectors v' written' latch') =
      mapNext (State.withVectors v' written' latch') (hostMemory s acc s') := by
  rw [hostMemory, hostMemory, apply_ite (mapNext _), mapNext, mapNext, apply_ite (State.withVectors v' written' latch')]
  rfl

/-- A host action other than reset has the same outcome whatever the vector registers, marks and latch hold, and keeps
them. -/
theorem hostTurn_withVectors {op : HostOp} (hop : op ≠ .reset) :
    hostTurn op (s.withVectors v' written' latch') =
      mapNext (State.withVectors v' written' latch') (hostTurn op s) := by
  have hplatform : (s.withVectors v' written' latch').platform = s.platform := rfl
  cases op with
  | reset => exact absurd rfl hop
  | read addr w =>
    rw [hostTurn, hostTurn, hplatform]
    cases hostTarget s.platform addr w with
    | error r => rfl
    | ok target =>
      cases target with
      | own r => exact congrArg Host.Outcome.next (hostRegRead_withVectors v' written' latch' s r)
      | other r => rfl
      | memory =>
        exact hostMemory_withVectors v' written' latch' s _
          { s with hostData := BitVec.ofNat 32 (Mem.readLE s.mem addr.toNat (widthBytes w)) }
  | write addr w x =>
    rw [hostTurn, hostTurn, hplatform]
    cases hostTarget s.platform addr w with
    | error r => rfl
    | ok target =>
      cases target with
      | own r => exact congrArg Host.Outcome.next (writeReg_withVectors v' written' latch' s r x)
      | other r => rfl
      | memory => exact hostMemory_withVectors v' written' latch' s _ { s with mem := _ }

end

/-- A host action other than reset keeps the vector registers, the marks and the latch: put back what they held, and the
outcome is the same. -/
theorem hostTurn_keeps_vectors {op : HostOp} {s t : State} (hop : op ≠ .reset) (h : hostTurn op s = .next t) :
    t.v = s.v ∧ t.written = s.written ∧ t.latch = s.latch := by
  have hsame := hostTurn_withVectors s.v s.written s.latch s hop
  rw [show s.withVectors s.v s.written s.latch = s from rfl, h, mapNext, Host.Outcome.next.injEq] at hsame
  rw [hsame]
  exact ⟨rfl, rfl, rfl⟩

/-- Settles O55: the outcomes in the two states are the same up to the registers, marks and latch. -/
theorem hostCannotReachVectorRegisters : Obligations.HostCannotReachVectorRegisters := by
  refine ⟨fun op s t hop h => hostTurn_keeps_vectors hop h, fun op s v' written' latch' hop => ?_⟩
  have hsame := hostTurn_withVectors v' written' latch' s hop
  refine ⟨fun t h => ?_, fun f h => ?_, fun r h => ?_⟩ <;>
    (rw [h] at hsame; exact hsame)

/-! The marks. -/

/-- Settles O60: no engine step clears a mark and no host action but reset reaches one. -/
theorem writtenMarksStay : Obligations.WrittenMarksStay := by
  intro s t r hreset h hr
  obtain ⟨-, -, rfl⟩ | ⟨-, -, hengine⟩ | ⟨op, ts, hturns, hhost⟩ := step_next_cases s t h
  · exact hr
  · obtain ⟨w, -, -, rfl⟩ | ⟨i, -, -, hexec⟩ := (engineStep_next_iff _ _).mp hengine
    · exact hr
    · exact exec_keeps_marks hexec hr
  · have hop : op ≠ .reset := by
      rintro rfl
      exact hreset ts hturns
    rw [(hostTurn_keeps_vectors hop hhost).2.1]
    exact hr

end Sys2Proof.Machine

end

section
/-! PROOFS. Bytes that the host and a running stream share (R74, R234 item 3), and the host's accesses to all others. -/

namespace Sys2Proof.Machine

open Sys2Proof.Claims

/-! Bytes of a word. -/

/-- Byte j of a vector of bits is the j-th digit of its value in base 256. -/
theorem extractLsb'_byte {n : Nat} (x : BitVec n) (j : Nat) :
    x.extractLsb' (8 * j) 8 = BitVec.ofNat 8 (x.toNat / 256 ^ j) := by
  rw [BitVec.extractLsb', Nat.shiftRight_eq_div_pow, Nat.pow_mul]

/-- What a host access reads fits its width, so as a word it keeps its value. -/
theorem toNat_ofNat_readLE (m : Mem) (a : Nat) (w : Width) :
    (BitVec.ofNat 32 (Mem.readLE m a (widthBytes w))).toNat = Mem.readLE m a (widthBytes w) ∧
      Mem.readLE m a (widthBytes w) < 2 ^ (8 * widthBytes w) := by
  have hlt := Mem.readLE_lt m (widthBytes w) a
  rw [Nat.pow_mul]
  refine ⟨?_, hlt⟩
  rw [BitVec.toNat_ofNat, Nat.mod_eq_of_lt]
  cases w with
  | byte => exact hlt.trans (by decide)
  | half => exact hlt.trans (by decide)
  | word => exact hlt

/-! The host's accesses. -/

/-- A host access that meets a forbidden access of the stream is a violation. -/
theorem hostMemory_violation {s : State} {acc : Access} (s' : State) (h : ∃ y ∈ s.used, conflicts y acc = true) :
    hostMemory s acc s' = .fault (.contractViolation .hostInterference acc.addr acc.n) := by
  rw [hostMemory, if_pos (List.any_eq_true.mpr h)]

/-- A host access that meets none completes. -/
theorem hostMemory_completes {s : State} {acc : Access} (s' : State) (h : ∀ y ∈ s.used, conflicts y acc = false) :
    hostMemory s acc s' = .next (if s.busy then { s' with touched := acc :: s.touched } else s') :=
  (hostMemory_next_iff _ _ _ _).mpr ⟨List.any_eq_false.mpr fun y hy => by simp [h y hy], rfl⟩

/-- A host write conflicts with every access of the stream that it shares a byte with. -/
theorem conflicts_write (y : Access) (a n : Nat) : conflicts y ⟨true, a, n⟩ = rangesMeet y.addr y.n a n := by
  simp [conflicts]

/-- A host read conflicts with the stream's writes that it shares a byte with. -/
theorem conflicts_read (y : Access) (a n : Nat) :
    conflicts y ⟨false, a, n⟩ = (y.write && rangesMeet y.addr y.n a n) := by
  simp [conflicts]

theorem hostTurn_write_memory {s : State} {addr : Word} {w : Width}
    (h : check s.platform addr.toNat (widthBytes w) = true) (x : Word) :
    hostTurn (.write addr w x) s = hostMemory s ⟨true, addr.toNat, widthBytes w⟩
      { s with mem := Mem.writeLE s.mem addr.toNat (widthBytes w) x.toNat } := by
  rw [hostTurn, (hostTarget_memory_iff _ _ _).mpr h]

theorem hostTurn_read_memory {s : State} {addr : Word} {w : Width}
    (h : check s.platform addr.toNat (widthBytes w) = true) :
    hostTurn (.read addr w) s = hostMemory s ⟨false, addr.toNat, widthBytes w⟩
      { s with hostData := BitVec.ofNat 32 (Mem.readLE s.mem addr.toNat (widthBytes w)) } := by
  rw [hostTurn, (hostTarget_memory_iff _ _ _).mpr h]

/-- A host write of valid memory is a violation where the stream has accessed a byte of it. -/
theorem hostWrite_violation {s : State} {addr : Word} {w : Width}
    (h : check s.platform addr.toNat (widthBytes w) = true) (x : Word)
    (hy : ∃ y ∈ s.used, rangesMeet y.addr y.n addr.toNat (widthBytes w) = true) :
    hostTurn (.write addr w x) s = .fault (.contractViolation .hostInterference addr.toNat (widthBytes w)) := by
  rw [hostTurn_write_memory h]
  exact hostMemory_violation _ (by simpa only [conflicts_write] using hy)

/-- A host read of valid memory is a violation where the stream has written a byte of it. -/
theorem hostRead_violation {s : State} {addr : Word} {w : Width}
    (h : check s.platform addr.toNat (widthBytes w) = true)
    (hy : ∃ y ∈ s.used, y.write = true ∧ rangesMeet y.addr y.n addr.toNat (widthBytes w) = true) :
    hostTurn (.read addr w) s = .fault (.contractViolation .hostInterference addr.toNat (widthBytes w)) := by
  rw [hostTurn_read_memory h]
  exact hostMemory_violation _ (by simpa only [conflicts_read, Bool.and_eq_true] using hy)

/-- Any other host write of valid memory stores the low bytes of its value and changes no other byte. -/
theorem hostWrite_completes {s : State} {addr : Word} {w : Width}
    (h : check s.platform addr.toNat (widthBytes w) = true) (x : Word)
    (hy : ∀ y ∈ s.used, rangesMeet y.addr y.n addr.toNat (widthBytes w) = false) :
    ∃ m : Mem, hostTurn (.write addr w x) s = .next { s with
        mem := m, touched := if s.busy then ⟨true, addr.toNat, widthBytes w⟩ :: s.touched else s.touched } ∧
      (∀ j < widthBytes w, Mem.read m (addr.toNat + j) = x.extractLsb' (8 * j) 8) ∧
      sameOutside s.mem m addr.toNat (widthBytes w) := by
  refine ⟨Mem.writeLE s.mem addr.toNat (widthBytes w) x.toNat, ?_, fun j hj => ?_, fun q hq => ?_⟩
  · rw [hostTurn_write_memory h, hostMemory_completes _ (by simpa only [conflicts_write] using hy)]
    cases s.busy <;> rfl
  · rw [Mem.read_writeLE_inside _ _ _ _ _ hj, extractLsb'_byte]
  · exact Mem.read_writeLE_outside _ _ _ _ _ hq

/-- Any other host read of valid memory returns the bytes it reads. -/
theorem hostRead_completes {s : State} {addr : Word} {w : Width}
    (h : check s.platform addr.toNat (widthBytes w) = true)
    (hy : ∀ y ∈ s.used, y.write = true → rangesMeet y.addr y.n addr.toNat (widthBytes w) = false) :
    ∃ d : Word, hostTurn (.read addr w) s = .next { s with
        hostData := d, touched := if s.busy then ⟨false, addr.toNat, widthBytes w⟩ :: s.touched else s.touched } ∧
      (∀ j < widthBytes w, d.extractLsb' (8 * j) 8 = Mem.read s.mem (addr.toNat + j)) ∧
      d.toNat < 2 ^ (8 * widthBytes w) := by
  obtain ⟨hvalue, hlt⟩ := toNat_ofNat_readLE s.mem addr.toNat w
  refine ⟨BitVec.ofNat 32 (Mem.readLE s.mem addr.toNat (widthBytes w)), ?_, fun j hj => ?_, by rwa [hvalue]⟩
  · rw [hostTurn_read_memory h,
      hostMemory_completes _ (by simpa only [conflicts_read, Bool.and_eq_false_imp] using hy)]
    cases s.busy <;> rfl
  · rw [extractLsb'_byte, hvalue, Mem.readLE_byte _ _ _ _ hj]

/-! The engine's steps. -/

/-- On the engine's turn a running engine takes its step. -/
theorem step_of_engineTurn {s : State} {ts : List Turn} (hturn : engineTurnOf s ts) (hbusy : s.busy = true) :
    step s = engineStep { s with turns := ts } := by
  obtain ⟨hs, rfl⟩ | hs := hturn
  · have hself : s = { s with turns := [] } := by rw [← hs]
    rw [step, hs, ← hself]
    exact if_pos hbusy
  · rw [step, hs]
    exact if_pos hbusy

/-- An engine step with an access that conflicts with one of the host's is a violation on such an access. -/
theorem withAccesses_violation {s : State} {accs : List Access} (k : State → Host.Outcome State Fault Refusal)
    (h : ∃ x ∈ s.touched, ∃ y ∈ accs, conflicts x y = true) :
    ∃ y ∈ accs, withAccesses s accs k = .fault (.contractViolation .hostInterference y.addr y.n) := by
  obtain ⟨x, hx, y, hy, hxy⟩ := h
  have hsome : (clash s accs).isSome :=
    List.find?_isSome.mpr ⟨y, hy, List.any_eq_true.mpr ⟨x, hx, hxy⟩⟩
  obtain ⟨z, hz⟩ := Option.isSome_iff_exists.mp hsome
  exact ⟨z, List.mem_of_find?_eq_some hz, by rw [withAccesses, hz]⟩

/-- The fetch of an illegal word makes one access, the read of that word. -/
theorem wordAccesses_one (a : Word) : wordAccesses a 1 0 = [⟨false, a.toNat, 4⟩] := by
  simp [wordAccesses, wordAddr]

/-- Settles O56: the host's accesses by what they conflict with, the engine's by the first that meets one of
the host's. -/
theorem sharedBytesAreViolations : Obligations.SharedBytesAreViolations := by
  refine ⟨fun s addr w x h => ⟨hostWrite_violation h x, hostRead_violation h, hostWrite_completes h x,
    hostRead_completes h⟩, ?_, ?_⟩
  · rintro s ts i hturn hbusy hfetch ⟨x, hx, y, hy, hwrite, hmeet⟩
    obtain ⟨z, -, hz⟩ := withAccesses_violation (s := { s with turns := ts }) (exec i)
      ⟨x, hx, y, hy, by simp [conflicts, hwrite, hmeet]⟩
    refine ⟨z.addr, z.n, ?_⟩
    rw [step_of_engineTurn hturn hbusy, engineStep, hfetch]
    exact hz
  · rintro s ts w hturn hbusy hfetch ⟨x, hx, hwrite, hmeet⟩
    obtain ⟨z, hmem, hz⟩ := withAccesses_violation (s := { s with turns := ts }) (accs := wordAccesses s.cmdptr 1 0)
      (fun t => .next (State.takeIllegal t))
      ⟨x, hx, ⟨false, s.cmdptr.toNat, 4⟩, by simp [wordAccesses_one], by simp [conflicts, hwrite, hmeet]⟩
    rw [wordAccesses_one, List.mem_singleton] at hmem
    rw [step_of_engineTurn hturn hbusy, engineStep, hfetch]
    rwa [hmem] at hz

end Sys2Proof.Machine

end

section
/-! PROOFS. Fetching an encoded command (R33, R63, R90, R120): the encoder's first word selects the instruction's row,
and the bytes of its words, wherever they lie, are read as its words. -/

namespace Sys2Proof.Machine

/-! The fields of an encoded first word (R91, R97). -/

/-- The bits of a first word are those of its opcode and of its register numbers, each from its field's lowest bit
on. -/
theorem getLsbD_firstWord (op : Nat) (vd vs1 vs2 : VReg) {b : Nat} (hb : b < 32) :
    (firstWord op vd vs1 vs2).getLsbD b = (op.testBit b || decide (8 ≤ b) && vd.val.testBit (b - 8) ||
      decide (11 ≤ b) && vs1.val.testBit (b - 11) || decide (14 ≤ b) && vs2.val.testBit (b - 14)) := by
  simp only [firstWord, BitVec.getLsbD_or, BitVec.getLsbD_shiftLeft, BitVec.getLsbD_ofNat, hb, decide_true,
    Bool.true_and, show b - 8 < 32 by omega, show b - 11 < 32 by omega, show b - 14 < 32 by omega, ← Nat.not_lt, decide_not]

/-- No bit of an opcode lies outside its eight bits. -/
theorem testBit_opcode {op b : Nat} (hop : op < 2 ^ 8) (hb : 8 ≤ b) : op.testBit b = false :=
  Nat.testBit_lt_two_pow (hop.trans_le (Nat.pow_le_pow_right (by decide) hb))

/-- No bit of a register number lies outside its field's three bits. -/
theorem testBit_register (r : VReg) {b : Nat} (hb : 3 ≤ b) : r.val.testBit b = false :=
  Nat.testBit_lt_two_pow (r.isLt.trans_le (Nat.pow_le_pow_right (by decide : 2 > 0) hb))

theorem extract_opcode_firstWord (op : Nat) (vd vs1 vs2 : VReg) :
    (firstWord op vd vs1 vs2).extractLsb' 0 8 = BitVec.ofNat 8 op := by
  apply BitVec.eq_of_getLsbD_eq
  intro b hb
  rw [BitVec.getLsbD_extractLsb', getLsbD_firstWord _ _ _ _ (by omega), BitVec.getLsbD_ofNat]
  simp [show ¬ 8 ≤ b by omega, show ¬ 11 ≤ b by omega, show ¬ 14 ≤ b by omega]

/-- A register field holds a register number when its three bits are the number's. -/
theorem regField_eq {w : Word} {lo : Nat} {r : VReg} (h : ∀ b < 3, w.getLsbD (lo + b) = r.val.testBit b) :
    regField w lo = r := by
  have hbits : w.extractLsb' lo 3 = BitVec.ofFin r := by
    apply BitVec.eq_of_getLsbD_eq
    intro b hb
    rw [BitVec.getLsbD_extractLsb', h b hb, decide_eq_true hb, Bool.true_and, BitVec.getLsbD, BitVec.toNat_ofFin]
  rw [regField, hbits]

section
variable {op : Nat} (hop : op < 2 ^ 8) (vd vs1 vs2 : VReg)
include hop

theorem fieldVd_firstWord : fieldVd (firstWord op vd vs1 vs2) = vd := by
  refine regField_eq fun b hb => ?_
  rw [getLsbD_firstWord _ _ _ _ (by omega), testBit_opcode hop (by omega)]
  simp [show ¬ 11 ≤ 8 + b by omega, show ¬ 14 ≤ 8 + b by omega]

theorem fieldVs1_firstWord : fieldVs1 (firstWord op vd vs1 vs2) = vs1 := by
  refine regField_eq fun b hb => ?_
  rw [getLsbD_firstWord _ _ _ _ (by omega), testBit_opcode hop (by omega), testBit_register vd (by omega)]
  simp [show ¬ 14 ≤ 11 + b by omega]

theorem fieldVs2_firstWord : fieldVs2 (firstWord op vd vs1 vs2) = vs2 := by
  refine regField_eq fun b hb => ?_
  rw [getLsbD_firstWord _ _ _ _ (by omega), testBit_opcode hop (by omega), testBit_register vd (by omega),
    testBit_register vs1 (by omega)]
  simp

/-- A two-source command is assembled with the three register numbers its first word was made of. -/
theorem assemble_twoSources (command : VReg → VReg → VReg → Instr) :
    some (command (fieldVd (firstWord op vd vs1 vs2)) (fieldVs1 (firstWord op vd vs1 vs2))
      (fieldVs2 (firstWord op vd vs1 vs2))) = some (command vd vs1 vs2) := by
  rw [fieldVd_firstWord hop, fieldVs1_firstWord hop, fieldVs2_firstWord hop]

end

/-- The words of an instruction decode to it when the row of the opcode map with its opcode assembles them to it (R94,
R99). -/
theorem decodeCommand_of_row {i : Instr} (k : Fin 13)
    (hop : (encode i).first.extractLsb' 0 8 = (opTable.get k).pattern.extractLsb' 0 8)
    (hasm : assemble (opTable.get k).opcode (encode i).first (encode i).operands = some i) :
    decodeCommand (encode i) = some i := by
  have hmem : opTable.get k ∈ opTable := List.get_mem ..
  have hrow : rowOf (encode i).first = some (opTable.get k) :=
    (rowOf_some_iff _ _).mpr ⟨hmem, (selects_iff_legal _ _ hmem).mpr ⟨(encode_first i).1, hop⟩⟩
  rw [decodeCommand, hrow]
  exact hasm

/-- Decoding the words of an instruction gives it back (R93, R96, R97). -/
theorem decodeCommand_encode (i : Instr) : decodeCommand (encode i) = some i := by
  cases i with
  | endStream => exact decodeCommand_of_row 0 (extract_opcode_firstWord ..) rfl
  | nop => exact decodeCommand_of_row 1 (extract_opcode_firstWord ..) rfl
  | vld vd addr =>
    refine decodeCommand_of_row 2 (extract_opcode_firstWord ..) ?_
    exact congrArg (fun d => some (Instr.vld d addr)) (fieldVd_firstWord (op := 0x10) (by decide) vd 0 0)
  | vst vs1 addr =>
    refine decodeCommand_of_row 3 (extract_opcode_firstWord ..) ?_
    exact congrArg (fun r => some (Instr.vst r addr)) (fieldVs1_firstWord (op := 0x11) (by decide) 0 vs1 0)
  | vwiden vd vs1 =>
    refine decodeCommand_of_row 4 (extract_opcode_firstWord ..) ?_
    exact congrArg₂ (fun d r => some (Instr.vwiden d r)) (fieldVd_firstWord (op := 0x20) (by decide) vd vs1 0)
      (fieldVs1_firstWord (op := 0x20) (by decide) vd vs1 0)
  | vnarrow16 vd vs1 vs2 =>
    exact decodeCommand_of_row 5 (extract_opcode_firstWord ..)
      (assemble_twoSources (op := 0x21) (by decide) vd vs1 vs2 .vnarrow16)
  | vpack8 vd vs1 vs2 =>
    exact decodeCommand_of_row 6 (extract_opcode_firstWord ..)
      (assemble_twoSources (op := 0x22) (by decide) vd vs1 vs2 .vpack8)
  | vmullo vd vs1 vs2 =>
    exact decodeCommand_of_row 7 (extract_opcode_firstWord ..)
      (assemble_twoSources (op := 0x23) (by decide) vd vs1 vs2 .vmullo)
  | cm4x4 dst src cb count => exact decodeCommand_of_row 8 (extract_opcode_firstWord ..) rfl
  | cm3x3 dst src cb count => exact decodeCommand_of_row 9 (extract_opcode_firstWord ..) rfl
  | cmdot dst src cb count => exact decodeCommand_of_row 10 (extract_opcode_firstWord ..) rfl
  | conv3x3 dst r0 r1 r2 cb count => exact decodeCommand_of_row 11 (extract_opcode_firstWord ..) rfl
  | conv5x5 dst r0 r1 r2 r3 r4 cb count => exact decodeCommand_of_row 12 (extract_opcode_firstWord ..) rfl

/-! Words in memory. -/

/-- Within an aligned word the address does not wrap (R33). -/
theorem toNat_add_in_word {a : Word} (ha : a.toNat % 4 = 0) (k : Nat) {j : Nat} (hj : j < 4) :
    (a + BitVec.ofNat 32 (4 * k + j)).toNat = wordAddr a k + j := by
  rw [wordAddr, BitVec.toNat_add, BitVec.toNat_add, BitVec.toNat_ofNat, BitVec.toNat_ofNat]
  omega

/-- Four bytes in memory are the word that they are the bytes of (R63, R90). -/
theorem ofNat_readLE_eq_word {m : Mem} {a : Nat} {w : Word}
    (h : ∀ j < 4, Mem.read m (a + j) = w.extractLsb' (8 * j) 8) : BitVec.ofNat 32 (Mem.readLE m a 4) = w := by
  have hbyte : ∀ j < 4, (Mem.read m (a + j)).toNat = w.toNat / 256 ^ j % 256 := fun j hj => by
    rw [h j hj, extractLsb'_byte, BitVec.toNat_ofNat]
  have h0 : (Mem.read m a).toNat = w.toNat / 256 ^ 0 % 256 := hbyte 0 (by decide)
  have h1 := hbyte 1 (by decide)
  have h2 := hbyte 2 (by decide)
  have h3 := hbyte 3 (by decide)
  have hw := w.isLt
  apply BitVec.eq_of_toNat_eq
  simp only [Mem.readLE, BitVec.toNat_ofNat, Nat.add_assoc, Nat.reduceAdd]
  omega

/-- The first four of a list of words' bytes are the first word's, lowest first (R63). -/
theorem getD_bytesOfWord_append (w : Word) (bs : List Byte) {j : Nat} (hj : j < 4) :
    (bytesOfWord w ++ bs).getD j 0#8 = w.extractLsb' (8 * j) 8 := by
  match j, hj with
  | 0, _ => rfl
  | 1, _ => rfl
  | 2, _ => rfl
  | 3, _ => rfl

/-- Words whose bytes stand from word k on, each passing the access check, are what the checked fetches read. -/
theorem readWords_of_bytes {p : Platform} {m : Mem} {a : Word} (ha : a.toNat % 4 = 0) (ws : List Word) : ∀ k : Nat,
    (∀ b < (ws.flatMap bytesOfWord).length,
      Mem.read m (a + BitVec.ofNat 32 (4 * k + b)).toNat = (ws.flatMap bytesOfWord).getD b 0#8) →
    (∀ j < ws.length, check p (wordAddr a (k + j)) 4 = true) → readWords p m a ws.length k = .ok ws := by
  induction ws with
  | nil => intro k _ _; rfl
  | cons w ws ih =>
    intro k hbytes hchecks
    have hlen : ((w :: ws).flatMap bytesOfWord).length = (ws.flatMap bytesOfWord).length + 4 := by
      rw [List.flatMap_cons, List.length_append, Nat.add_comm, bytesOfWord]
      rfl
    rw [hlen] at hbytes
    have hread : memRead p m (wordAddr a k) 4 = .ok (Mem.readLE m (wordAddr a k) 4) :=
      memRead_of_check _ _ _ _ (hchecks 0 (Nat.succ_pos _))
    have hword : BitVec.ofNat 32 (Mem.readLE m (wordAddr a k) 4) = w := ofNat_readLE_eq_word fun j hj => by
      rw [← toNat_add_in_word ha k hj, hbytes j (by omega), List.flatMap_cons, getD_bytesOfWord_append w _ hj]
    have hrest : readWords p m a ws.length (k + 1) = .ok ws := by
      refine ih (k + 1) (fun b hb => ?_) fun j hj => ?_
      · rw [show 4 * (k + 1) + b = 4 * k + (b + 4) by omega, hbytes (b + 4) (by omega)]
        rfl
      · rw [show k + 1 + j = k + (j + 1) by omega]
        exact hchecks (j + 1) (Nat.succ_lt_succ hj)
    rw [List.length_cons, readWords, hread, ok_bind, hrest, ok_bind, hword]

/-- The fetch gives the command whose words the checked fetches read, when its first word's row has as many words
(R120). -/
theorem fetch_of_readWords {p : Platform} {m : Mem} {a : Word} {w : Word} {ops : List Word} {i : Instr}
    (hwords : readWords p m a (ops.length + 1) 0 = .ok (w :: ops)) (hlength : lengthOf w = some (ops.length + 1))
    (hdecode : decodeCommand ⟨w, ops⟩ = some i) : fetch p m a = .ok (.command i) := by
  simp only [readWords, bind_ok_iff, Except.ok.injEq, List.cons.injEq] at hwords
  obtain ⟨x, hx, rest, hrest, hw, rfl⟩ := hwords
  cases hrow : rowOf w with
  | none => simp [decodeCommand, hrow] at hdecode
  | some row =>
    have hrowLength : row.length = rest.length + 1 := by
      rw [lengthOf_of_rowOf w row hrow] at hlength
      exact Option.some_inj.mp hlength
    simp only [fetch, hx, ok_bind, hw, hrow, hrowLength, Nat.add_sub_cancel, hrest, hdecode]

/-- Settles O6: the checked fetches read the encoder's words, and these decode to the instruction. -/
theorem fetchReadsEncodedCommand : Obligations.FetchReadsEncodedCommand := by
  intro p m a i ha hbytes hchecks
  refine fetch_of_readWords ?_ (encode_first i).2 (decodeCommand_encode i)
  refine readWords_of_bytes ha ((encode i).first :: (encode i).operands) 0 (fun b hb => ?_) fun j hj => ?_
  · rw [Nat.mul_zero, Nat.zero_add]
    exact hbytes b hb
  · rw [Nat.zero_add]
    exact hchecks j hj

end Sys2Proof.Machine

end

section
/-! PROOFS. Frame of data memory: a completed command changes only the bytes of its write accesses (R66), and a stored
register loaded back is unchanged (R63, R72, R141, R142). -/

namespace Sys2Proof.Machine

open Sys2Proof.Claims

/-- A completed command leaves every byte that lies outside its write accesses. -/
theorem exec_read_outside {i : Instr} {s t : State} (h : exec i s = .next t) {q : Nat}
    (hq : ∀ acc ∈ dataAccesses i, acc.write = true → q < acc.addr ∨ acc.addr + acc.n ≤ q) :
    Mem.read t.mem q = Mem.read s.mem q := by
  obtain ⟨-, rfl⟩ | ⟨-, vd, x, -, rfl⟩ | ⟨-, -, c, m, ⟨hout, -⟩, rfl⟩ := exec_next_cases i s t h
  · rfl
  · rfl
  · exact hout q hq

/-- The one write access of a colour-matrix command is its destination. -/
theorem forall_write_matrixAccesses {dst src cb count : Word} {P : Access → Prop}
    (h : P ⟨true, dst.toNat, 4 * count.toNat⟩) :
    ∀ acc ∈ matrixAccesses dst src cb count, acc.write = true → P acc := by
  simp [matrixAccesses, h]

/-- The one write access of a convolution is its destination. -/
theorem forall_write_convolutionAccesses {k : Nat} {dst : Word} {rows : List Word} {cb count : Word}
    {P : Access → Prop} (h : P ⟨true, dst.toNat, 4 * count.toNat⟩) :
    ∀ acc ∈ convolutionAccesses k dst rows cb count, acc.write = true → P acc := by
  simp [convolutionAccesses, h]

/-- Settles O38: the range the statement names for each command is the command's one write access. -/
theorem commandsWriteOnlyTheirDestination : Obligations.CommandsWriteOnlyTheirDestination := by
  intro i s t h q hq
  refine exec_read_outside h ?_
  cases i with
  | vst vs1 addr => exact List.forall_mem_singleton.mpr fun _ => hq
  | cm4x4 dst src cb count => exact forall_write_matrixAccesses hq
  | cm3x3 dst src cb count => exact forall_write_matrixAccesses hq
  | cmdot dst src cb count => exact forall_write_matrixAccesses hq
  | conv3x3 dst r0 r1 r2 cb count => exact forall_write_convolutionAccesses hq
  | conv5x5 dst r0 r1 r2 r3 r4 cb count => exact forall_write_convolutionAccesses hq
  | vld vd addr => exact List.forall_mem_singleton.mpr nofun
  | _ => exact List.forall_mem_nil _

/-- Settles O21: the sixteen bytes stored are read back as the register's value. -/
theorem storeThenLoadReturnsRegister : Obligations.StoreThenLoadReturnsRegister := by
  intro s vs1 vd addr hwritten hcheck
  refine ⟨_, _, (execVst_next_iff vs1 addr s _).mpr ⟨hwritten, hcheck, rfl⟩,
    (execVld_next_iff vd addr _ _).mpr ⟨hcheck, rfl⟩, ?_⟩
  have hvalue : Mem.readLE (Mem.writeLE s.mem addr.toNat 16 s.v[vs1].toNat) addr.toNat 16 = s.v[vs1].toNat := by
    rw [Mem.readLE_writeLE]
    exact Nat.mod_eq_of_lt s.v[vs1].isLt
  rw [State.advance_v, State.setV_v_self, State.advance_mem, hvalue, BitVec.ofNat_toNat, BitVec.setWidth_eq]

end Sys2Proof.Machine

end

section
/-! PROOFS. The first failed access check of a command (R62, R122): of its words, of its coefficients, and past these of a
pixel byte. -/

namespace Sys2Proof.Machine

open Sys2Proof.Claims

/-! Checked reads in a row: the words of a command and the coefficients of a kernel command. -/

/-- Checked reads at `addr k`, `addr (k + 1)`, … stop with the first whose check fails. -/
theorem checkedReads_first_failure {β : Type} {p : Platform} {m : Mem} {addr : Nat → Nat} {w : Nat} {item : Nat → β}
    {reads : Nat → Nat → Except Fault (List β)}
    (hreads : ∀ n k, reads (n + 1) k = do
      let x ← memRead p m (addr k) w
      let rest ← reads n (k + 1)
      .ok (item x :: rest))
    (n : Nat) : ∀ {k i : Nat}, k ≤ i → i < k + n → (∀ j, k ≤ j → j < i → check p (addr j) w = true) →
      check p (addr i) w = false → reads n k = .error (.contractViolation .access (addr i) w) := by
  induction n with
  | zero => intro k i _ _; omega
  | succ n ih =>
    intro k i hk hi hpass hfail
    rw [hreads]
    obtain rfl | hlt := Nat.eq_or_lt_of_le hk
    · rw [memRead_error _ _ _ _ hfail, error_bind]
    · have hrest := ih hlt (by omega) (fun j hj => hpass j (by omega)) hfail
      rw [memRead_of_check _ _ _ _ (hpass k le_rfl hlt), ok_bind, hrest, error_bind]

/-- Settles O9: the first word's read comes before its legality; then the reads of the operand words stop with the first
that fails. -/
theorem fetchFaultsInOrder : Obligations.FetchFaultsInOrder := by
  intro p m a
  have hfirst : wordAddr a 0 = a.toNat := by simp [wordAddr]
  constructor
  · intro hfail
    rw [fetch, hfirst, memRead_error _ _ _ _ hfail, error_bind]
  · intro l k hcheck hlegal hlength hk hkl hpass hfail
    obtain ⟨row, hrow⟩ := Option.isSome_iff_exists.mp ((rowOf_isSome _).trans hlegal)
    obtain rfl : row.length = l := Option.some_inj.mp ((lengthOf_of_rowOf _ _ hrow).symm.trans hlength)
    have hops : readWords p m a (row.length - 1) 1 =
        .error (.contractViolation .access (a + BitVec.ofNat 32 (4 * k)).toNat 4) :=
      checkedReads_first_failure (addr := wordAddr a) (fun _ _ => rfl) _ hk (by omega) hpass hfail
    simp only [fetch, hfirst, memRead_of_check _ _ _ _ hcheck, ok_bind, hrow, hops, error_bind]

/-- A kernel command stops with the first coefficient it may not read (R170, R200). -/
theorem runKernel_coefficient_fault (s : State) {coefBase nCoefs k : Nat} (dst count l : Nat) (overlaps : Bool)
    (f : List Half → Mem → Nat → Except Fault Pixel) (hk : k < nCoefs)
    (hpass : ∀ j < k, check s.platform (coefBase + 2 * j) 2 = true)
    (hfail : check s.platform (coefBase + 2 * k) 2 = false) :
    outcome (runKernel s coefBase nCoefs dst count l overlaps f) =
      .fault (.contractViolation .access (coefBase + 2 * k) 2) := by
  have hcoefs : readCoefs s.platform s.mem coefBase nCoefs 0 =
      .error (.contractViolation .access (coefBase + 2 * k) 2) :=
    checkedReads_first_failure (addr := fun j => coefBase + 2 * j) (fun _ _ => rfl) _ (Nat.zero_le k) (by omega)
      (fun j _ => hpass j) hfail
  rw [runKernel, hcoefs, error_bind, outcome_error]

/-! Single-byte accesses: the pixel loop can fail only in the access check of a byte of its ranges. -/

/-- A computation raises no fault but the failed access check of a single byte of `bytes`. -/
def FaultsIn {α : Type} (p : Platform) (bytes : Set Nat) (r : Except Fault α) : Prop :=
  ∀ f, r = .error f → ∃ a ∈ bytes, check p a 1 = false ∧ f = .contractViolation .access a 1

section
variable {p : Platform} {bytes : Set Nat}

theorem FaultsIn.ok {α : Type} (x : α) : FaultsIn p bytes (.ok x) := nofun

theorem FaultsIn.error {α : Type} {a : Nat} (ha : a ∈ bytes) (hfail : check p a 1 = false) :
    FaultsIn p bytes (.error (.contractViolation .access a 1) : Except Fault α) := by
  rintro _ ⟨⟩
  exact ⟨a, ha, hfail, rfl⟩

theorem FaultsIn.bind {α β : Type} {r : Except Fault α} {k : α → Except Fault β} (hr : FaultsIn p bytes r)
    (hk : ∀ x, FaultsIn p bytes (k x)) : FaultsIn p bytes (r >>= k) := by
  cases r with
  | error f =>
    rw [error_bind]
    rintro _ ⟨⟩
    exact hr f rfl
  | ok x => exact hk x

/-- Such a computation that does not complete stops with a byte of `bytes` that may not be accessed. -/
theorem FaultsIn.exists_failed_byte {α : Type} {r : Except Fault α} (h : FaultsIn p bytes r)
    (hr : ¬ ∃ x, r = .ok x) : ∃ a ∈ bytes, check p a 1 = false ∧ r = .error (.contractViolation .access a 1) := by
  cases r with
  | ok x => exact absurd ⟨x, rfl⟩ hr
  | error f =>
    obtain ⟨a, ha, hfail, rfl⟩ := h f rfl
    exact ⟨a, ha, hfail, rfl⟩

theorem memWrite_byte_faultsIn (m : Mem) {a : Nat} (x : Nat) (h : a ∈ bytes) :
    FaultsIn p bytes (memWrite p m a 1 x) := by
  cases hc : check p a 1 with
  | true => rw [memWrite_of_check _ _ _ _ _ hc]; exact .ok _
  | false => rw [memWrite_error _ _ _ _ _ hc]; exact .error h hc

theorem readChannel_faultsIn (m : Mem) {base i c : Nat} (h : base + 4 * i + c ∈ bytes) :
    FaultsIn p bytes (readChannel p m base i c) := by
  rw [readChannel]
  cases hc : check p (base + 4 * i + c) 1 with
  | true => rw [memRead_of_check _ _ _ _ hc]; exact .ok _
  | false => rw [memRead_error _ _ _ _ hc]; exact .error h hc

theorem readPixel_faultsIn (m : Mem) {base i : Nat} (h : Set.Ico (base + 4 * i) (base + 4 * (i + 1)) ⊆ bytes) :
    FaultsIn p bytes (readPixel p m base i) := by
  have hchannel : ∀ c < 4, FaultsIn p bytes (readChannel p m base i c) :=
    fun c hc => readChannel_faultsIn m (h ⟨by omega, by omega⟩)
  exact (hchannel 0 (by decide)).bind fun _ => (hchannel 1 (by decide)).bind fun _ =>
    (hchannel 2 (by decide)).bind fun _ => (hchannel 3 (by decide)).bind fun _ => .ok _

theorem writePixel_faultsIn (m : Mem) {base i : Nat} (x : Pixel)
    (h : Set.Ico (base + 4 * i) (base + 4 * (i + 1)) ⊆ bytes) : FaultsIn p bytes (writePixel p m base i x) := by
  have hbyte : ∀ c < 4, base + 4 * i + c ∈ bytes := fun c hc => h ⟨by omega, by omega⟩
  exact (memWrite_byte_faultsIn _ _ (hbyte 0 (by decide))).bind fun _ =>
    (memWrite_byte_faultsIn _ _ (hbyte 1 (by decide))).bind fun _ =>
    (memWrite_byte_faultsIn _ _ (hbyte 2 (by decide))).bind fun _ =>
    memWrite_byte_faultsIn _ _ (hbyte 3 (by decide))

/-- The pixel loop fails only in the computation of a pixel or in the check of a destination byte. -/
theorem pixelLoop_faultsIn {dst : Nat} {f : Mem → Nat → Except Fault Pixel} (n : Nat) : ∀ (i : Nat) (m : Mem),
    (∀ j, i ≤ j → j < i + n → ∀ mm, FaultsIn p bytes (f mm j)) →
      Set.Ico (dst + 4 * i) (dst + 4 * (i + n)) ⊆ bytes → FaultsIn p bytes (pixelLoop p dst f n i m) := by
  induction n with
  | zero => exact fun _ m _ _ => .ok m
  | succ n ih =>
    intro i m hf hdst
    refine (hf i le_rfl (by omega) m).bind fun x => (writePixel_faultsIn m x ?_).bind fun m' => ih (i + 1) m' ?_ ?_
    · exact (Set.Ico_subset_Ico (by omega) (by omega)).trans hdst
    · exact fun j _ _ => hf j (by omega) (by omega)
    · exact (Set.Ico_subset_Ico (by omega) (by omega)).trans hdst

theorem readRow_faultsIn (m : Mem) (row n : Nat) : ∀ i : Nat,
    Set.Ico (row + 4 * i) (row + 4 * (i + n)) ⊆ bytes → FaultsIn p bytes (readRow p m row n i) := by
  induction n with
  | zero => exact fun _ _ => .ok []
  | succ n ih =>
    intro i h
    refine (readPixel_faultsIn m ?_).bind fun x => (ih (i + 1) ?_).bind fun rest => .ok _
    · exact (Set.Ico_subset_Ico (by omega) (by omega)).trans h
    · exact (Set.Ico_subset_Ico (by omega) (by omega)).trans h

theorem readWindow_faultsIn (m : Mem) (k x : Nat) : ∀ rows : List Nat,
    (∀ row ∈ rows, Set.Ico (row + 4 * x) (row + 4 * (x + k)) ⊆ bytes) → FaultsIn p bytes (readWindow p m k x rows)
  | [], _ => .ok []
  | row :: rows, h => by
    obtain ⟨hrow, hrows⟩ := List.forall_mem_cons.mp h
    exact (readRow_faultsIn m row k x hrow).bind fun _ => (readWindow_faultsIn m k x rows hrows).bind fun _ => .ok _

end

/-- Once its coefficients are read and no overlap is found, a kernel command fails only where its pixel loop does. -/
theorem runKernel_faultsIn {s : State} {coefBase nCoefs dst count l : Nat} {bytes : Set Nat}
    {f : List Half → Mem → Nat → Except Fault Pixel} (hn : 0 < nCoefs)
    (hcoef : check s.platform coefBase (2 * nCoefs) = true)
    (hf : ∀ c, ∀ i < count, ∀ m, FaultsIn s.platform bytes (f c m i))
    (hdst : Set.Ico dst (dst + 4 * count) ⊆ bytes) :
    FaultsIn s.platform bytes (runKernel s coefBase nCoefs dst count l false f) := by
  have hcoefs := (readCoefs_array s.platform s.mem coefBase nCoefs _ hn).mpr ⟨hcoef, rfl⟩
  rw [runKernel, hcoefs, ok_bind, if_neg (by decide)]
  refine (pixelLoop_faultsIn count 0 s.mem (fun i _ hi => hf _ i (by omega)) ?_).bind fun _ => .ok _
  rwa [Nat.mul_zero, Nat.add_zero, Nat.zero_add]

/-- A range from an address word on passes the access check exactly when its bytes do, an empty one too. -/
theorem check_word_iff_bytesOk (p : Platform) (a : Word) (n : Nat) :
    check p a.toNat n = true ↔ bytesOk p a.toNat n := by
  obtain rfl | hn := Nat.eq_zero_or_pos n
  · exact (check_iff_bytes p a.toNat 0).trans (and_iff_right a.isLt.le)
  · exact check_iff_bytesOk p a.toNat n hn

/-! Colour matrix. -/

/-- Each colour-matrix command is the shared body with its own pixel function, whatever its outcome. -/
theorem matrixCommand_eq_outcome {command : Word → Word → Word → Word → Instr} (h : command ∈ matrixCommands) :
    ∃ f, ∀ dst src cb count s, exec (command dst src cb count) s = outcome (colourMatrix f dst src cb count s) := by
  simp only [matrixCommands, List.mem_cons, List.not_mem_nil, or_false] at h
  obtain rfl | rfl | rfl := h
  · exact ⟨f4x4, fun _ _ _ _ _ => rfl⟩
  · exact ⟨f3x3, fun _ _ _ _ _ => rfl⟩
  · exact ⟨fDot, fun _ _ _ _ _ => rfl⟩

/-- A colour-matrix command with readable coefficients and legal ranges, one of them not accessible, stops with a byte of
them that it may not access (R173). -/
theorem colourMatrix_access_fault {f : List Half → Pixel → Pixel} {dst src cb count : Word} {s : State}
    (hcoef : check s.platform cb.toNat 32 = true)
    (hover : matrixOverlap dst.toNat src.toNat count.toNat = false)
    (hfail : check s.platform src.toNat (4 * count.toNat) = false ∨
      check s.platform dst.toNat (4 * count.toNat) = false) :
    ∃ a ∈ Set.Ico src.toNat (src.toNat + 4 * count.toNat) ∪ Set.Ico dst.toNat (dst.toNat + 4 * count.toNat),
      check s.platform a 1 = false ∧
        colourMatrix f dst src cb count s = .error (.contractViolation .access a 1) := by
  apply FaultsIn.exists_failed_byte
  · rw [colourMatrix, hover]
    refine runKernel_faultsIn (by decide) hcoef (fun c i hi m => (readPixel_faultsIn m ?_).bind fun _ => .ok _)
      Set.subset_union_right
    exact (Set.Ico_subset_Ico (by omega) (by omega)).trans Set.subset_union_left
  · rw [colourMatrix_ok_iff, ← check_word_iff_bytesOk, ← check_word_iff_bytesOk]
    rintro ⟨-, -, hsrc, hdst⟩
    simp [hsrc, hdst] at hfail

/-- Settles O26: the coefficients are read first, in order; past them only the check of a pixel byte can fail. -/
theorem matrixAccessFaults : Obligations.MatrixAccessFaults := by
  intro s dst src cb count command hcommand
  obtain ⟨f, hexec⟩ := matrixCommand_eq_outcome hcommand
  simp only [hexec]
  constructor
  · exact fun k hk hpass hfail => runKernel_coefficient_fault s _ _ _ _ _ hk hpass hfail
  · intro hcoef hranges hfail
    have hover : matrixOverlap dst.toNat src.toNat count.toNat = false :=
      (matrixOverlap_false_iff _ _ _).mpr (hranges.imp (congrArg BitVec.toNat) (by omega))
    obtain ⟨a, ha, hbyte, herror⟩ := colourMatrix_access_fault (f := f) hcoef hover hfail
    exact ⟨a, hbyte, ha, by rw [herror, outcome_error]⟩

/-! Convolution. -/

/-- A convolution with readable coefficients and no overlap, its destination or a row window not accessible, stops with a
byte of them that it may not access (R203). -/
theorem convolution_access_fault {k l : Nat} {dst : Word} {rows : List Word} {cb count : Word} {s : State} (hk : 0 < k)
    (hcoef : check s.platform cb.toNat (2 * (k * k)) = true) (hcount : count ≠ 0#32)
    (hapart : ∀ row ∈ rows, apart dst.toNat (4 * count.toNat) row.toNat (4 * (count.toNat + (k - 1))))
    (hfail : check s.platform dst.toNat (4 * count.toNat) = false ∨
      ∃ row ∈ rows, check s.platform row.toNat (4 * (count.toNat + (k - 1))) = false) :
    ∃ a : Nat, check s.platform a 1 = false ∧
      (dst.toNat ≤ a ∧ a < dst.toNat + 4 * count.toNat ∨
        ∃ row ∈ rows, row.toNat ≤ a ∧ a < row.toNat + 4 * (count.toNat + (k - 1))) ∧
      outcome (convolution k l dst rows cb count s) = .fault (.contractViolation .access a 1) := by
  have hpos : count.toNat ≠ 0 := fun h => hcount (BitVec.eq_of_toNat_eq h)
  have hover : convolutionOverlap k dst.toNat count.toNat (rows.map (·.toNat)) = false := by
    rw [convolutionOverlap_false_iff _ _ _ _ hk, List.forall_mem_map]
    refine .inr fun row hrow => ?_
    have := hapart row hrow
    omega
  have hfaults : FaultsIn s.platform {a | dst.toNat ≤ a ∧ a < dst.toNat + 4 * count.toNat ∨
      ∃ row ∈ rows, row.toNat ≤ a ∧ a < row.toNat + 4 * (count.toNat + (k - 1))}
      (convolution k l dst rows cb count s) := by
    rw [convolution, hover]
    refine runKernel_faultsIn (Nat.mul_pos hk hk) hcoef
      (fun c x hx m =>
        (readWindow_faultsIn m k x _ (List.forall_mem_map.mpr fun row hrow a ha => ?_)).bind fun _ => .ok _)
      fun a ha => .inl ha
    obtain ⟨hle, hlt⟩ := ha
    exact .inr ⟨row, hrow, by omega, by omega⟩
  have hstops : ¬ ∃ t, convolution k l dst rows cb count s = .ok t := by
    simp only [convolution_ok_iff k l dst rows cb count s hk, rowBytes, if_neg hpos, ← check_word_iff_bytesOk]
    rintro ⟨-, -, hrows, hdst⟩
    obtain hfail | ⟨row, hrow, hfail⟩ := hfail
    · simp [hdst] at hfail
    · simp [hrows row hrow] at hfail
  obtain ⟨a, ha, hbyte, herror⟩ := hfaults.exists_failed_byte hstops
  exact ⟨a, hbyte, ha, by rw [herror, outcome_error]⟩

/-- Settles O34: the coefficients are read first, in order; past them only the check of a row or destination byte can
fail. -/
theorem convolutionAccessFaults : Obligations.ConvolutionAccessFaults := by
  intro s dst row0 row1 row2 cb count
  refine ⟨?_, ?_, ?_, ?_⟩
  · exact fun k hk hpass hfail => runKernel_coefficient_fault s _ _ _ _ _ hk hpass hfail
  · exact fun row3 row4 k hk hpass hfail => runKernel_coefficient_fault s _ _ _ _ _ hk hpass hfail
  · exact convolution_access_fault (k := 3) (by decide)
  · exact fun row3 row4 => convolution_access_fault (k := 5) (by decide)

end Sys2Proof.Machine

end

section
/-! PROOFS. The encoding (R93 to R99): the decoder and the encoder are inverse to each other, and the opcode map's rows
select exactly the legal first words. -/

namespace Sys2Proof.Machine

/-! Words as bytes (R63, R90). -/

theorem wordOfBytes_bytesOfWord (w : Word) : wordOfBytes (w.extractLsb' 0 8) (w.extractLsb' 8 8) (w.extractLsb' 16 8)
    (w.extractLsb' 24 8) = w := by
  rw [wordOfBytes, BitVec.extractLsb'_append_extractLsb'_eq_extractLsb' (by decide),
    BitVec.extractLsb'_append_extractLsb'_eq_extractLsb' (by decide),
    BitVec.extractLsb'_append_extractLsb'_eq_extractLsb' (by decide)]
  exact BitVec.extractLsb'_eq_self

/-- The bytes of words are read back as the words, whatever bytes follow them. -/
theorem takeWords_bytes (ws : List Word) (rest : List Byte) :
    takeWords ws.length (ws.flatMap bytesOfWord ++ rest) = some (ws, rest) := by
  induction ws with
  | nil => rfl
  | cons w ws ih =>
    simp only [List.length_cons, List.flatMap_cons, bytesOfWord, List.cons_append, List.nil_append, takeWords, ih,
      wordOfBytes_bytesOfWord]

/-- A command decodes exactly when its first word has a row, by whose operation its words are assembled (R94). -/
theorem decodeCommand_some_iff {c : Command} {i : Instr} : decodeCommand c = some i ↔
    ∃ row, rowOf c.first = some row ∧ assemble row.opcode c.first c.operands = some i := by
  unfold decodeCommand
  cases rowOf c.first with
  | none => exact ⟨nofun, nofun⟩
  | some row => simp

theorem length_of_rowOf {w : Word} {row : OpRow} {n : Nat} (hrow : rowOf w = some row) (hlength : lengthOf w = some n) :
    row.length = n :=
  Option.some_inj.mp ((lengthOf_of_rowOf w row hrow).symm.trans hlength)

/-- The bytes of a command decode as its words do, when its first word has the length of as many words (R95). -/
theorem decode_bytes {c : Command} {i : Instr} (hlength : lengthOf c.first = some (c.operands.length + 1))
    (hdecode : decodeCommand c = some i) (rest : List Byte) :
    decode (bytesOfWord c.first ++ c.operands.flatMap bytesOfWord ++ rest) = .ok (i, rest) := by
  obtain ⟨row, hrow, hasm⟩ := decodeCommand_some_iff.mp hdecode
  have hfirst : takeWords 1 (bytesOfWord c.first ++ c.operands.flatMap bytesOfWord ++ rest) =
      some ([c.first], c.operands.flatMap bytesOfWord ++ rest) := by
    rw [List.append_assoc]
    exact takeWords_bytes [c.first] _
  simp only [decode, hfirst, hrow, length_of_rowOf hrow hlength, Nat.add_sub_cancel, takeWords_bytes, hasm]

/-- Settles O2: the words decode by their row, and the bytes are read back as the words. -/
theorem decodeOfEncodeIsIdentity : Obligations.DecodeOfEncodeIsIdentity :=
  fun i rest => ⟨decodeCommand_encode i, decode_bytes (encode_first i).2 (decodeCommand_encode i) rest⟩

/-! A first word that a row selects is the encoder's (R97, R98). -/

/-- Words with the same fields are the same (R91). -/
theorem word_ext_fields {w w' : Word} (hreserved : w.extractLsb' 17 15 = w'.extractLsb' 17 15)
    (hvs2 : fieldVs2 w = fieldVs2 w') (hvs1 : fieldVs1 w = fieldVs1 w') (hvd : fieldVd w = fieldVd w')
    (hop : w.extractLsb' 0 8 = w'.extractLsb' 0 8) : w = w' := by
  rw [word_eq_fields w, word_eq_fields w', hreserved, BitVec.toFin_inj.mp hvs2, BitVec.toFin_inj.mp hvs1,
    BitVec.toFin_inj.mp hvd, hop]

theorem extract_reserved_firstWord {op : Nat} (hop : op < 2 ^ 8) (vd vs1 vs2 : VReg) :
    (firstWord op vd vs1 vs2).extractLsb' 17 15 = 0#15 := by
  apply BitVec.eq_of_getLsbD_eq
  intro b hb
  rw [BitVec.getLsbD_extractLsb', getLsbD_firstWord _ _ _ _ (by omega), testBit_opcode hop (by omega),
    testBit_register vd (by omega), testBit_register vs1 (by omega), testBit_register vs2 (by omega)]
  simp

/-- A row's match has an opcode only, and its mask covers the reserved bits (R94). -/
theorem opTable_pattern_mask : ∀ row ∈ opTable, row.pattern.toNat < 2 ^ 8 ∧
    row.mask.extractLsb' 17 15 = 32767#15 ∧ row.pattern.extractLsb' 17 15 = 0#15 ∧
    row.pattern.extractLsb' 14 3 = 0#3 ∧ row.pattern.extractLsb' 11 3 = 0#3 ∧ row.pattern.extractLsb' 8 3 = 0#3 ∧
    row.pattern.extractLsb' 0 8 = BitVec.ofNat 8 row.pattern.toNat := by decide

/-- The register number in a field of a first word as the row's commands use it: 0 for a field under the row's mask,
which is an unused one (R94). -/
def usedField (row : OpRow) (w : Word) (lo : Nat) : VReg :=
  if row.mask.extractLsb' lo 3 = 7#3 then 0 else regField w lo

theorem regField_eq_usedField {row : OpRow} {w : Word} {lo : Nat}
    (h : w.extractLsb' lo 3 &&& row.mask.extractLsb' lo 3 = 0#3) : regField w lo = usedField row w lo := by
  unfold usedField
  split
  · next hmask =>
    rw [hmask, and_all3] at h
    rw [regField, h]
    rfl
  · rfl

/-- The first word of a row's commands that use these fields of `w` (R97). -/
def rowWord (row : OpRow) (w : Word) : Word :=
  firstWord row.pattern.toNat (usedField row w 8) (usedField row w 11) (usedField row w 14)

/-- A selected word has no bit set besides the row's opcode and the fields its commands use (R97, R98). -/
theorem eq_rowWord_of_selects {row : OpRow} (hrow : row ∈ opTable) {w : Word} (hsel : row.selects w = true) :
    w = rowWord row w := by
  obtain ⟨hlt, hmask, hp17, hp14, hp11, hp8, hp0⟩ := opTable_pattern_mask row hrow
  have hop := ((selects_iff_legal w row hrow).mp hsel).2
  obtain ⟨h17, h14, h11, h8, -⟩ := (selects_iff row w).mp hsel
  rw [hmask, and_all15, hp17] at h17
  apply word_ext_fields
  · rw [h17, rowWord, extract_reserved_firstWord hlt]
  · rw [rowWord, fieldVs2_firstWord hlt]
    exact regField_eq_usedField (h14.trans hp14)
  · rw [rowWord, fieldVs1_firstWord hlt]
    exact regField_eq_usedField (h11.trans hp11)
  · rw [rowWord, fieldVd_firstWord hlt]
    exact regField_eq_usedField (h8.trans hp8)
  · rw [hop, hp0, rowWord, extract_opcode_firstWord]

/-! Operations and operand words (R92, R96). -/

/-- The row of the opcode map for an operation. -/
def rowFor (op : Opcode) : OpRow := (opTable.find? (·.opcode = op)).getD ⟨op, 0, 0#32, 0#32⟩

theorem rowFor_opcode : ∀ row ∈ opTable, rowFor row.opcode = row := by decide

/-- As many operand words as the operation's row gives are assembled to an instruction. -/
theorem assemble_isSome (w : Word) : ∀ (op : Opcode) (ops : List Word),
    (rowFor op).length = ops.length + 1 → (assemble op w ops).isSome = true
  | .endStream, [], _ | .nop, [], _ => rfl
  | .vwiden, [], _ | .vnarrow16, [], _ | .vpack8, [], _ | .vmullo, [], _ => rfl
  | .vld, [_], _ | .vst, [_], _ => rfl
  | .cm4x4, [_, _, _, _], _ | .cm3x3, [_, _, _, _], _ | .cmdot, [_, _, _, _], _ => rfl
  | .conv3x3, [_, _, _, _, _, _], _ => rfl
  | .conv5x5, [_, _, _, _, _, _, _, _], _ => rfl

/-- An assembled instruction is encoded with the fields its row uses and the same operand words. -/
theorem encode_of_assemble {w : Word} {i : Instr} : ∀ {op : Opcode} {ops : List Word},
    assemble op w ops = some i → encode i = ⟨rowWord (rowFor op) w, ops⟩
  | .endStream, [], rfl | .nop, [], rfl => rfl
  | .vwiden, [], rfl | .vnarrow16, [], rfl | .vpack8, [], rfl | .vmullo, [], rfl => rfl
  | .vld, [_], rfl | .vst, [_], rfl => rfl
  | .cm4x4, [_, _, _, _], rfl | .cm3x3, [_, _, _, _], rfl | .cmdot, [_, _, _, _], rfl => rfl
  | .conv3x3, [_, _, _, _, _, _], rfl => rfl
  | .conv5x5, [_, _, _, _, _, _, _, _], rfl => rfl

/-- Settles O3: the encoder's first word is the decoded one, which its row selects. -/
theorem encodeOfDecodeIsIdentity : Obligations.EncodeOfDecodeIsIdentity := by
  intro c i hdecode
  obtain ⟨row, hrow, hasm⟩ := decodeCommand_some_iff.mp hdecode
  obtain ⟨hmem, hsel⟩ := (rowOf_some_iff _ _).mp hrow
  rw [encode_of_assemble hasm, rowFor_opcode row hmem, ← eq_rowWord_of_selects hmem hsel]

/-- Settles O4: a row selects the legal words with its opcode, and the rows' opcodes differ. -/
theorem firstWordIllegalOrOneRow : Obligations.FirstWordIllegalOrOneRow := by
  intro w
  cases hlegal : legalFirst w with
  | false =>
    refine .inl ⟨rfl, fun r hr => Bool.eq_false_iff.mpr fun hsel => ?_⟩
    exact Bool.eq_false_iff.mp hlegal ((selects_iff_legal w r hr).mp hsel).1
  | true =>
    obtain ⟨r, hr, hop, -⟩ := legal_row w hlegal
    refine .inr ⟨rfl, r, hr, (selects_iff_legal w r hr).mpr ⟨hlegal, hop.symm⟩, fun r' hr' hsel => ?_⟩
    exact opTable_inj r' hr' r hr (((selects_iff_legal w r' hr').mp hsel).2.symm.trans hop.symm)

/-- Settles O5: a decoded command is the encoder's, which is well formed; a well-formed one has a row and the operand
words of its length. -/
theorem decoderAcceptsExactlyWellFormed : Obligations.DecoderAcceptsExactlyWellFormed := by
  intro c
  rw [Bool.eq_iff_iff, Option.isSome_iff_exists]
  constructor
  · rintro ⟨i, hdecode⟩
    rw [← encodeOfDecodeIsIdentity c i hdecode]
    exact (Laws.EncodeLegal.all i).1
  · intro hwf
    rw [Command.wellFormed, Bool.and_eq_true, beq_iff_eq] at hwf
    obtain ⟨hlegal, hlength⟩ := hwf
    obtain ⟨row, hrow⟩ := Option.isSome_iff_exists.mp ((rowOf_isSome _).trans hlegal)
    have hrowLength : (rowFor row.opcode).length = c.operands.length + 1 := by
      rw [rowFor_opcode row ((rowOf_some_iff _ _).mp hrow).1, length_of_rowOf hrow hlength]
    obtain ⟨i, hasm⟩ := Option.isSome_iff_exists.mp (assemble_isSome c.first _ _ hrowLength)
    exact ⟨i, decodeCommand_some_iff.mpr ⟨row, hrow, hasm⟩⟩

/-- Settles O1: the legal words are the encoder's for these instructions; the last two first words are illegal. -/
theorem specWordsDecode : Obligations.SpecWordsDecode :=
  ⟨decodeCommand_encode .endStream, decodeCommand_encode .nop,
    decodeCommand_encode (.vld 5 0x2000#32), decodeCommand_encode (.vst 5 0x3000#32),
    decodeCommand_encode (.vwiden 1 0), decodeCommand_encode (.vnarrow16 4 3 1),
    decodeCommand_encode (.vpack8 5 4 4), decodeCommand_encode (.vmullo 3 1 2),
    decodeCommand_encode (.cm3x3 0x3000#32 0x2000#32 0x2100#32 2#32),
    decodeCommand_encode (.conv3x3 0x3000#32 0x2000#32 0x2010#32 0x2020#32 0x2100#32 2#32), by decide, by decide⟩

end Sys2Proof.Machine

end

section
/-! PROOFS. Sequencing: whose turn a step takes and what the engine does on it (R120, R236), END and NOP (R125, R126), and how
a run ends (R127). -/

namespace Sys2Proof.Machine

open Sys2Proof.Claims

/-! How a run ends. -/

/-- No write of a register of the window ends a run: BUSY is not writable (R38), and START can only set it (R42). -/
theorem writeReg_keeps_running {s : State} (hbusy : s.busy = true) (r : WindowReg) (x : Word) :
    (writeReg s r x).busy = true := by
  cases r with
  | ctrl =>
    rw [writeReg, writeCtrl]
    split
    · rfl
    · exact hbusy
  | status => exact hbusy
  | cmdptr => rwa [writeReg, writeCmdptr_busy]
  | reserved => exact hbusy

/-- A host access to data memory that completes leaves BUSY to its effect. -/
theorem hostMemory_busy {s s' t : State} {acc : Access} (h : hostMemory s acc s' = .next t) : t.busy = s'.busy := by
  obtain ⟨-, rfl⟩ := (hostMemory_next_iff s s' t acc).mp h
  split <;> rfl

/-- No host action ends a run: a reset would, and completes only on an idle core (R261). -/
theorem hostTurn_keeps_running {op : HostOp} {s t : State} (h : hostTurn op s = .next t) (hbusy : s.busy = true) :
    t.busy = true := by
  obtain ⟨-, hidle, -⟩ | ⟨addr, w, r, -, -, rfl⟩ | ⟨addr, w, x, r, -, -, rfl⟩ | ⟨addr, w, r, -, -, rfl⟩ |
    ⟨addr, w, x, r, -, -, rfl⟩ | ⟨addr, w, -, -, hm⟩ | ⟨addr, w, x, -, -, hm⟩ := hostTurn_next_cases op s t h
  · exact absurd hbusy (by simp [hidle])
  · rwa [hostRegRead_busy]
  · exact writeReg_keeps_running hbusy r x
  · exact hbusy
  · exact hbusy
  · exact (hostMemory_busy hm).trans hbusy
  · exact (hostMemory_busy hm).trans hbusy

/-- Of the commands only END ends a run (R126), and it leaves ERR as it was. -/
theorem exec_ends_run {i : Instr} {s t : State} (h : exec i s = .next t) (hbusy : s.busy = true) (hend : t.busy = false) :
    i = .endStream ∧ t.done = true ∧ t.err = s.err := by
  obtain ⟨rfl, rfl⟩ | ⟨-, vd, x, -, rfl⟩ | ⟨-, -, c, m, -, rfl⟩ := exec_next_cases i s t h
  · exact ⟨rfl, rfl, rfl⟩
  · exact absurd hend (by simp [hbusy])
  · exact absurd hend (by simp [hbusy])

/-- Settles O59: of the steps only an engine step can clear BUSY, by an illegal first word or by END; while the engine runs
the invariant keeps DONE and ERR at 0, and each of the two ends sets its own. -/
theorem runEndsOnlyByEndOrIllegalWord : Obligations.RunEndsOnlyByEndOrIllegalWord := by
  rintro s t ⟨-, ⟨hrunning, -, -⟩, -⟩ hbusy h hend
  obtain ⟨hdone, herr⟩ := hrunning hbusy
  obtain ⟨-, hidle, -⟩ | ⟨hturn, -, hengine⟩ | ⟨op, ts, -, hhost⟩ := step_next_cases s t h
  · exact absurd hbusy (by simp [hidle])
  · refine ⟨hturn, ?_⟩
    obtain ⟨w, hfetch, -, rfl⟩ | ⟨i, hfetch, -, hexec⟩ := (engineStep_next_iff _ _).mp hengine
    · exact .inr ⟨w, hfetch, rfl, rfl, hdone⟩
    · obtain ⟨rfl, htdone, hterr⟩ := exec_ends_run hexec hbusy hend
      exact .inl ⟨hfetch, htdone, hterr.trans herr⟩
  · exact absurd hend (by simp [hostTurn_keeps_running hhost hbusy])

/-! The turns. -/

/-- An engine step none of whose accesses conflicts with the host's goes on, its accesses recorded. -/
theorem withAccesses_of_no_conflict {s : State} {accs : List Access} (k : State → Host.Outcome State Fault Refusal)
    (h : ∀ x ∈ s.touched, ∀ y ∈ accs, conflicts x y = false) :
    withAccesses s accs k = k (State.note s accs) := by
  have hclash : clash s accs = none :=
    List.find?_eq_none.mpr fun y hy hany => by
      obtain ⟨x, hx, hxy⟩ := List.any_eq_true.mp hany
      exact absurd hxy (by simp [h x hx y hy])
  rw [withAccesses, hclash]

/-- On the engine's turn an idle engine takes no step. -/
theorem step_of_engineTurn_idle {s : State} {ts : List Turn} (hturn : engineTurnOf s ts) (hidle : s.busy = false) :
    step s = .next { s with turns := ts } := by
  obtain ⟨hs, rfl⟩ | hs := hturn
  · have hself : s = { s with turns := [] } := by rw [← hs]
    rw [step, hs, ← hself]
    exact if_neg (by simp [hidle])
  · rw [step, hs]
    exact if_neg (by simp [hidle])

/-- Settles O7: the step is the engine's, the fetch gives the command, and no access of it conflicts with the host's. -/
theorem stepRunsDecodedCommand : Obligations.StepRunsDecodedCommand := by
  intro s ts i hturn hbusy hfetch hconflict
  rw [step_of_engineTurn hturn hbusy, engineStep, hfetch]
  exact withAccesses_of_no_conflict (s := { s with turns := ts }) (exec i) hconflict

/-- Settles O10: the idle engine's turn, and the branch of `step` for a host turn. -/
theorem idleEngineAndHostTurns : Obligations.IdleEngineAndHostTurns :=
  ⟨fun _ _ => step_of_engineTurn_idle, fun s op ts hturns => by rw [step, hturns]⟩

/-! END and NOP. -/

/-- Settles O11: END's next state is the advanced state with its run ended; as DONE is then 1, the interrupt line is IE. -/
theorem endCompletes : Obligations.EndCompletes :=
  ⟨by decide, fun s => ⟨State.endRun (State.advance s 1), rfl, rfl, by simp [State.irq]⟩⟩

/-- Settles O12: NOP's next state is the advanced state. -/
theorem nopCompletes : Obligations.NopCompletes := ⟨by decide, fun _ => rfl⟩

end Sys2Proof.Machine

end

section
/-! PROOFS. The lane primitives (R141 to R150): the first word each is encoded to, the outcomes a register command can have,
and each lane of its result as the number the spec gives. -/

namespace Sys2Proof.Machine

open Sys2Proof.Claims

/-! First words. -/

/-- A field placed above all bits of a number adds its value at the weight of the field's lowest bit. -/
theorem ofNat_or_field {a i : Nat} (ha : a < 2 ^ i) (field w : Nat) :
    BitVec.ofNat w a ||| BitVec.ofNat w field <<< i = BitVec.ofNat w (a + 2 ^ i * field) := by
  have hshift : BitVec.ofNat w field <<< i = BitVec.ofNat w (field <<< i) := by
    apply BitVec.eq_of_toNat_eq
    rw [BitVec.toNat_shiftLeft, BitVec.toNat_ofNat, BitVec.toNat_ofNat, Nat.shiftLeft_eq, Nat.shiftLeft_eq,
      Nat.mod_mul_mod]
  rw [hshift, ← BitVec.ofNat_or, Nat.or_comm, ← Nat.shiftLeft_add_eq_or_of_lt ha, Nat.shiftLeft_eq, Nat.add_comm,
    Nat.mul_comm]

/-- An encoded first word is the sum of its fields, each at its lowest bit's weight (R91, R97). -/
theorem firstWord_eq_ofNat {op : Nat} (hop : op < 2 ^ 8) (vd vs1 vs2 : VReg) :
    firstWord op vd vs1 vs2 = BitVec.ofNat 32 (op + 256 * vd.val + 2048 * vs1.val + 16384 * vs2.val) := by
  rw [firstWord, ofNat_or_field hop, ofNat_or_field (by omega), ofNat_or_field (by omega)]
  rfl

/-! Outcomes. -/

/-- A one-source register command writes and marks its destination and moves CMDPTR past its one word, or raises the
unwritten-register fault (R128, R144). -/
theorem unaryV_outcomes (f : V128 → V128) (vd vs1 : VReg) (s : State) :
    (s.written[vs1] = true → outcome (unaryV f vd vs1 s) = .next { s with
      v := s.v.set vd (f s.v[vs1]), written := s.written.set vd true, cmdptr := s.cmdptr + 4#32 }) ∧
    (s.written[vs1] = false → outcome (unaryV f vd vs1 s) = .fault (.unwrittenRegister vs1)) := by
  refine ⟨fun h => ?_, fun h => ?_⟩
  · exact (outcome_next_iff _ _).mpr ((unaryV_ok_iff ..).mpr ⟨h, rfl⟩)
  · rw [unaryV, readV_unwritten s vs1 h, error_bind, outcome_error]

/-- A two-source register command writes and marks its destination and moves CMDPTR past its one word, or raises the
unwritten-register fault of VS1 first, then that of VS2 (R122, R128, R145 to R147). -/
theorem binaryV_outcomes (f : V128 → V128 → V128) (vd vs1 vs2 : VReg) (s : State) :
    (s.written[vs1] = true → s.written[vs2] = true → outcome (binaryV f vd vs1 vs2 s) = .next { s with
      v := s.v.set vd (f s.v[vs1] s.v[vs2]), written := s.written.set vd true, cmdptr := s.cmdptr + 4#32 }) ∧
    (s.written[vs1] = false → outcome (binaryV f vd vs1 vs2 s) = .fault (.unwrittenRegister vs1)) ∧
    (s.written[vs1] = true → s.written[vs2] = false →
      outcome (binaryV f vd vs1 vs2 s) = .fault (.unwrittenRegister vs2)) := by
  refine ⟨fun h1 h2 => ?_, fun h1 => ?_, fun h1 h2 => ?_⟩
  · exact (outcome_next_iff _ _).mpr ((binaryV_ok_iff ..).mpr ⟨h1, h2, rfl⟩)
  · rw [binaryV, readV_unwritten s vs1 h1, error_bind, outcome_error]
  · rw [binaryV, readV_of_written s vs1 h1, ok_bind, readV_unwritten s vs2 h2, error_bind, outcome_error]

theorem execVld_fault {vd : VReg} {addr : Word} {s : State} (h : check s.platform addr.toNat 16 = false) :
    execVld vd addr s = .fault (.contractViolation .access addr.toNat 16) := by
  rw [execVld, memRead_error _ _ _ _ h, error_bind, outcome_error]

theorem execVst_unwritten_fault {vs1 : VReg} {addr : Word} {s : State} (h : s.written[vs1] = false) :
    execVst vs1 addr s = .fault (.unwrittenRegister vs1) := by
  rw [execVst, readV_unwritten s vs1 h, error_bind, outcome_error]

theorem execVst_access_fault {vs1 : VReg} {addr : Word} {s : State} (hwritten : s.written[vs1] = true)
    (h : check s.platform addr.toNat 16 = false) :
    execVst vs1 addr s = .fault (.contractViolation .access addr.toNat 16) := by
  rw [execVst, readV_of_written s vs1 hwritten, ok_bind, memWrite_error _ _ _ _ _ h, error_bind, outcome_error]

/-! Lanes as numbers. -/

/-- Byte lane j of a register is byte j of its value, least significant first (R17, R64). -/
theorem lane_eq_ofNat_div (x : V128) {j : Nat} (hj : j < 16) : lane 8 x j = BitVec.ofNat 8 (x.toNat / 256 ^ j) := by
  rw [← lane_ofNat x.toNat j hj, BitVec.ofNat_toNat, BitVec.setWidth_eq]

theorem satU16_toNat_eq_max_min (x : Int) : ((satU16 x).toNat : Int) = max 0 (min 65535 x) := by
  rw [satU16_toNat]
  omega

theorem clampU8_toNat_eq_clamp (x : Int) : ((clampU8 x).toNat : Int) = clamp x := by
  rw [clampU8_toNat, clamp]
  omega

/-- An unsigned lane has no negative value to clamp (R146). -/
theorem clampU8_natCast_toNat (n : Nat) : (clampU8 (n : Int)).toNat = min 255 n := by
  have h := clampU8_toNat_eq_clamp n
  rw [clamp] at h
  omega

/-- The clamp to 0..255 is unchanged by a clamp to 0..65535 before it (R148). -/
theorem clamp_max_min (x : Int) : clamp (max 0 (min 65535 x)) = clamp x := by
  rw [clamp, clamp]
  omega

/-- The saturating narrow followed by the saturating pack is the clamp to 0..255 (R148). -/
theorem clampU8_satU16_toNat (x : Int) : ((clampU8 ((satU16 x).toNat : Int)).toNat : Int) = clamp x := by
  rw [clampU8_toNat_eq_clamp, satU16_toNat_eq_max_min, clamp_max_min]

/-- Saturating the signed value of a half to 0..65535 keeps it where its sign bit is clear and gives 0 elsewhere
(R150). -/
theorem satU16_toInt (h : Half) : satU16 h.toInt = if h.toNat < 0x8000 then h else 0#16 := by
  apply BitVec.eq_of_toNat_eq
  have hsat := satU16_toNat_eq_max_min h.toInt
  split
  · next hlow =>
    have hvalue : h.toInt = h.toNat := BitVec.toInt_eq_toNat_of_lt (by omega)
    omega
  · next hhigh =>
    have hneg : h.toInt < 0 := BitVec.toInt_neg_iff.mpr (by omega)
    rw [BitVec.toNat_ofNat]
    omega

theorem toNat_lane_narrow16 (lo hi : V128) (j : Nat) (hj : j < 4) :
    ((lane 16 (narrow16 lo hi) j).toNat : Int) = max 0 (min 65535 (lane 32 lo j).toInt) ∧
    ((lane 16 (narrow16 lo hi) (4 + j)).toNat : Int) = max 0 (min 65535 (lane 32 hi j).toInt) := by
  rw [lane_narrow16_lo _ _ _ hj, lane_narrow16_hi _ _ _ hj]
  exact ⟨satU16_toNat_eq_max_min _, satU16_toNat_eq_max_min _⟩

theorem toNat_lane_narrow8 (lo hi : V128) (j : Nat) (hj : j < 8) :
    (lane 8 (narrow8 lo hi) j).toNat = min 255 (lane 16 lo j).toNat ∧
    (lane 8 (narrow8 lo hi) (8 + j)).toNat = min 255 (lane 16 hi j).toNat := by
  rw [lane_narrow8_lo _ _ _ hj, lane_narrow8_hi _ _ _ hj]
  exact ⟨clampU8_natCast_toNat _, clampU8_natCast_toNat _⟩

/-- The low half of the exact signed product is that of the unsigned product too (R147, R149). -/
theorem toNat_lane_mulLow (a b : V128) (j : Nat) (hj : j < 4) :
    ((lane 32 (mulLow a b) j).toNat : Int) = (lane 32 a j).toInt * (lane 32 b j).toInt % 2 ^ 32 ∧
    (lane 32 (mulLow a b) j).toNat = (lane 32 a j).toNat * (lane 32 b j).toNat % 2 ^ 32 := by
  rw [lane_mulLow _ _ _ hj]
  constructor
  · rw [BitVec.toNat_ofInt]
    exact Int.toNat_of_nonneg (Int.emod_nonneg _ (by decide))
  · rw [BitVec.ofInt_mul, BitVec.ofInt_toInt, BitVec.ofInt_toInt, BitVec.toNat_mul]

/-- The lanes of A, B, C and D come out of two narrows and a pack as their clamps, in this order (R148). -/
theorem toNat_lane_narrow8_narrow16 (a b c d : V128) (j : Nat) (hj : j < 4) :
    let r := narrow8 (narrow16 a b) (narrow16 c d)
    ((lane 8 r j).toNat : Int) = clamp (lane 32 a j).toInt ∧
    ((lane 8 r (4 + j)).toNat : Int) = clamp (lane 32 b j).toInt ∧
    ((lane 8 r (8 + j)).toNat : Int) = clamp (lane 32 c j).toInt ∧
    ((lane 8 r (12 + j)).toNat : Int) = clamp (lane 32 d j).toInt := by
  refine ⟨?_, ?_, ?_, ?_⟩
  · rw [lane_narrow8_lo _ _ _ (by omega), lane_narrow16_lo _ _ _ hj, clampU8_satU16_toNat]
  · rw [lane_narrow8_lo _ _ _ (by omega), lane_narrow16_hi _ _ _ hj, clampU8_satU16_toNat]
  · rw [lane_narrow8_hi _ _ _ (by omega), lane_narrow16_lo _ _ _ hj, clampU8_satU16_toNat]
  · rw [show 12 + j = 8 + (4 + j) by omega, lane_narrow8_hi _ _ _ (by omega), lane_narrow16_hi _ _ _ hj,
      clampU8_satU16_toNat]

/-- Narrowing what was widened keeps a half whose sign bit is clear and gives 0 for any other (R150). -/
theorem lane_narrow16_widen (x y : V128) (j : Nat) (hj : j < 4) :
    lane 16 (narrow16 (widen x) y) j = if (lane 16 x j).toNat < 0x8000 then lane 16 x j else 0#16 := by
  rw [lane_narrow16_lo _ _ _ hj, lane_widen _ _ hj, BitVec.toInt_signExtend_of_le (by decide), satU16_toInt]

/-! The commands. -/

/-- Settles O13: lane j of the little-endian value of the sixteen bytes is the byte at offset j. -/
theorem vldLoadsSixteenBytes : Obligations.VldLoadsSixteenBytes := by
  intro s vd addr
  refine ⟨congrArg (Command.mk · [addr]) (firstWord_eq_ofNat (op := 0x10) (by decide) vd 0 0), fun hcheck => ?_,
    execVld_fault⟩
  refine ⟨_, (execVld_next_iff ..).mpr ⟨hcheck, rfl⟩, fun j hj => ?_⟩
  exact (lane_ofNat _ j hj).trans (Mem.readLE_byte s.mem 16 addr.toNat j hj)

/-- Settles O14: byte j of a little-endian store is byte j of the register's value, which is its byte lane j. -/
theorem vstStoresSixteenBytes : Obligations.VstStoresSixteenBytes := by
  intro s vs1 addr
  refine ⟨congrArg (Command.mk · [addr]) (firstWord_eq_ofNat (op := 0x11) (by decide) 0 vs1 0),
    fun hwritten hcheck => ?_, execVst_unwritten_fault, execVst_access_fault⟩
  refine ⟨_, (execVst_next_iff ..).mpr ⟨hwritten, hcheck, rfl⟩, fun j hj => ?_, fun q hq => ?_⟩
  · exact (Mem.read_writeLE_inside 16 s.mem addr.toNat _ j hj).trans (lane_eq_ofNat_div _ hj).symm
  · exact Mem.read_writeLE_outside 16 s.mem addr.toNat _ q hq

/-- Settles O15: the outcomes of a one-source command, with the lanes of `widen`. -/
theorem vwidenSignExtends : Obligations.VwidenSignExtends := by
  intro s vd vs1
  obtain ⟨hnext, hfault⟩ := unaryV_outcomes widen vd vs1 s
  exact ⟨congrArg (Command.mk · []) (firstWord_eq_ofNat (op := 0x20) (by decide) vd vs1 0),
    fun h => ⟨_, hnext h, lane_widen _⟩, hfault⟩

/-- Settles O16: the outcomes of a two-source command, with the lanes of `narrow16` as numbers. -/
theorem vnarrow16Saturates : Obligations.Vnarrow16Saturates := by
  intro s vd vs1 vs2
  obtain ⟨hnext, hfaults⟩ := binaryV_outcomes narrow16 vd vs1 vs2 s
  exact ⟨congrArg (Command.mk · []) (firstWord_eq_ofNat (op := 0x21) (by decide) vd vs1 vs2),
    fun h1 h2 => ⟨_, hnext h1 h2, toNat_lane_narrow16 _ _⟩, hfaults⟩

/-- Settles O17: the outcomes of a two-source command, with the lanes of `narrow8` as numbers. -/
theorem vpack8SaturatesUnsigned : Obligations.Vpack8SaturatesUnsigned := by
  intro s vd vs1 vs2
  obtain ⟨hnext, hfaults⟩ := binaryV_outcomes narrow8 vd vs1 vs2 s
  exact ⟨congrArg (Command.mk · []) (firstWord_eq_ofNat (op := 0x22) (by decide) vd vs1 vs2),
    fun h1 h2 => ⟨_, hnext h1 h2, toNat_lane_narrow8 _ _⟩, hfaults⟩

/-- Settles O18: the outcomes of a two-source command, with the lanes of `mulLow`, each product read in both ways. -/
theorem vmulloKeepsLowHalf : Obligations.VmulloKeepsLowHalf := by
  intro s vd vs1 vs2
  obtain ⟨hnext, hfaults⟩ := binaryV_outcomes mulLow vd vs1 vs2 s
  exact ⟨congrArg (Command.mk · []) (firstWord_eq_ofNat (op := 0x23) (by decide) vd vs1 vs2),
    fun h1 h2 => ⟨_, hnext h1 h2, toNat_lane_mulLow _ _⟩, hfaults⟩

/-! Commands in a row. -/

/-- Settles O19: the first narrow leaves C and D and the second leaves the first's result, so the pack reads both narrows. -/
theorem narrowInTwoStagesIsClamp : Obligations.NarrowInTwoStagesIsClamp := by
  refine ⟨clamp_max_min, fun s a b c d p q r ha hb hc hd hcp hdp hpq => ?_⟩
  have hfirst := (execVnarrow16_next_iff p a b s _).mpr ⟨ha, hb, rfl⟩
  have hsecond := (execVnarrow16_next_iff q c d _ _).mpr
    ⟨exec_keeps_marks hfirst hc, exec_keeps_marks hfirst hd, rfl⟩
  have hpack := (execVpack8_next_iff r p q _ _).mpr
    ⟨exec_keeps_marks hsecond ((exec_vector_frame hfirst p).1 rfl), (exec_vector_frame hsecond q).1 rfl, rfl⟩
  refine ⟨_, _, _, hfirst, hsecond, hpack, ?_⟩
  rw [State.advance_v, State.setV_v_self, State.advance_v, State.setV_v_self, State.setV_v_other _ _ _ _ hpq,
    State.advance_v, State.setV_v_self, State.setV_v_other _ _ _ _ hcp, State.setV_v_other _ _ _ _ hdp]
  exact toNat_lane_narrow8_narrow16 s.v[a] s.v[b] s.v[c] s.v[d]

/-- Settles O20: a widened lane has the signed value of the half, and saturating that keeps it or gives 0. -/
theorem widenThenNarrowKeepsNonNegative : Obligations.WidenThenNarrowKeepsNonNegative := by
  intro s vp vq vs1 hwritten
  have hmark := State.setV_written_self s vp (widen s.v[vs1])
  refine ⟨_, _, (execVwiden_next_iff vp vs1 s _).mpr ⟨hwritten, rfl⟩,
    (execVnarrow16_next_iff vq vp vp _ _).mpr ⟨hmark, hmark, rfl⟩, ?_⟩
  rw [State.advance_v, State.setV_v_self, State.advance_v, State.setV_v_self]
  exact lane_narrow16_widen s.v[vs1] _

end Sys2Proof.Machine

end

section
/-! PROOFS. The colour-matrix commands (R170 to R181): the output value of a sum, the bounds of the sums, completion with
the pixels it leaves, and the forbidden overlap. -/

namespace Sys2Proof.Machine

open Sys2Proof.Claims

/-! The output value of a sum. -/

/-- An output channel is the floor of its sum by 256, clamped (R174, R203). -/
theorem descale_toNat (x : Int) : ((descale x).toNat : Int) = scaled x := by
  rw [descale, clampU8_toNat_eq_clamp, asr8_eq, scaled]

/-- The two divisions differ on negative sums only, where both quotients are clamped to 0 (R181). -/
theorem clamp_tdiv_eq_scaled (x : Int) : clamp (x.tdiv 256) = scaled x := by
  rw [scaled]
  obtain hx | hx := le_or_gt 0 x
  · rw [Int.tdiv_eq_ediv_of_nonneg hx]
  · have hquotient : 0 ≤ -x.tdiv 256 := Int.neg_tdiv x 256 ▸ Int.tdiv_nonneg (by omega) (by decide)
    rw [clamp, clamp]
    omega

/-- Settles O30: the output value is the clamped floor, and the clamp hides how a negative sum is rounded. -/
theorem roundingIsNotObservable : Obligations.RoundingIsNotObservable := by
  intro x
  rw [clamp_tdiv_eq_scaled, descale_toNat, scaled, clamp]
  omega

/-! Bounds of the sums. -/

/-- One term of a sum: a signed 16-bit coefficient times an unsigned byte. -/
theorem coef_mul_byte_bounds (latch : List Half) (k : Nat) (b : Byte) :
    -8355840 ≤ coef latch k * b.toNat ∧ coef latch k * b.toNat ≤ 8355585 := by
  have hlow : -32768 * (b.toNat : Int) ≤ coef latch k * b.toNat :=
    Int.mul_le_mul_of_nonneg_right (BitVec.le_toInt _) (Int.natCast_nonneg _)
  have hhigh : coef latch k * b.toNat ≤ 32767 * (b.toNat : Int) :=
    Int.mul_le_mul_of_nonneg_right (Int.le_of_lt_add_one BitVec.toInt_lt) (Int.natCast_nonneg _)
  have hbyte := b.isLt
  omega

/-- A convolution sum is within as many largest terms as its window has pixels (R206). -/
theorem weightedSum_bounds (w : List Half) (ch : Pixel → Byte) (window : List Pixel) : ∀ j,
    -8355840 * (window.length : Int) ≤ weightedSum w ch j window ∧
      weightedSum w ch j window ≤ 8355840 * (window.length : Int) := by
  induction window with
  | nil => intro j; simp [weightedSum]
  | cons x xs ih =>
    intro j
    have hterm := coef_mul_byte_bounds w j (ch x)
    have hrest := ih (j + 1)
    rw [weightedSum, List.length_cons]
    omega

/-- Settles O29: each sum has at most four, or at most 25, bounded terms. -/
theorem accumulatorsNeverWrap : Obligations.AccumulatorsNeverWrap := by
  constructor
  · intro c r x
    have h0 := coef_mul_byte_bounds c (4 * r) x.c0
    have h1 := coef_mul_byte_bounds c (4 * r + 1) x.c1
    have h2 := coef_mul_byte_bounds c (4 * r + 2) x.c2
    have h3 := coef_mul_byte_bounds c (4 * r + 3) x.c3
    rw [acc4, acc3]
    omega
  · intro w window hlength ch _
    have := weightedSum_bounds w ch window 0
    omega

/-! Pixels, coefficients and sums as the numbers the statements speak of. -/

/-- Channel c of a pixel. -/
def Pixel.byte (x : Pixel) : Nat → Byte
  | 0 => x.c0
  | 1 => x.c1
  | 2 => x.c2
  | _ => x.c3

/-- Channel c of pixel i in memory is channel c of the pixel read there (R16). -/
theorem channel_eq_byte (m : Mem) (base i : Nat) {c : Nat} (hc : c < 4) :
    channel m base i c = ((pixelAt m base i).byte c).toNat :=
  match c, hc with
  | 0, _ => rfl
  | 1, _ => rfl
  | 2, _ => rfl
  | 3, _ => rfl

theorem byte_f4x4 (c : List Half) (x : Pixel) {r : Nat} (hr : r < 4) : (f4x4 c x).byte r = descale (acc4 c r x) :=
  match r, hr with
  | 0, _ => rfl
  | 1, _ => rfl
  | 2, _ => rfl
  | 3, _ => rfl

theorem byte_f3x3 (c : List Half) (x : Pixel) {r : Nat} (hr : r < 3) : (f3x3 c x).byte r = descale (acc3 c r x) :=
  match r, hr with
  | 0, _ => rfl
  | 1, _ => rfl
  | 2, _ => rfl

theorem byte_fDot (c : List Half) (x : Pixel) {r : Nat} (hr : r < 3) : (fDot c x).byte r = descale (acc3 c 0 x) :=
  match r, hr with
  | 0, _ => rfl
  | 1, _ => rfl
  | 2, _ => rfl

/-- Latched coefficient k is the signed value of its two bytes in memory (R16, R64). -/
theorem coef_coefsAt (m : Mem) (base : Nat) {n k : Nat} (hk : k < n) : coef (coefsAt m base n 0) k = coefOf m base k := by
  rw [coef, coefsAt_getD m base n 0 k hk, coefOf, Nat.zero_add]
  have hlow := (Mem.read m (base + 2 * k)).isLt
  have hhigh := (Mem.read m (base + 2 * k + 1)).isLt
  congr 1
  apply BitVec.eq_of_toNat_eq
  rw [BitVec.toNat_append, ← Nat.shiftLeft_add_eq_or_of_lt hlow, Nat.shiftLeft_eq, BitVec.toNat_ofNat, Mem.readLE,
    readLE_one]
  omega

/-- The sum of row r over channels 0..2, from memory (R174). -/
theorem acc3_eq_sum (m : Mem) (cb src i : Nat) {r : Nat} (hr : r < 4) :
    acc3 (coefsAt m cb 16 0) r (pixelAt m src i) =
      ∑ k ∈ Finset.range 3, coefOf m cb (4 * r + k) * channel m src i k := by
  rw [acc3, coef_coefsAt m cb (by omega), coef_coefsAt m cb (by omega), coef_coefsAt m cb (by omega)]
  simp only [Finset.sum_range_succ, Finset.sum_range_zero, zero_add]
  rfl

/-- The sum of row r over all four channels, from memory (R174). -/
theorem acc4_eq_sum (m : Mem) (cb src i : Nat) {r : Nat} (hr : r < 4) :
    acc4 (coefsAt m cb 16 0) r (pixelAt m src i) =
      ∑ k ∈ Finset.range 4, coefOf m cb (4 * r + k) * channel m src i k := by
  rw [acc4, acc3_eq_sum m cb src i hr, coef_coefsAt m cb (by omega), Finset.sum_range_succ _ 3]
  rfl

/-! Completion. -/

/-- The operand words' ranges raise no overlap exactly when they are the same or apart (R171). -/
theorem matrixOverlap_toNat_false_iff {dst src count : Word} :
    matrixOverlap dst.toNat src.toNat count.toNat = false ↔
      dst = src ∨ apart dst.toNat (4 * count.toNat) src.toNat (4 * count.toNat) := by
  rw [matrixOverlap_false_iff, ← BitVec.toNat_inj]
  omega

/-- A colour-matrix command with readable coefficients and accessible ranges, the same or apart, completes; every
destination pixel is then the function of its source pixel, and every other byte stays (R170, R171, R173). -/
theorem colourMatrix_completes (f : List Half → Pixel → Pixel) {dst src cb count : Word} {s : State}
    (hcoef : check s.platform cb.toNat 32 = true)
    (hranges : dst = src ∨ apart dst.toNat (4 * count.toNat) src.toNat (4 * count.toNat))
    (hsrc : check s.platform src.toNat (4 * count.toNat) = true)
    (hdst : check s.platform dst.toNat (4 * count.toNat) = true) :
    ∃ m : Mem, colourMatrix f dst src cb count s = .ok { s with
        mem := m, latch := coefsAt s.mem cb.toNat 16 0, cmdptr := s.cmdptr + 20#32 } ∧
      (∀ i < count.toNat, ∀ c < 4, channel m dst.toNat i c =
        ((f (coefsAt s.mem cb.toNat 16 0) (pixelAt s.mem src.toNat i)).byte c).toNat) ∧
      sameOutside s.mem m dst.toNat (4 * count.toNat) := by
  obtain ⟨t, ht⟩ := (colourMatrix_ok_iff f dst src cb count s).mpr
    ⟨hcoef, matrixOverlap_toNat_false_iff.mpr hranges, bytesOk_of_check _ _ _ hsrc, bytesOk_of_check _ _ _ hdst⟩
  obtain ⟨hstate, hpixels, hout, -⟩ := colourMatrix_result f dst src cb count s t ht
  exact ⟨t.mem, ht.trans (congrArg Except.ok hstate), fun i hi c hc => by
    rw [channel_eq_byte _ _ _ hc, hpixels i hi], hout⟩

/-- Settles O22: each channel of F4x4 is its own row's sum over four channels. -/
theorem cm4x4TransformsPixels : Obligations.Cm4x4TransformsPixels := by
  intro s dst src cb count hcoef hranges hsrc hdst
  obtain ⟨m, hok, hpixels, hout⟩ := colourMatrix_completes f4x4 hcoef hranges hsrc hdst
  refine ⟨m, (execCm4x4_next_iff ..).mpr hok, fun i hi r hr => ?_, hout⟩
  rw [hpixels i hi r hr, byte_f4x4 _ _ hr, descale_toNat, acc4_eq_sum _ _ _ _ hr]

/-- Settles O23: channels 0..2 of F3x3 are their own rows' sums over three channels, and channel 3 is the pixel's. -/
theorem cm3x3TransformsPixels : Obligations.Cm3x3TransformsPixels := by
  intro s dst src cb count hcoef hranges hsrc hdst
  obtain ⟨m, hok, hpixels, hout⟩ := colourMatrix_completes f3x3 hcoef hranges hsrc hdst
  refine ⟨m, (execCm3x3_next_iff ..).mpr hok, fun i hi => ⟨hpixels i hi 3 (by decide), fun r hr => ?_⟩, hout⟩
  rw [hpixels i hi r (by omega), byte_f3x3 _ _ hr, descale_toNat, acc3_eq_sum _ _ _ _ (by omega)]

/-- Settles O24: channels 0..2 of FDot are all row 0's sum over three channels, and channel 3 is the pixel's. -/
theorem cmdotProjectsPixels : Obligations.CmdotProjectsPixels := by
  intro s dst src cb count hcoef hranges hsrc hdst
  obtain ⟨m, hok, hpixels, hout⟩ := colourMatrix_completes fDot hcoef hranges hsrc hdst
  refine ⟨m, (execCmdot_next_iff ..).mpr hok, fun i hi => ⟨hpixels i hi 3 (by decide), fun r hr => ?_⟩, hout⟩
  rw [hpixels i hi r (by omega), byte_fDot _ _ hr, descale_toNat, acc3_eq_sum _ _ _ _ (by decide)]
  simp only [Nat.mul_zero, Nat.zero_add]

/-- A channel times 256, scaled, is the channel (R180). -/
theorem scaled_mul_channel (m : Mem) (base i c : Nat) : scaled (256 * channel m base i c) = channel m base i c := by
  have hbyte := (Mem.read m (base + 4 * i + c)).isLt
  rw [scaled, clamp, channel]
  omega

/-- Settles O27: of the sum of row r only the term of channel r is left, 256 times that channel. -/
theorem cm4x4IdentityKeepsPixels : Obligations.Cm4x4IdentityKeepsPixels := by
  intro s dst src cb count hcoef hranges hsrc hdst hidentity
  obtain ⟨m, hexec, hpixels, -⟩ := cm4x4TransformsPixels s dst src cb count hcoef hranges hsrc hdst
  refine ⟨_, hexec, fun i hi c hc => ?_⟩
  have hsum : ∑ k ∈ Finset.range 4, coefOf s.mem cb.toNat (4 * c + k) * channel s.mem src.toNat i k =
      256 * channel s.mem src.toNat i c := by
    rw [Finset.sum_eq_single_of_mem c (Finset.mem_range.mpr hc) fun k hk hne => ?_, hidentity c hc c hc, if_pos rfl]
    rw [hidentity c hc k (Finset.mem_range.mp hk), if_neg hne.symm, zero_mul]
  rw [hpixels i hi c hc, hsum, scaled_mul_channel]

/-! The forbidden overlap (R171). -/

theorem colourMatrix_overlap_fault (f : List Half → Pixel → Pixel) {dst src cb count : Word} {s : State}
    (hcoef : check s.platform cb.toNat 32 = true) (hover : matrixOverlap dst.toNat src.toNat count.toNat = true) :
    colourMatrix f dst src cb count s = .error (.contractViolation .overlap dst.toNat (4 * count.toNat)) := by
  have hcoefs := (readCoefs_array s.platform s.mem cb.toNat 16 _ (by decide)).mpr ⟨hcoef, rfl⟩
  rw [colourMatrix, runKernel, hcoefs, ok_bind, if_pos hover]

/-- Two computations in sequence raise a fault exactly when the first does, or gives a value from which the second
does. -/
theorem bind_error_iff {α β : Type} {x : Except Fault α} {k : α → Except Fault β} {fault : Fault} :
    (x >>= k) = .error fault ↔ x = .error fault ∨ ∃ a, x = .ok a ∧ k a = .error fault := by
  cases x <;> simp

/-- A checked read raises no fault but that of its access check (R62). -/
theorem memRead_error_eq {p : Platform} {m : Mem} {a n : Nat} {fault : Fault} (h : memRead p m a n = .error fault) :
    fault = .contractViolation .access a n := by
  cases hcheck : check p a n with
  | true => exact nomatch (memRead_of_check p m a n hcheck).symm.trans h
  | false => exact Except.error.inj (h.symm.trans (memRead_error p m a n hcheck))

/-- The reads of the coefficients fail in the access check only. -/
theorem readCoefs_error_access {p : Platform} {m : Mem} {base : Nat} {fault : Fault} (n : Nat) : ∀ {k},
    readCoefs p m base n k = .error fault → ∃ a w, fault = .contractViolation .access a w := by
  induction n with
  | zero => exact nofun
  | succ n ih =>
    intro k h
    obtain hread | ⟨x, -, hrest⟩ := bind_error_iff.mp h
    · exact ⟨_, _, memRead_error_eq hread⟩
    · obtain hrest | ⟨rest, -, hok⟩ := bind_error_iff.mp hrest
      · exact ih hrest
      · nomatch hok

/-- A colour-matrix command whose ranges are the same or apart fails in the access check only. -/
theorem colourMatrix_error_access {f : List Half → Pixel → Pixel} {dst src cb count : Word} {s : State}
    {fault : Fault} (hover : matrixOverlap dst.toNat src.toNat count.toNat = false)
    (h : colourMatrix f dst src cb count s = .error fault) : ∃ a w, fault = .contractViolation .access a w := by
  rw [colourMatrix, hover] at h
  obtain hcoefs | ⟨c, hcoefs, -⟩ := bind_error_iff.mp h
  · exact readCoefs_error_access 16 hcoefs
  · obtain ⟨hcoef, -⟩ := (readCoefs_array _ _ _ _ _ (by decide)).mp hcoefs
    obtain ⟨a, -, -, hfault⟩ := runKernel_faultsIn (by decide) hcoef
      (fun c i _ m => (readPixel_faultsIn m (Set.subset_univ _)).bind fun _ => .ok _) (Set.subset_univ _) fault h
    exact ⟨a, 1, hfault⟩

/-- Settles O25: a partial overlap is found right after the coefficients are read; without one, only the access check can
fail. -/
theorem matrixOverlapIsViolation : Obligations.MatrixOverlapIsViolation := by
  intro s dst src cb count command hcommand
  obtain ⟨f, hexec⟩ := matrixCommand_eq_outcome hcommand
  simp only [hexec, ne_eq, outcome_fault_iff]
  constructor
  · intro hcoef hne hmeet
    refine colourMatrix_overlap_fault f hcoef (Bool.of_not_eq_false fun hover => ?_)
    exact (matrixOverlap_toNat_false_iff.mp hover).elim hne hmeet
  · intro hranges a n h
    obtain ⟨_, _, hfault⟩ := colourMatrix_error_access (matrixOverlap_toNat_false_iff.mpr hranges) h
    nomatch hfault

end Sys2Proof.Machine

end

section
/-! PROOFS. The convolutions (R200 to R209): the sum of a window as the number the statements speak of, completion with
the pixels it leaves, the identity kernel and constant windows, and the forbidden overlap. -/

namespace Sys2Proof.Machine

open Sys2Proof.Claims

/-! The sum of a window. -/

theorem byte_convolve (w : List Half) (window : List Pixel) {c : Nat} (hc : c < 4) :
    (convolve w window).byte c = descale (weightedSum w (·.byte c) 0 window) :=
  match c, hc with
  | 0, _ => rfl
  | 1, _ => rfl
  | 2, _ => rfl
  | 3, _ => rfl

/-- The weights of the pixels of `ys` go on where those of `xs` end. -/
theorem weightedSum_append (w : List Half) (ch : Pixel → Byte) (xs ys : List Pixel) : ∀ j,
    weightedSum w ch j (xs ++ ys) = weightedSum w ch j xs + weightedSum w ch (j + xs.length) ys := by
  induction xs with
  | nil => intro j; exact (zero_add _).symm
  | cons x xs ih =>
    intro j
    rw [List.cons_append, weightedSum, weightedSum, ih, List.length_cons, Nat.add_assoc, Nat.add_comm 1, add_assoc]

/-- The part of a sum that one row of the window gives. -/
theorem weightedSum_map_range (w : List Half) (ch : Pixel → Byte) (f : Nat → Pixel) (j k : Nat) :
    weightedSum w ch j ((List.range k).map f) = ∑ dx ∈ Finset.range k, coef w (j + dx) * ((ch (f dx)).toNat : Int) := by
  induction k with
  | zero => rfl
  | succ k ih =>
    rw [List.range_succ, List.map_append, weightedSum_append, ih, Finset.sum_range_succ, List.length_map,
      List.length_range, List.map_singleton, weightedSum, weightedSum, add_zero]

/-- The sum over a window, row by row (R203). -/
theorem weightedSum_windowAt (w : List Half) (ch : Pixel → Byte) (m : Mem) (k x : Nat) (rows : List Word) : ∀ j,
    weightedSum w ch j (windowAt m k x (rows.map (·.toNat))) =
      ∑ dy ∈ Finset.range rows.length, ∑ dx ∈ Finset.range k,
        coef w (j + (dy * k + dx)) * ((ch (pixelAt m (rows.getD dy 0#32).toNat (x + dx))).toNat : Int) := by
  induction rows with
  | nil => intro j; rfl
  | cons row rows ih =>
    intro j
    have hrow := weightedSum_map_range w ch (fun dx => pixelAt m row.toNat (x + dx)) j k
    have hrows := ih (j + k)
    rw [windowAt] at hrows ⊢
    rw [List.map_cons, List.flatMap_cons, weightedSum_append, hrow, List.length_map, List.length_range, hrows,
      List.length_cons, Finset.sum_range_succ', add_comm]
    congr 1
    · refine Finset.sum_congr rfl fun dy _ => Finset.sum_congr rfl fun dx _ => ?_
      rw [List.getD_cons_succ, show j + k + (dy * k + dx) = j + ((dy + 1) * k + dx) by ring]
    · simp only [Nat.zero_mul, Nat.zero_add, List.getD_cons_zero]

/-- Entry (dy, dx) of a k by k array lies in it. -/
theorem entry_lt_square {k dy dx : Nat} (hdy : dy < k) (hdx : dx < k) : dy * k + dx < k * k :=
  calc dy * k + dx < dy * k + k := Nat.add_lt_add_left hdx _
    _ = (dy + 1) * k := (Nat.succ_mul dy k).symm
    _ ≤ k * k := Nat.mul_le_mul_right k hdy

/-- A channel's sum over the window of output pixel x, from memory (R203). -/
theorem weightedSum_eq_windowSum (m : Mem) {k : Nat} (cb : Nat) {rows : List Word} (x : Nat) {c : Nat}
    (hlength : rows.length = k) (hc : c < 4) :
    weightedSum (coefsAt m cb (k * k) 0) (·.byte c) 0 (windowAt m k x (rows.map (·.toNat))) =
      windowSum m k cb rows x c := by
  rw [weightedSum_windowAt, hlength, windowSum]
  refine Finset.sum_congr rfl fun dy hdy => Finset.sum_congr rfl fun dx hdx => ?_
  rw [Finset.mem_range] at hdy hdx
  rw [Nat.zero_add, coef_coefsAt _ _ (entry_lt_square hdy hdx), channel_eq_byte _ _ _ hc]

/-! Completion. -/

/-- A completed convolution leaves in each channel the sum of its window, shifted and clamped (R203). -/
theorem channel_of_convolution {k l : Nat} {dst : Word} {rows : List Word} {cb count : Word} {s t : State} {x c : Nat}
    (hk : 0 < k) (hlength : rows.length = k) (h : convolution k l dst rows cb count s = .ok t) (hx : x < count.toNat)
    (hc : c < 4) : channel t.mem dst.toNat x c = scaled (windowSum s.mem k cb.toNat rows x c) := by
  obtain ⟨-, hpixels, -⟩ := convolution_result k l dst rows cb count s t hk h
  rw [channel_eq_byte _ _ _ hc, hpixels x hx, byte_convolve _ _ hc, descale_toNat,
    weightedSum_eq_windowSum _ _ _ hlength hc]

/-- The operand words' ranges raise no overlap exactly when the destination is apart from every row window (R202). -/
theorem convolutionOverlap_toNat_false_iff {k : Nat} {dst count : Word} {rows : List Word} (hk : 0 < k) :
    convolutionOverlap k dst.toNat count.toNat (rows.map (·.toNat)) = false ↔
      ∀ row ∈ rows, apart dst.toNat (4 * count.toNat) row.toNat (4 * (count.toNat + (k - 1))) := by
  rw [convolutionOverlap_false_iff _ _ _ _ hk, List.forall_mem_map]
  obtain hcount | hcount := Nat.eq_zero_or_pos count.toNat
  · exact iff_of_true (.inl hcount) fun _ _ => .inl (by omega)
  · refine (or_iff_right hcount.ne').trans (forall₂_congr fun row _ => ?_)
    omega

/-- A convolution with readable coefficients, accessible ranges and a destination apart from every row window completes;
every channel is then the sum of its window, shifted and clamped, and every other byte stays (R200 to R203). -/
theorem convolution_completes {k l : Nat} {dst : Word} {rows : List Word} {cb count : Word} {s : State} (hk : 0 < k)
    (hlength : rows.length = k) (hcoef : check s.platform cb.toNat (2 * (k * k)) = true)
    (hapart : ∀ row ∈ rows, apart dst.toNat (4 * count.toNat) row.toNat (4 * (count.toNat + (k - 1))))
    (hrows : count ≠ 0#32 → ∀ row ∈ rows, check s.platform row.toNat (4 * (count.toNat + (k - 1))) = true)
    (hdst : check s.platform dst.toNat (4 * count.toNat) = true) :
    ∃ m : Mem, convolution k l dst rows cb count s = .ok { s with
        mem := m, latch := coefsAt s.mem cb.toNat (k * k) 0, cmdptr := s.cmdptr + BitVec.ofNat 32 (4 * l) } ∧
      (∀ x < count.toNat, ∀ c < 4,
        channel m dst.toNat x c = scaled (windowSum s.mem k cb.toNat rows x c)) ∧
      sameOutside s.mem m dst.toNat (4 * count.toNat) := by
  have hwindows : ∀ row ∈ rows, bytesOk s.platform row.toNat (rowBytes k count.toNat) := by
    intro row hrow
    rw [rowBytes]
    split
    next => exact fun j hj => absurd hj (Nat.not_lt_zero j)
    next hcount => exact bytesOk_of_check _ _ _ (hrows (fun h => hcount (congrArg BitVec.toNat h)) row hrow)
  obtain ⟨t, ht⟩ := (convolution_ok_iff k l dst rows cb count s hk).mpr
    ⟨hcoef, (convolutionOverlap_toNat_false_iff hk).mpr hapart, hwindows, bytesOk_of_check _ _ _ hdst⟩
  obtain ⟨hstate, -, hout, -⟩ := convolution_result k l dst rows cb count s t hk ht
  exact ⟨t.mem, ht.trans (congrArg Except.ok hstate), fun x hx c hc => channel_of_convolution hk hlength ht hx hc, hout⟩

/-- Settles O31: CONV3X3 is the shared body with a kernel of size 3 over three rows. -/
theorem conv3x3ConvolvesPixels : Obligations.Conv3x3ConvolvesPixels := by
  intro s dst row0 row1 row2 cb count hcoef hapart hrows hdst
  simp only [execConv3x3_next_iff]
  exact convolution_completes (by decide) rfl hcoef hapart hrows hdst

/-- Settles O32: CONV5X5 is the shared body with a kernel of size 5 over five rows. -/
theorem conv5x5ConvolvesPixels : Obligations.Conv5x5ConvolvesPixels := by
  intro s dst row0 row1 row2 row3 row4 cb count hcoef hapart hrows hdst
  simp only [execConv5x5_next_iff]
  exact convolution_completes (by decide) rfl hcoef hapart hrows hdst

/-! The identity kernel (R208) and constant windows (R209). -/

/-- With 256 at the centre and 0 elsewhere, the sum is 256 times the centre pixel's channel. -/
theorem windowSum_of_centre_weight {m : Mem} {cb : Nat} {row0 row1 row2 : Word} {x c : Nat}
    (hweights : ∀ k < 9, coefOf m cb k = if k = 4 then 256 else 0) :
    windowSum m 3 cb [row0, row1, row2] x c = 256 * channel m row1.toNat (x + 1) c := by
  have hcentre : 1 ∈ Finset.range 3 := by decide
  have hzero : ∀ dy ∈ Finset.range 3, ∀ dx ∈ Finset.range 3, dy ≠ 1 ∨ dx ≠ 1 → coefOf m cb (dy * 3 + dx) = 0 := by
    intro dy hdy dx hdx hne
    rw [Finset.mem_range] at hdy hdx
    rw [hweights _ (entry_lt_square hdy hdx), if_neg (by omega)]
  rw [windowSum, Finset.sum_eq_single_of_mem 1 hcentre fun dy hdy hne => Finset.sum_eq_zero fun dx hdx => by
      rw [hzero dy hdy dx hdx (.inl hne), zero_mul],
    Finset.sum_eq_single_of_mem 1 hcentre fun dx hdx hne => by rw [hzero 1 hcentre dx hdx (.inr hne), zero_mul],
    hweights _ (by decide)]
  rfl

/-- Settles O35: of the sum only the term of the centre pixel is left, 256 times its channel. -/
theorem conv3x3IdentityCopiesCentreRow : Obligations.Conv3x3IdentityCopiesCentreRow := by
  intro s dst row0 row1 row2 cb count hcoef hapart hrows hdst hweights
  obtain ⟨m, hexec, hpixels, -⟩ := conv3x3ConvolvesPixels s dst row0 row1 row2 cb count hcoef hapart hrows hdst
  refine ⟨_, hexec, fun x hx c hc => ?_⟩
  rw [hpixels x hx c hc, windowSum_of_centre_weight hweights, scaled_mul_channel]

/-- A sum over n rows of k entries, row by row. -/
theorem sum_range_mul (f : Nat → Int) (n k : Nat) :
    ∑ i ∈ Finset.range (n * k), f i = ∑ dy ∈ Finset.range n, ∑ dx ∈ Finset.range k, f (dy * k + dx) := by
  induction n with
  | zero => rw [Nat.zero_mul]; rfl
  | succ n ih => rw [Nat.succ_mul, Finset.sum_range_add, ih, Finset.sum_range_succ]

/-- The sum over a window whose bytes of a channel are all v is the sum of the weights times v. -/
theorem windowSum_of_constant {m : Mem} {k cb : Nat} {rows : List Word} {x c : Nat} {v : Int}
    (hlength : rows.length = k) (hconst : ∀ row ∈ rows, ∀ dx < k, channel m row.toNat (x + dx) c = v) :
    windowSum m k cb rows x c = (∑ i ∈ Finset.range (k * k), coefOf m cb i) * v := by
  simp only [windowSum, sum_range_mul, Finset.sum_mul]
  refine Finset.sum_congr rfl fun dy hdy => Finset.sum_congr rfl fun dx hdx => ?_
  rw [Finset.mem_range, ← hlength] at hdy
  rw [List.getD_eq_getElem _ _ hdy, hconst _ (List.getElem_mem hdy) dx (Finset.mem_range.mp hdx)]

/-- A completed convolution leaves, of a window whose bytes of a channel are all v, the scaled product of the weights'
sum and v, which is v when the weights sum to 256 (R209). -/
theorem channel_of_constant_window {k l : Nat} {dst : Word} {rows : List Word} {cb count : Word} {s t : State}
    {x c : Nat} {v : Byte} (hk : 0 < k) (hlength : rows.length = k) (hx : x < count.toNat) (hc : c < 4)
    (h : convolution k l dst rows cb count s = .ok t)
    (hconst : ∀ row ∈ rows, ∀ dx < k, channel s.mem row.toNat (x + dx) c = (v.toNat : Int)) :
    (0 ≤ ∑ i ∈ Finset.range (k * k), coefOf s.mem cb.toNat i → channel t.mem dst.toNat x c =
      scaled ((∑ i ∈ Finset.range (k * k), coefOf s.mem cb.toNat i) * (v.toNat : Int))) ∧
    (∑ i ∈ Finset.range (k * k), coefOf s.mem cb.toNat i = 256 → channel t.mem dst.toNat x c = (v.toNat : Int)) := by
  have hscaled := channel_of_convolution hk hlength h hx hc
  rw [windowSum_of_constant hlength hconst] at hscaled
  obtain ⟨row, hrow⟩ := List.exists_mem_of_length_pos (hlength ▸ hk)
  exact ⟨fun _ => hscaled, fun hsum => by rw [hscaled, hsum, ← hconst row hrow 0 hk, scaled_mul_channel]⟩

/-- Settles O36: a constant window's sum is the sum of the weights times its value. -/
theorem constantWindowGivesScaledValue : Obligations.ConstantWindowGivesScaledValue := by
  intro s t dst row0 row1 row2 row3 row4 cb count x c v hx hc
  simp only [execConv3x3_next_iff, execConv5x5_next_iff]
  exact ⟨channel_of_constant_window (by decide) rfl hx hc, channel_of_constant_window (by decide) rfl hx hc⟩

/-! The forbidden overlap (R202). -/

theorem convolution_overlap_fault {k l : Nat} {dst : Word} {rows : List Word} {cb count : Word} {s : State} (hk : 0 < k)
    (hcoef : check s.platform cb.toNat (2 * (k * k)) = true)
    (hmeet : ∃ row ∈ rows, ¬ apart dst.toNat (4 * count.toNat) row.toNat (4 * (count.toNat + (k - 1)))) :
    outcome (convolution k l dst rows cb count s) =
      .fault (.contractViolation .overlap dst.toNat (4 * count.toNat)) := by
  have hover : convolutionOverlap k dst.toNat count.toNat (rows.map (·.toNat)) = true := by
    refine Bool.of_not_eq_false fun hover => ?_
    obtain ⟨row, hrow, hmeet⟩ := hmeet
    exact hmeet ((convolutionOverlap_toNat_false_iff hk).mp hover row hrow)
  have hcoefs := (readCoefs_array s.platform s.mem cb.toNat (k * k) _ (Nat.mul_pos hk hk)).mpr ⟨hcoef, rfl⟩
  rw [convolution, runKernel, hcoefs, ok_bind, if_pos hover, outcome_error]

/-- A convolution whose destination is apart from every row window fails in the access check only. -/
theorem convolution_ne_overlap_fault {k l : Nat} {dst : Word} {rows : List Word} {cb count : Word} {s : State}
    (hk : 0 < k)
    (hapart : ∀ row ∈ rows, apart dst.toNat (4 * count.toNat) row.toNat (4 * (count.toNat + (k - 1)))) (a n : Nat) :
    outcome (convolution k l dst rows cb count s) ≠ .fault (.contractViolation .overlap a n) := by
  rw [ne_eq, outcome_fault_iff, convolution, (convolutionOverlap_toNat_false_iff hk).mpr hapart]
  intro h
  obtain hcoefs | ⟨c, hcoefs, -⟩ := bind_error_iff.mp h
  · obtain ⟨_, _, hfault⟩ := readCoefs_error_access _ hcoefs
    nomatch hfault
  · obtain ⟨hcoef, -⟩ := (readCoefs_array _ _ _ _ _ (Nat.mul_pos hk hk)).mp hcoefs
    obtain ⟨_, -, -, hfault⟩ := runKernel_faultsIn (Nat.mul_pos hk hk) hcoef
      (fun c x _ m => (readWindow_faultsIn m k x _ fun _ _ => Set.subset_univ _).bind fun _ => .ok _)
      (Set.subset_univ _) _ h
    nomatch hfault

/-- Settles O33: an overlap with a row window is found right after the coefficients are read; without one, only the
access check can fail. -/
theorem convolutionOverlapIsViolation : Obligations.ConvolutionOverlapIsViolation := by
  intro s dst row0 row1 row2 row3 row4 cb count
  exact ⟨convolution_overlap_fault (k := 3) (by decide), convolution_overlap_fault (k := 5) (by decide),
    convolution_ne_overlap_fault (k := 3) (by decide), convolution_ne_overlap_fault (k := 5) (by decide)⟩

end Sys2Proof.Machine

end

section
/-! PROOFS. What can stop the engine (R230, R231, R233): the illegal-command stop as one action, and the faults a
command can raise. -/

namespace Sys2Proof.Machine

/-! The illegal-command stop. -/

/-- The fetch of an illegal first word ends with that word: no operand word is read (R122, R231). -/
theorem fetch_of_illegal {p : Platform} {m : Mem} {a : Word} (hcheck : check p a.toNat 4 = true)
    (hillegal : legalFirst (BitVec.ofNat 32 (Mem.readLE m a.toNat 4)) = false) :
    fetch p m a = .ok (.illegal (BitVec.ofNat 32 (Mem.readLE m a.toNat 4))) := by
  have hfirst : wordAddr a 0 = a.toNat := by simp [wordAddr]
  have hrow : rowOf (BitVec.ofNat 32 (Mem.readLE m a.toNat 4)) = none :=
    Option.isNone_iff_eq_none.mp (Option.isSome_eq_false_iff.mp ((rowOf_isSome _).trans hillegal))
  simp only [fetch, hfirst, memRead_of_check _ _ _ _ hcheck, ok_bind, hrow]

/-- Settles O8: the step is the engine's, its fetch ends with the illegal word, and the one access it makes, the read of
that word, does not conflict with the host's. -/
theorem illegalWordStopsEngine : Obligations.IllegalWordStopsEngine := by
  intro s ts hturn hbusy hcheck hillegal hconflict
  simp only [step_of_engineTurn hturn hbusy, engineStep, fetch_of_illegal hcheck hillegal, wordAccesses_one]
  exact withAccesses_of_no_conflict (s := { s with turns := ts }) _
    fun x hx => List.forall_mem_singleton.mpr (hconflict x hx)

/-! The faults a command can raise. -/

/-- The faults a command may raise in `s`: a contract violation, or the unwritten-register fault of a register that is
not marked written (R230). -/
def Fault.AllowedIn (s : State) : Fault → Prop
  | .contractViolation _ _ _ => True
  | .unwrittenRegister r => s.written[r] = false

/-- A computation raises no other fault than a command may raise in `s`. -/
def FaultsAllowed {α : Type} (s : State) (r : Except Fault α) : Prop := ∀ f, r = .error f → f.AllowedIn s

section
variable {s : State}

theorem FaultsAllowed.ok {α : Type} (x : α) : FaultsAllowed s (.ok x) := nofun

theorem FaultsAllowed.error {α : Type} {f : Fault} (h : f.AllowedIn s) :
    FaultsAllowed s (.error f : Except Fault α) := by
  rintro _ ⟨⟩
  exact h

theorem FaultsAllowed.bind {α β : Type} {r : Except Fault α} {k : α → Except Fault β} (hr : FaultsAllowed s r)
    (hk : ∀ x, FaultsAllowed s (k x)) : FaultsAllowed s (r >>= k) := by
  intro f h
  obtain h | ⟨x, -, h⟩ := bind_error_iff.mp h
  · exact hr f h
  · exact hk x f h

theorem readV_faultsAllowed (r : VReg) : FaultsAllowed s (readV s r) := by
  cases hr : s.written[r] with
  | true => rw [readV_of_written s r hr]; exact .ok _
  | false => rw [readV_unwritten s r hr]; exact .error hr

theorem memRead_faultsAllowed (p : Platform) (m : Mem) (a n : Nat) : FaultsAllowed s (memRead p m a n) := by
  intro f h
  rw [memRead_error_eq h]
  trivial

theorem memWrite_faultsAllowed (p : Platform) (m : Mem) (a n x : Nat) : FaultsAllowed s (memWrite p m a n x) := by
  cases hcheck : check p a n with
  | true => rw [memWrite_of_check _ _ _ _ _ hcheck]; exact .ok _
  | false => rw [memWrite_error _ _ _ _ _ hcheck]; exact .error trivial

theorem readCoefs_faultsAllowed (p : Platform) (m : Mem) (base n k : Nat) :
    FaultsAllowed s (readCoefs p m base n k) := by
  intro f h
  obtain ⟨a, w, rfl⟩ := readCoefs_error_access n h
  trivial

/-- The failed access check of a byte is a contract violation. -/
theorem FaultsIn.allowed {α : Type} {p : Platform} {bytes : Set Nat} {r : Except Fault α} (h : FaultsIn p bytes r) :
    FaultsAllowed s r := by
  intro f hf
  obtain ⟨a, -, -, rfl⟩ := h f hf
  trivial

end

theorem unaryV_faultsAllowed (f : V128 → V128) (vd vs1 : VReg) (s : State) : FaultsAllowed s (unaryV f vd vs1 s) :=
  (readV_faultsAllowed vs1).bind fun _ => .ok _

theorem binaryV_faultsAllowed (f : V128 → V128 → V128) (vd vs1 vs2 : VReg) (s : State) :
    FaultsAllowed s (binaryV f vd vs1 vs2 s) :=
  (readV_faultsAllowed vs1).bind fun _ => (readV_faultsAllowed vs2).bind fun _ => .ok _

/-- A kernel command raises contract violations only: of a coefficient's read, of the forbidden overlap, or of a pixel
byte's access. -/
theorem runKernel_faultsAllowed (s : State) (coefBase nCoefs dst count l : Nat) (overlaps : Bool)
    {f : List Half → Mem → Nat → Except Fault Pixel} (hf : ∀ c m i, FaultsIn s.platform Set.univ (f c m i)) :
    FaultsAllowed s (runKernel s coefBase nCoefs dst count l overlaps f) := by
  refine (readCoefs_faultsAllowed _ _ _ _ _).bind fun c => ?_
  cases overlaps with
  | true => exact .error trivial
  | false =>
    have hloop : FaultsIn s.platform Set.univ (pixelLoop s.platform dst (f c) count 0 s.mem) :=
      pixelLoop_faultsIn count 0 s.mem (fun i _ _ m => hf c m i) (Set.subset_univ _)
    exact hloop.allowed.bind fun _ => .ok _

theorem colourMatrix_faultsAllowed (f : List Half → Pixel → Pixel) (dst src cb count : Word) (s : State) :
    FaultsAllowed s (colourMatrix f dst src cb count s) :=
  runKernel_faultsAllowed _ _ _ _ _ _ _ fun _ m _ => (readPixel_faultsIn m (Set.subset_univ _)).bind fun _ => .ok _

theorem convolution_faultsAllowed (k l : Nat) (dst : Word) (rows : List Word) (cb count : Word) (s : State) :
    FaultsAllowed s (convolution k l dst rows cb count s) :=
  runKernel_faultsAllowed _ _ _ _ _ _ _ fun _ m x =>
    (readWindow_faultsIn m k x _ fun _ _ => Set.subset_univ _).bind fun _ => .ok _

/-- Every command is the outcome of a computation that raises allowed faults only. -/
theorem exec_eq_outcome_faultsAllowed (i : Instr) (s : State) : ∃ r, exec i s = outcome r ∧ FaultsAllowed s r := by
  cases i with
  | endStream => exact ⟨.ok _, rfl, .ok _⟩
  | nop => exact ⟨.ok _, rfl, .ok _⟩
  | vld vd addr => exact ⟨_, rfl, (memRead_faultsAllowed _ _ _ _).bind fun _ => .ok _⟩
  | vst vs1 addr =>
    exact ⟨_, rfl, (readV_faultsAllowed vs1).bind fun _ => (memWrite_faultsAllowed _ _ _ _ _).bind fun _ => .ok _⟩
  | vwiden vd vs1 => exact ⟨_, rfl, unaryV_faultsAllowed widen vd vs1 s⟩
  | vnarrow16 vd vs1 vs2 => exact ⟨_, rfl, binaryV_faultsAllowed narrow16 vd vs1 vs2 s⟩
  | vpack8 vd vs1 vs2 => exact ⟨_, rfl, binaryV_faultsAllowed narrow8 vd vs1 vs2 s⟩
  | vmullo vd vs1 vs2 => exact ⟨_, rfl, binaryV_faultsAllowed mulLow vd vs1 vs2 s⟩
  | cm4x4 dst src cb count => exact ⟨_, rfl, colourMatrix_faultsAllowed f4x4 dst src cb count s⟩
  | cm3x3 dst src cb count => exact ⟨_, rfl, colourMatrix_faultsAllowed f3x3 dst src cb count s⟩
  | cmdot dst src cb count => exact ⟨_, rfl, colourMatrix_faultsAllowed fDot dst src cb count s⟩
  | conv3x3 dst r0 r1 r2 cb count => exact ⟨_, rfl, convolution_faultsAllowed 3 7 dst [r0, r1, r2] cb count s⟩
  | conv5x5 dst r0 r1 r2 r3 r4 cb count =>
    exact ⟨_, rfl, convolution_faultsAllowed 5 9 dst [r0, r1, r2, r3, r4] cb count s⟩

/-- Settles O42: a command is the outcome of a computation, so it completes or raises a fault, one allowed in its
state. -/
theorem noCommandIsRefused : Obligations.NoCommandIsRefused := by
  intro i s
  obtain ⟨r, hexec, hallowed⟩ := exec_eq_outcome_faultsAllowed i s
  rw [hexec]
  cases r with
  | ok t => exact .inl ⟨t, rfl⟩
  | error f =>
    have hf := hallowed f rfl
    cases f with
    | contractViolation c a n => exact .inr (.inl ⟨c, a, n, rfl⟩)
    | unwrittenRegister r => exact .inr (.inr ⟨r, hf, rfl⟩)

end Sys2Proof.Machine

end

section
/-! PROOFS. The host's reset (R51, R261): refused while a stream runs, and the reset state with the old data memory when the
core is idle. -/

namespace Sys2Proof.Machine

theorem hostTurn_reset_of_busy {s : State} (hbusy : s.busy = true) :
    hostTurn .reset s = .refused .resetWhileBusy := if_pos hbusy

theorem hostTurn_reset_of_idle {s : State} (hidle : s.busy = false) :
    hostTurn .reset s = .next (State.hostReset s) := if_neg (by simp [hidle])

/-- Neither end of a run is reported after a reset, and interrupts are off. -/
@[simp] theorem State.hostReset_irq (s : State) : State.irq (State.hostReset s) = false := rfl

/-- Settles O53: an idle core's next state is `State.hostReset`, whose fields are those of the reset state but for memory and
platform. -/
theorem resetOnlyWhenIdle : Obligations.ResetOnlyWhenIdle := by
  refine fun s => ⟨hostTurn_reset_of_busy, fun hidle => ⟨State.hostReset s, hostTurn_reset_of_idle hidle, ?_⟩⟩
  simp

end Sys2Proof.Machine

end
